-- ==== Sys2Proof/Word.lean ====
section
/-! DEFINITION. The word types of the core (spec/00_scope.md R2, R3, R6). -/

namespace Sys2Proof

/-- A byte, for platforms that split a port (20_memory.md R47). -/
abbrev Byte := BitVec 8

/-- A 32-bit word: a command word, a fixed-point value, an integer or a ROM entry (00_scope.md R2, R3). -/
abbrev Word := BitVec 32

/-- A 64-bit word: the ports OPA and RES (30_encoding.md R70). -/
abbrev DWord := BitVec 64

end Sys2Proof
end

