-- ==== Sys2Proof/Syntax.lean ====
section
/-! DEFINITION. The command set FXC1 (spec/30_encoding.md R71, R74): one constructor for each row of the opcode table.
Operands travel on the ports, so only the shift amount is a field. -/

namespace Sys2Proof

/-- The 21 commands (30_encoding.md R74). `sh` is the field `SH`, 0 to 31 (R71, R72). -/
inductive Instr where
  | fromint
  | toint
  | fromfloat
  | tofloat
  | add
  | sub
  | shl (sh : BitVec 5)
  | shr (sh : BitVec 5)
  | mul
  | div
  | cos
  | sin
  | tan
  | acos
  | asin
  | atan
  | atan2
  | sqrt
  | hypot
  | errget
  | errset
  deriving DecidableEq, Repr

end Sys2Proof
end

