-- ==== Sys2Proof/WellFormed.lean ====
section
/-! DEFINITION. Legality of a command word (spec/30_encoding.md R75). Every term of `Instr` is well formed, because its
one field has the width of `SH`; what can be ill formed is a word, and its three checks stand here. -/

namespace Sys2Proof

/-- The 21 assigned opcodes, as 30_encoding.md R74 lists them. -/
def assignedOpcodes : List Nat :=
  [0x01, 0x02, 0x03, 0x04, 0x05, 0x06, 0x07, 0x08, 0x10, 0x11, 0x20, 0x21, 0x22, 0x23, 0x24, 0x28, 0x29, 0x2A, 0x2B,
   0x30, 0x31]

/-- R75, condition 1: `OP` is one of the assigned values. -/
def opAssigned (w : Word) : Bool := assignedOpcodes.contains (w.toNat % 256)

/-- R75, condition 2: `RSV = CMD[31:13]` is zero. -/
def rsvZero (w : Word) : Bool := w.toNat / 8192 == 0

/-- R75, condition 3: `SH = CMD[12:8]` is zero unless `OP` is SHL or SHR. -/
def shAllowed (w : Word) : Bool :=
  w.toNat / 256 % 32 == 0 || w.toNat % 256 == 0x07 || w.toNat % 256 == 0x08

/-- A command word is legal when all three conditions of R75 hold. -/
def legal (w : Word) : Bool := opAssigned w && rsvZero w && shAllowed w

end Sys2Proof
end

