-- ==== Sys2Proof/Decode.lean ====
section
/-! DEFINITION. Decoding a command word (spec/30_encoding.md R71, R74, R75, R77), and the encoder written from the same
tables. -/

namespace Sys2Proof

/-- Why a command word, or a row of bytes, encodes no command. -/
inductive DecodeError where
  /-- `OP` is not one of the 21 assigned values (30_encoding.md R75, 1). -/
  | unassignedOp
  /-- A bit of `RSV` is set (30_encoding.md R75, 2). -/
  | reservedBits
  /-- `SH` is not zero on a command that does not shift (30_encoding.md R75, 3). -/
  | shiftOnNonShift
  /-- Fewer than the four bytes of one command word (30_encoding.md R77; log 15). -/
  | truncated
  deriving DecidableEq, Repr

/-- The field `OP`, bits 7:0 (30_encoding.md R71). -/
def opField (w : Word) : BitVec 8 := w.extractLsb' 0 8

/-- The field `SH`, bits 12:8 (30_encoding.md R71). -/
def shField (w : Word) : BitVec 5 := w.extractLsb' 8 5

/-- The field `RSV`, bits 31:13 (30_encoding.md R71). -/
def rsvField (w : Word) : BitVec 19 := w.extractLsb' 13 19

/-- The opcode map (30_encoding.md R74): the command an `OP` value names, with the word's `SH`. -/
def commandOf (op : BitVec 8) (sh : BitVec 5) : Option Instr :=
  match op.toNat with
  | 0x01 => some .fromint
  | 0x02 => some .toint
  | 0x03 => some .fromfloat
  | 0x04 => some .tofloat
  | 0x05 => some .add
  | 0x06 => some .sub
  | 0x07 => some (.shl sh)
  | 0x08 => some (.shr sh)
  | 0x10 => some .mul
  | 0x11 => some .div
  | 0x20 => some .cos
  | 0x21 => some .sin
  | 0x22 => some .tan
  | 0x23 => some .acos
  | 0x24 => some .asin
  | 0x28 => some .atan
  | 0x29 => some .atan2
  | 0x2A => some .sqrt
  | 0x2B => some .hypot
  | 0x30 => some .errget
  | 0x31 => some .errset
  | _ => none

/-- The two opcodes whose word may carry a shift amount (30_encoding.md R75, 3). -/
def isShiftOp (op : BitVec 8) : Bool := op == 0x07#8 || op == 0x08#8

/-- Decode one command word (30_encoding.md R77): check it with R75, then dispatch on `OP`. -/
def decode (w : Word) : Except DecodeError Instr :=
  match commandOf (opField w) (shField w) with
  | none => .error .unassignedOp
  | some i =>
    if rsvField w != 0#19 then .error .reservedBits
    else if shField w != 0#5 && !isShiftOp (opField w) then .error .shiftOnNonShift
    else .ok i

/-- A 32-bit word from its four bytes, the byte at the lowest address first, little-endian (20_memory.md R47; log 15). -/
def wordOfBytes (b0 b1 b2 b3 : Byte) : Word := b3 ++ b2 ++ b1 ++ b0

/-- Decode the command word at the head of a row of bytes, and return the bytes after it. -/
def decodeBytes (bs : List Byte) : Except DecodeError (Instr × List Byte) :=
  match bs with
  | b0 :: b1 :: b2 :: b3 :: rest =>
    match decode (wordOfBytes b0 b1 b2 b3) with
    | .ok i => .ok (i, rest)
    | .error e => .error e
  | _ => .error .truncated

/-- The `OP` value of a command (30_encoding.md R74). -/
def opcode (i : Instr) : BitVec 8 :=
  match i with
  | .fromint => 0x01#8
  | .toint => 0x02#8
  | .fromfloat => 0x03#8
  | .tofloat => 0x04#8
  | .add => 0x05#8
  | .sub => 0x06#8
  | .shl _ => 0x07#8
  | .shr _ => 0x08#8
  | .mul => 0x10#8
  | .div => 0x11#8
  | .cos => 0x20#8
  | .sin => 0x21#8
  | .tan => 0x22#8
  | .acos => 0x23#8
  | .asin => 0x24#8
  | .atan => 0x28#8
  | .atan2 => 0x29#8
  | .sqrt => 0x2A#8
  | .hypot => 0x2B#8
  | .errget => 0x30#8
  | .errset => 0x31#8

/-- The `SH` field of a command: its shift amount, zero for a command that does not shift (30_encoding.md R71). -/
def shiftAmount (i : Instr) : BitVec 5 :=
  match i with
  | .shl sh | .shr sh => sh
  | .fromint | .toint | .fromfloat | .tofloat | .add | .sub | .mul | .div | .cos | .sin | .tan | .acos | .asin
  | .atan | .atan2 | .sqrt | .hypot | .errget | .errset => 0#5

/-- The command word of a command: `RSV = 0`, then `SH`, then `OP` (30_encoding.md R71). -/
def encode (i : Instr) : Word := 0#19 ++ shiftAmount i ++ opcode i

/-- The four bytes of a word, little-endian (20_memory.md R47). -/
def bytesOfWord (w : Word) : List Byte :=
  [w.extractLsb' 0 8, w.extractLsb' 8 8, w.extractLsb' 16 8, w.extractLsb' 24 8]

/-- The command the decoder reads from a row of the opcode table, whose word has the low `nbits` bits of `w` and zeros
above them. -/
def decodeTableWord (nbits w : Nat) : Option Instr :=
  if w % 2 ^ nbits < 2 ^ 32 then
    match decodeBytes (bytesOfWord (BitVec.ofNat 32 (w % 2 ^ nbits))) with
    | .ok (i, _) => some i
    | .error _ => none
  else none

end Sys2Proof
end

