-- ==== Sys2Proof/Config.lean ====
section
/-! DEFINITION. What the spec leaves to the implementation or the platform (spec/00_scope.md R2, spec/92, spec/93),
each an opaque constant with no body, so that no proof can lean on a value of it. -/

namespace Sys2Proof

/-- `NAN_RESULT` (00_scope.md R2, 40_fixed_point_core.md R100): the word FROMFLOAT returns for a NaN. Any word (log 7). -/
opaque Config.nanResult : Word

/-- One less than `LATENCY` of a transaction (70_reset_and_hazards.md R245), so that the latency is positive. -/
opaque Config.latencyPred : Word → DWord → Word → Nat

/-- `LATENCY` in cycles, per command word and operands: positive and finite (92, D20). No rule depends on it (log 8). -/
def Config.latency (cmd : Word) (opa : DWord) (opb : Word) : Nat := Config.latencyPred cmd opa opb + 1

/-- `BASE` (20_memory.md R49): where a platform places the ports, if it maps them into an address space (log 8). -/
opaque Config.base : Option Nat

/-- The free RES of the response to a command presented during reset (70_reset_and_hazards.md R246; 93, U11): one value
a draw, the draws counted by the state's `freeCount` (log 6). -/
opaque Config.resInReset : Nat → DWord

/-- The free ILL of the response to a command presented during reset (70_reset_and_hazards.md R246; 93, U11; log 6). -/
opaque Config.illInReset : Nat → Bool

/-- Which of two neighbouring binary64 values is the correctly rounded arctangent, where the model's enclosure of the
angle does not decide it (43_computed_functions.md R181; log 10). The arguments are the ratio's numerator and denominator
and whether the angle is obtuse. True picks the larger magnitude. -/
opaque Config.arctanRoundsUp : Nat → Nat → Bool → Bool

/-- The NaN encoding an assembler writes for a `nan` literal (30_encoding.md R78): any word, made a NaN where it is used
(log 14). -/
opaque Config.nanPattern : DWord

end Sys2Proof
end

