-- ==== Sys2Proof/Machine/Binary64.lean ====
section
/-! DEFINITION. The floating domain of the core: IEEE 754 binary64, round to nearest, ties to even, with subnormals
(spec/00_scope.md R8; spec/92 D4). Every operation forms the exact result as a ratio of naturals and rounds it once. -/

namespace Sys2Proof.Machine

/-- A binary64 value. `fin neg m e` is `m · 2^e`, negated where `neg`; its canonical form has `m < 2^53`, `-1074 ≤ e ≤ 971`
and `2^52 ≤ m` unless `e = -1074`. NaN encodings are one value: no rule tells them apart (log 9). -/
inductive B64 where
  | nan
  | inf (neg : Bool)
  | fin (neg : Bool) (m : Nat) (e : Int)
  deriving DecidableEq, Repr

/-- The value a 64-bit word encodes: sign `d[63]`, biased exponent `d[62:52]`, fraction `d[51:0]` (00_scope.md R8). -/
def b64OfBits (d : DWord) : B64 :=
  let neg := d.toNat / 2 ^ 63 == 1
  let ex : Nat := d.toNat / 2 ^ 52 % 2048
  let frac : Nat := d.toNat % 2 ^ 52
  if ex = 2047 then (if frac = 0 then .inf neg else .nan)
  else if ex = 0 then .fin neg frac (-1074)
  else .fin neg (2 ^ 52 + frac) ((ex : Int) - 1075)

/-- The sign bit in place. -/
def signBits (neg : Bool) : Nat := if neg then 2 ^ 63 else 0

/-- The encoding of a value in canonical form. A NaN takes the quiet pattern; the core never returns one (log 9). -/
def b64ToBits (x : B64) : DWord :=
  match x with
  | .nan => 0x7FF8000000000000#64
  | .inf neg => BitVec.ofNat 64 (signBits neg + 2047 * 2 ^ 52)
  | .fin neg m e =>
    if m < 2 ^ 52 then BitVec.ofNat 64 (signBits neg + m)
    else BitVec.ofNat 64 (signBits neg + (e + 1075).toNat * 2 ^ 52 + (m - 2 ^ 52))

/-- `floor(log2(p / q))` for `p, q > 0`. -/
def floorLog2 (p q : Nat) : Int :=
  let d : Int := (Nat.log2 p : Int) - (Nat.log2 q : Int)
  if q * 2 ^ d.toNat ≤ p * 2 ^ (-d).toNat then d else d - 1

/-- The natural nearest to `n / d`, ties to the even one. -/
def roundHalfEven (n d : Nat) : Nat :=
  let f := n / d
  let r := n % d
  if 2 * r < d then f
  else if d < 2 * r then f + 1
  else f + f % 2

/-- A rounded significand put in canonical form: a carry out of 53 bits moves to the exponent, and an exponent past the
format's largest overflows to infinity. -/
def finishRound (neg : Bool) (m : Nat) (e : Int) : B64 :=
  if m = 2 ^ 53 then (if 970 < e then .inf neg else .fin neg (2 ^ 52) (e + 1))
  else if 971 < e then .inf neg
  else .fin neg m e

/-- The exponent of the last place of the binary64 values around `p / q`. -/
def roundExponent (p q : Nat) : Int :=
  if floorLog2 p q - 52 < -1074 then -1074 else floorLog2 p q - 52

/-- `fl` of the ratio `p / q` with the given sign (00_scope.md R8): nearest binary64 value, ties to even. -/
def flRatio (neg : Bool) (p q : Nat) : B64 :=
  if p = 0 then .fin neg 0 (-1074)
  else
    finishRound neg
      (roundHalfEven (p * 2 ^ (-roundExponent p q).toNat) (q * 2 ^ (roundExponent p q).toNat))
      (roundExponent p q)

/-- `fl` of `m · 2^e`. -/
def flDyadic (neg : Bool) (m : Nat) (e : Int) : B64 := flRatio neg (m * 2 ^ e.toNat) (2 ^ (-e).toNat)

/-- The negated value. -/
def b64Neg (x : B64) : B64 :=
  match x with
  | .nan => .nan
  | .inf neg => .inf (!neg)
  | .fin neg m e => .fin (!neg) m e

/-- `a ⊗ b` (00_scope.md R8). -/
def b64Mul (a b : B64) : B64 :=
  match a, b with
  | .fin s m e, .fin t n f => flDyadic (s != t) (m * n) (e + f)
  | .inf s, .inf t => .inf (s != t)
  | .inf s, .fin t n _ => if n = 0 then .nan else .inf (s != t)
  | .fin s m _, .inf t => if m = 0 then .nan else .inf (s != t)
  | .nan, _ | .inf _, .nan | .fin _ _ _, .nan => .nan

/-- `a ⊘ b` (00_scope.md R8). -/
def b64Div (a b : B64) : B64 :=
  match a, b with
  | .fin s m e, .fin t n f =>
    if n = 0 then (if m = 0 then .nan else .inf (s != t))
    else flRatio (s != t) (m * 2 ^ (e - f).toNat) (n * 2 ^ (f - e).toNat)
  | .inf _, .inf _ => .nan
  | .inf s, .fin t _ _ => .inf (s != t)
  | .fin s _ _, .inf t => .fin (s != t) 0 (-1074)
  | .nan, _ | .inf _, .nan | .fin _ _ _, .nan => .nan

/-- The signed significand of `m · 2^e` at a smaller exponent `g`. -/
def scaledTo (neg : Bool) (m : Nat) (e g : Int) : Int :=
  if neg then -((m * 2 ^ (e - g).toNat : Nat) : Int) else ((m * 2 ^ (e - g).toNat : Nat) : Int)

/-- The smaller of two exponents. -/
def minExponent (e f : Int) : Int := if e ≤ f then e else f

/-- The exact sum of two finite values as a signed significand at `minExponent`. -/
def exactSum (s : Bool) (m : Nat) (e : Int) (t : Bool) (n : Nat) (f : Int) : Int :=
  scaledTo s m e (minExponent e f) + scaledTo t n f (minExponent e f)

/-- `a ⊕ b` (00_scope.md R8). An exact zero sum is `+0` unless both operands are negative zeros. -/
def b64Add (a b : B64) : B64 :=
  match a, b with
  | .fin s m e, .fin t n f =>
    if exactSum s m e t n f = 0 then .fin (s && t) 0 (-1074)
    else flDyadic (decide (exactSum s m e t n f < 0)) (exactSum s m e t n f).natAbs (minExponent e f)
  | .inf s, .inf t => if s = t then .inf s else .nan
  | .inf s, .fin _ _ _ => .inf s
  | .fin _ _ _, .inf t => .inf t
  | .nan, _ | .inf _, .nan | .fin _ _ _, .nan => .nan

/-- `a ⊖ b` (00_scope.md R8). -/
def b64Sub (a b : B64) : B64 := b64Add a (b64Neg b)

/-- `floor(√n)`, built from bit `k - 1` down, for `n < 4^k`, starting from the root `r` of the bits above. -/
def isqrtFrom (n : Nat) : Nat → Nat → Nat
  | 0, r => r
  | k + 1, r => if (r + 2 ^ k) * (r + 2 ^ k) ≤ n then isqrtFrom n k (r + 2 ^ k) else isqrtFrom n k r

/-- `isqrt(n) = floor(√n)` (43_computed_functions.md R185). -/
def isqrt (n : Nat) : Nat := isqrtFrom n (Nat.log2 n / 2 + 1) 0

/-- The natural nearest to `√n`; never a tie. -/
def nearestSqrt (n : Nat) : Nat := if n ≤ isqrt n * isqrt n + isqrt n then isqrt n else isqrt n + 1

/-- The exponent of the last place of `√(m · 2^e)`, for `m > 0`. -/
def sqrtExponent (m : Nat) (e : Int) : Int := ((Nat.log2 m : Int) + e) / 2 - 52

/-- `fsqrt(a) = fl(√a)`, the IEEE square root (43_computed_functions.md R181). -/
def b64Sqrt (a : B64) : B64 :=
  match a with
  | .nan => .nan
  | .inf neg => if neg then .nan else .inf neg
  | .fin neg m e =>
    if m = 0 then .fin neg m e
    else if neg then .nan
    else finishRound false (nearestSqrt (m * 2 ^ (e - 2 * sqrtExponent m e).toNat)) (sqrtExponent m e)

/-- `a < b` on binary64 values: exact, and false where either is a NaN. The two zeros are equal. -/
def b64Lt (a b : B64) : Bool :=
  match a, b with
  | .fin s m e, .fin t n f => decide (scaledTo s m e (minExponent e f) < scaledTo t n f (minExponent e f))
  | .inf s, .inf t => s && !t
  | .inf s, .fin _ _ _ => s
  | .fin _ _ _, .inf t => !t
  | .nan, _ | .inf _, .nan | .fin _ _ _, .nan => false

/-- Is it a NaN? -/
def b64IsNan (x : B64) : Bool :=
  match x with
  | .nan => true
  | .inf _ | .fin _ _ _ => false

/-- `trunc` (00_scope.md R8): round toward zero to an integer. The core never truncates an infinity or a NaN, for which 0
stands here (log 9). -/
def b64Trunc (x : B64) : Int :=
  match x with
  | .nan | .inf _ => 0
  | .fin neg m e =>
    if neg then -((m * 2 ^ e.toNat / 2 ^ (-e).toNat : Nat) : Int) else ((m * 2 ^ e.toNat / 2 ^ (-e).toNat : Nat) : Int)

/-- The binary64 value of an integer scaled by `2^e`, where it is exact. -/
def b64OfScaled (v : Int) (e : Int) : B64 := flDyadic (decide (v < 0)) v.natAbs e

/-- The rational a finite binary64 value is (00_scope.md R8), for statements; 0 for an infinity and a NaN, which are no
number. -/
def b64Value (x : B64) : ℚ :=
  match x with
  | .nan | .inf _ => 0
  | .fin neg m e => if neg then -((m : ℚ) * 2 ^ e) else (m : ℚ) * 2 ^ e

/-- A significand and an exponent in the canonical form of a finite binary64 value (00_scope.md R8). -/
def Canonical (m : Nat) (e : Int) : Prop :=
  m < 2 ^ 53 ∧ -1074 ≤ e ∧ e ≤ 971 ∧ (2 ^ 52 ≤ m ∨ e = -1074)

end Sys2Proof.Machine
end

