-- ==== Sys2Proof/Machine/Arctan.lean ====
section
/-! DEFINITION. The correctly rounded binary64 arctangents `atan_cr` and `atan2_cr` (spec/43_computed_functions.md R181;
spec/92 D12). The angle is enclosed between two naturals in units of `2^-P` by interval arithmetic, and both ends are
rounded; where they round alike, that is the correctly rounded angle (log 10). -/

namespace Sys2Proof.Machine

/-- The ends of an enclosure, in units of `2^-P`. -/
structure Enclosure where
  lo : Nat
  hi : Nat
  deriving DecidableEq, Repr

/-- Encloses `2^P · H_k` for `u = (p/q)^2 ≤ 1`, where `H_k = 1/(2k+1) - u·H_(k+1)` is the alternating tail of the
arctangent's series from its term `k` on. The fuel is the number of terms; past it `0 ≤ H_k ≤ 1/(2k+1)`. -/
def seriesTail (p q P : Nat) : Nat → Nat → Enclosure
  | 0, k => ⟨0, 2 ^ P / (2 * k + 1) + 1⟩
  | n + 1, k =>
    let t := seriesTail p q P n (k + 1)
    ⟨2 ^ P / (2 * k + 1) - (p * p * t.hi / (q * q) + 1), 2 ^ P / (2 * k + 1) + 1 - p * p * t.lo / (q * q)⟩

/-- The number of terms summed: each gains at least two bits where `p/q ≤ 1/2`. -/
def seriesTerms : Nat := 132

/-- Encloses `2^P · arctan(p/q)` for `p/q ≤ 1/2`, as `p/q · H_0`. -/
def encloseSmall (p q P : Nat) : Enclosure :=
  let t := seriesTail p q P seriesTerms 0
  ⟨p * t.lo / q, p * t.hi / q + 1⟩

/-- Encloses the sum of two enclosed angles. -/
def Enclosure.plus (a b : Enclosure) : Enclosure := ⟨a.lo + b.lo, a.hi + b.hi⟩

/-- Encloses the difference of two enclosed angles whose difference is not negative. -/
def Enclosure.minus (a b : Enclosure) : Enclosure := ⟨a.lo - b.hi, a.hi - b.lo⟩

/-- Encloses `2^P · π/4`, as `arctan(1/2) + arctan(1/3)`. -/
def encloseEighthTurn (P : Nat) : Enclosure := (encloseSmall 1 2 P).plus (encloseSmall 1 3 P)

/-- Encloses `2^P · π/2`. -/
def encloseQuarterTurn (P : Nat) : Enclosure := (encloseEighthTurn P).plus (encloseEighthTurn P)

/-- Encloses `2^P · arctan(p/q)` for `p ≤ q`; past `1/2`, as `π/4 - arctan((q-p)/(q+p))`. -/
def encloseOctant (p q P : Nat) : Enclosure :=
  if 2 * p ≤ q then encloseSmall p q P else (encloseEighthTurn P).minus (encloseSmall (q - p) (q + p) P)

/-- Encloses `2^P` times the angle of the point `(q, p)` in the first quadrant; `q = 0` is the vertical direction. -/
def encloseQuadrant (p q P : Nat) : Enclosure :=
  if p ≤ q then encloseOctant p q P else (encloseQuarterTurn P).minus (encloseOctant q p P)

/-- Encloses `2^P` times the angle of the point `(q, p)`, or of `(-q, p)` where `obtuse`. -/
def encloseAngle (p q P : Nat) (obtuse : Bool) : Enclosure :=
  if obtuse then ((encloseQuarterTurn P).plus (encloseQuarterTurn P)).minus (encloseQuadrant p q P)
  else encloseQuadrant p q P

/-- The number of fraction bits carried: 256 below the leading bit of the ratio. -/
def anglePrecision (p q : Nat) : Nat := 256 + (Nat.log2 q - Nat.log2 p)

/-- The two ends of an angle's enclosure, rounded to binary64 with the given sign. -/
def roundedBelow (neg : Bool) (p q : Nat) (obtuse : Bool) : B64 :=
  flRatio neg (encloseAngle p q (anglePrecision p q) obtuse).lo (2 ^ anglePrecision p q)

/-- The upper end, rounded. -/
def roundedAbove (neg : Bool) (p q : Nat) (obtuse : Bool) : B64 :=
  flRatio neg (encloseAngle p q (anglePrecision p q) obtuse).hi (2 ^ anglePrecision p q)

/-- The rounding of an angle to binary64, with the given sign, from its enclosure. Where the two ends round to different
values, the free value `Config.arctanRoundsUp` says which of them it is (log 10). -/
def roundAngle (neg : Bool) (p q : Nat) (obtuse : Bool) : B64 :=
  if roundedBelow neg p q obtuse = roundedAbove neg p q obtuse then roundedBelow neg p q obtuse
  else if Config.arctanRoundsUp p q obtuse then roundedAbove neg p q obtuse
  else roundedBelow neg p q obtuse

/-- `atan_cr(a) = fl(atan(a))` (43_computed_functions.md R181). -/
def atanCr (a : B64) : B64 :=
  match a with
  | .nan => .nan
  | .inf neg => roundAngle neg 1 0 false
  | .fin neg m e => if m = 0 then a else roundAngle neg (m * 2 ^ e.toNat) (2 ^ (-e).toNat) false

/-- `atan2_cr(y, x) = fl(atan2(y, x))` with the quadrant rules of 43_computed_functions.md R181: the result is in
`(-π, π]`, on the axes too. Infinite operands, which never occur, follow the standard function (log 11). -/
def atan2Cr (y x : B64) : B64 :=
  match y, x with
  | .fin sy m e, .fin sx n f =>
    if m = 0 ∧ sx = false then .fin sy 0 (-1074)
    else roundAngle sy (m * 2 ^ (e - f).toNat) (n * 2 ^ (f - e).toNat) sx
  | .inf sy, .inf sx => roundAngle sy 1 1 sx
  | .inf sy, .fin _ _ _ => roundAngle sy 1 0 false
  | .fin sy _ _, .inf sx => if sx then roundAngle sy 0 1 true else .fin sy 0 (-1074)
  | .nan, _ | .inf _, .nan | .fin _ _ _, .nan => .nan

end Sys2Proof.Machine
end

