-- ==== Sys2Proof/Machine/Flags.lean ====
section
/-! DEFINITION. The error codes, the saturation sentinels and the tests that decide whether a command records a code
(spec/00_scope.md R4, spec/10_state.md R21, spec/40_fixed_point_core.md R107, R108, spec/42_table_functions.md R154). The
core has no flag but `ERR` (10_state.md R24). -/

namespace Sys2Proof.Machine

/-- `NONE`, code 0 (10_state.md R21). -/
def codeNone : BitVec 2 := 0#2

/-- `RANGE`, code 1 (10_state.md R21). -/
def codeRange : BitVec 2 := 1#2

/-- `DOMAIN`, code 2 (10_state.md R21). -/
def codeDomain : BitVec 2 := 2#2

/-- `SAT_POS`, the positive sentinel (00_scope.md R4). -/
def satPos : Word := 0x7FFFFFFF#32

/-- `SAT_NEG`, the negative sentinel, not the smallest word (00_scope.md R4). -/
def satNeg : Word := 0x80000001#32

/-- ADD's negative overflow, by sign inspection of operands and wrapped sum (40_fixed_point_core.md R107). -/
def addOverflowsDown (a b r : Word) : Bool := decide (0 ≤ r.toInt) && decide (a.toInt < 0) && decide (b.toInt < 0)

/-- ADD's positive overflow (40_fixed_point_core.md R107). -/
def addOverflowsUp (a b r : Word) : Bool := decide (r.toInt < 0) && decide (0 < a.toInt) && decide (0 < b.toInt)

/-- SUB's negative overflow: strict opposite signs and a wrapped difference that is not negative
(40_fixed_point_core.md R108). -/
def subOverflowsDown (a b r : Word) : Bool := decide (0 ≤ r.toInt) && decide (a.toInt < 0) && decide (0 < b.toInt)

/-- SUB's positive overflow. `A = 0` is not positive, so `0 - 0x80000000` wraps (40_fixed_point_core.md R108). -/
def subOverflowsUp (a b r : Word) : Bool := decide (r.toInt < 0) && decide (0 < a.toInt) && decide (b.toInt < 0)

/-- `AcosValid(x)`: fixed-point `[-1, 1]`, both ends included (42_table_functions.md R154). -/
def acosValid (x : Int) : Bool := decide (-65536 ≤ x) && decide (x ≤ 65536)

end Sys2Proof.Machine
end

