-- ==== Sys2Proof/Machine/Rom.lean ====
section
/-! DEFINITION. The images of the three ROMs, word for word as spec/20_memory.md R44 prints them (R41 to R43 say what each
entry means). -/

namespace Sys2Proof.Machine

/-- A read-only table of `n` words, entry 0 first (20_memory.md R40). -/
structure Rom (n : Nat) where
  words : List Word
  size : words.length = n
  deriving DecidableEq, Repr

/-- Word `i` of a ROM (20_memory.md R46). Every index of the type is in range. -/
def Rom.read {n : Nat} (r : Rom n) (i : Fin n) : Word := r.words[i.val]'(r.size.symm ▸ i.isLt)

/-- COS_ROM, entries 0x000 to 0x03F (20_memory.md R44). -/
def cosRows000 : List Word := [
  0x00010000#32, 0x0000FFFB#32, 0x0000FFEC#32, 0x0000FFD4#32, 0x0000FFB1#32, 0x0000FF85#32, 0x0000FF4E#32, 0x0000FF0E#32,
  0x0000FEC4#32, 0x0000FE71#32, 0x0000FE13#32, 0x0000FDAC#32, 0x0000FD3B#32, 0x0000FCC0#32, 0x0000FC3B#32, 0x0000FBAD#32,
  0x0000FB15#32, 0x0000FA73#32, 0x0000F9C8#32, 0x0000F913#32, 0x0000F854#32, 0x0000F78C#32, 0x0000F6BA#32, 0x0000F5DF#32,
  0x0000F4FA#32, 0x0000F40C#32, 0x0000F314#32, 0x0000F213#32, 0x0000F109#32, 0x0000EFF5#32, 0x0000EED9#32, 0x0000EDB3#32,
  0x0000EC83#32, 0x0000EB4B#32, 0x0000EA0A#32, 0x0000E8BF#32, 0x0000E76C#32, 0x0000E610#32, 0x0000E4AA#32, 0x0000E33C#32,
  0x0000E1C6#32, 0x0000E046#32, 0x0000DEBE#32, 0x0000DD2D#32, 0x0000DB94#32, 0x0000D9F2#32, 0x0000D848#32, 0x0000D696#32,
  0x0000D4DB#32, 0x0000D318#32, 0x0000D14D#32, 0x0000CF7A#32, 0x0000CD9F#32, 0x0000CBBC#32, 0x0000C9D1#32, 0x0000C7DE#32,
  0x0000C5E4#32, 0x0000C3E2#32, 0x0000C1D8#32, 0x0000BFC7#32, 0x0000BDAF#32, 0x0000BB8F#32, 0x0000B968#32, 0x0000B73A#32]

/-- COS_ROM, entries 0x040 to 0x07F (20_memory.md R44). -/
def cosRows040 : List Word := [
  0x0000B505#32, 0x0000B2C9#32, 0x0000B086#32, 0x0000AE3C#32, 0x0000ABEB#32, 0x0000A994#32, 0x0000A736#32, 0x0000A4D2#32,
  0x0000A268#32, 0x00009FF7#32, 0x00009D80#32, 0x00009B03#32, 0x00009880#32, 0x000095F7#32, 0x00009368#32, 0x000090D4#32,
  0x00008E3A#32, 0x00008B9A#32, 0x000088F6#32, 0x0000864C#32, 0x0000839C#32, 0x000080E8#32, 0x00007E2F#32, 0x00007B70#32,
  0x000078AD#32, 0x000075E6#32, 0x0000731A#32, 0x00007049#32, 0x00006D74#32, 0x00006A9B#32, 0x000067BE#32, 0x000064DD#32,
  0x000061F8#32, 0x00005F0F#32, 0x00005C22#32, 0x00005932#32, 0x0000563E#32, 0x00005348#32, 0x0000504D#32, 0x00004D50#32,
  0x00004A50#32, 0x0000474D#32, 0x00004447#32, 0x0000413F#32, 0x00003E34#32, 0x00003B27#32, 0x00003817#32, 0x00003505#32,
  0x000031F1#32, 0x00002EDC#32, 0x00002BC4#32, 0x000028AB#32, 0x00002590#32, 0x00002274#32, 0x00001F56#32, 0x00001C38#32,
  0x00001918#32, 0x000015F7#32, 0x000012D5#32, 0x00000FB3#32, 0x00000C90#32, 0x0000096C#32, 0x00000648#32, 0x00000324#32]

/-- COS_ROM, entries 0x080 to 0x0BF (20_memory.md R44). -/
def cosRows080 : List Word := [
  0x00000000#32, 0xFFFFFCDC#32, 0xFFFFF9B8#32, 0xFFFFF694#32, 0xFFFFF370#32, 0xFFFFF04D#32, 0xFFFFED2B#32, 0xFFFFEA09#32,
  0xFFFFE6E8#32, 0xFFFFE3C8#32, 0xFFFFE0AA#32, 0xFFFFDD8C#32, 0xFFFFDA70#32, 0xFFFFD755#32, 0xFFFFD43C#32, 0xFFFFD124#32,
  0xFFFFCE0F#32, 0xFFFFCAFB#32, 0xFFFFC7E9#32, 0xFFFFC4D9#32, 0xFFFFC1CC#32, 0xFFFFBEC1#32, 0xFFFFBBB9#32, 0xFFFFB8B3#32,
  0xFFFFB5B0#32, 0xFFFFB2B0#32, 0xFFFFAFB3#32, 0xFFFFACB8#32, 0xFFFFA9C2#32, 0xFFFFA6CE#32, 0xFFFFA3DE#32, 0xFFFFA0F1#32,
  0xFFFF9E08#32, 0xFFFF9B23#32, 0xFFFF9842#32, 0xFFFF9565#32, 0xFFFF928C#32, 0xFFFF8FB7#32, 0xFFFF8CE6#32, 0xFFFF8A1A#32,
  0xFFFF8753#32, 0xFFFF8490#32, 0xFFFF81D1#32, 0xFFFF7F18#32, 0xFFFF7C64#32, 0xFFFF79B4#32, 0xFFFF770A#32, 0xFFFF7466#32,
  0xFFFF71C6#32, 0xFFFF6F2C#32, 0xFFFF6C98#32, 0xFFFF6A09#32, 0xFFFF6780#32, 0xFFFF64FD#32, 0xFFFF6280#32, 0xFFFF6009#32,
  0xFFFF5D98#32, 0xFFFF5B2E#32, 0xFFFF58CA#32, 0xFFFF566C#32, 0xFFFF5415#32, 0xFFFF51C4#32, 0xFFFF4F7A#32, 0xFFFF4D37#32]

/-- COS_ROM, entries 0x0C0 to 0x0FF (20_memory.md R44). -/
def cosRows0C0 : List Word := [
  0xFFFF4AFB#32, 0xFFFF48C6#32, 0xFFFF4698#32, 0xFFFF4471#32, 0xFFFF4251#32, 0xFFFF4039#32, 0xFFFF3E28#32, 0xFFFF3C1E#32,
  0xFFFF3A1C#32, 0xFFFF3822#32, 0xFFFF362F#32, 0xFFFF3444#32, 0xFFFF3261#32, 0xFFFF3086#32, 0xFFFF2EB3#32, 0xFFFF2CE8#32,
  0xFFFF2B25#32, 0xFFFF296A#32, 0xFFFF27B8#32, 0xFFFF260E#32, 0xFFFF246C#32, 0xFFFF22D3#32, 0xFFFF2142#32, 0xFFFF1FBA#32,
  0xFFFF1E3A#32, 0xFFFF1CC4#32, 0xFFFF1B56#32, 0xFFFF19F0#32, 0xFFFF1894#32, 0xFFFF1741#32, 0xFFFF15F6#32, 0xFFFF14B5#32,
  0xFFFF137D#32, 0xFFFF124D#32, 0xFFFF1127#32, 0xFFFF100B#32, 0xFFFF0EF7#32, 0xFFFF0DED#32, 0xFFFF0CEC#32, 0xFFFF0BF4#32,
  0xFFFF0B06#32, 0xFFFF0A21#32, 0xFFFF0946#32, 0xFFFF0874#32, 0xFFFF07AC#32, 0xFFFF06ED#32, 0xFFFF0638#32, 0xFFFF058D#32,
  0xFFFF04EB#32, 0xFFFF0453#32, 0xFFFF03C5#32, 0xFFFF0340#32, 0xFFFF02C5#32, 0xFFFF0254#32, 0xFFFF01ED#32, 0xFFFF018F#32,
  0xFFFF013C#32, 0xFFFF00F2#32, 0xFFFF00B2#32, 0xFFFF007B#32, 0xFFFF004F#32, 0xFFFF002C#32, 0xFFFF0014#32, 0xFFFF0005#32]

/-- COS_ROM, entries 0x100 to 0x13F (20_memory.md R44). -/
def cosRows100 : List Word := [
  0xFFFF0000#32, 0xFFFF0005#32, 0xFFFF0014#32, 0xFFFF002C#32, 0xFFFF004F#32, 0xFFFF007B#32, 0xFFFF00B2#32, 0xFFFF00F2#32,
  0xFFFF013C#32, 0xFFFF018F#32, 0xFFFF01ED#32, 0xFFFF0254#32, 0xFFFF02C5#32, 0xFFFF0340#32, 0xFFFF03C5#32, 0xFFFF0453#32,
  0xFFFF04EB#32, 0xFFFF058D#32, 0xFFFF0638#32, 0xFFFF06ED#32, 0xFFFF07AC#32, 0xFFFF0874#32, 0xFFFF0946#32, 0xFFFF0A21#32,
  0xFFFF0B06#32, 0xFFFF0BF4#32, 0xFFFF0CEC#32, 0xFFFF0DED#32, 0xFFFF0EF7#32, 0xFFFF100B#32, 0xFFFF1127#32, 0xFFFF124D#32,
  0xFFFF137D#32, 0xFFFF14B5#32, 0xFFFF15F6#32, 0xFFFF1741#32, 0xFFFF1894#32, 0xFFFF19F0#32, 0xFFFF1B56#32, 0xFFFF1CC4#32,
  0xFFFF1E3A#32, 0xFFFF1FBA#32, 0xFFFF2142#32, 0xFFFF22D3#32, 0xFFFF246C#32, 0xFFFF260E#32, 0xFFFF27B8#32, 0xFFFF296A#32,
  0xFFFF2B25#32, 0xFFFF2CE8#32, 0xFFFF2EB3#32, 0xFFFF3086#32, 0xFFFF3261#32, 0xFFFF3444#32, 0xFFFF362F#32, 0xFFFF3822#32,
  0xFFFF3A1C#32, 0xFFFF3C1E#32, 0xFFFF3E28#32, 0xFFFF4039#32, 0xFFFF4251#32, 0xFFFF4471#32, 0xFFFF4698#32, 0xFFFF48C6#32]

/-- COS_ROM, entries 0x140 to 0x17F (20_memory.md R44). -/
def cosRows140 : List Word := [
  0xFFFF4AFB#32, 0xFFFF4D37#32, 0xFFFF4F7A#32, 0xFFFF51C4#32, 0xFFFF5415#32, 0xFFFF566C#32, 0xFFFF58CA#32, 0xFFFF5B2E#32,
  0xFFFF5D98#32, 0xFFFF6009#32, 0xFFFF6280#32, 0xFFFF64FD#32, 0xFFFF6780#32, 0xFFFF6A09#32, 0xFFFF6C98#32, 0xFFFF6F2C#32,
  0xFFFF71C6#32, 0xFFFF7466#32, 0xFFFF770A#32, 0xFFFF79B4#32, 0xFFFF7C64#32, 0xFFFF7F18#32, 0xFFFF81D1#32, 0xFFFF8490#32,
  0xFFFF8753#32, 0xFFFF8A1A#32, 0xFFFF8CE6#32, 0xFFFF8FB7#32, 0xFFFF928C#32, 0xFFFF9565#32, 0xFFFF9842#32, 0xFFFF9B23#32,
  0xFFFF9E08#32, 0xFFFFA0F1#32, 0xFFFFA3DE#32, 0xFFFFA6CE#32, 0xFFFFA9C2#32, 0xFFFFACB8#32, 0xFFFFAFB3#32, 0xFFFFB2B0#32,
  0xFFFFB5B0#32, 0xFFFFB8B3#32, 0xFFFFBBB9#32, 0xFFFFBEC1#32, 0xFFFFC1CC#32, 0xFFFFC4D9#32, 0xFFFFC7E9#32, 0xFFFFCAFB#32,
  0xFFFFCE0F#32, 0xFFFFD124#32, 0xFFFFD43C#32, 0xFFFFD755#32, 0xFFFFDA70#32, 0xFFFFDD8C#32, 0xFFFFE0AA#32, 0xFFFFE3C8#32,
  0xFFFFE6E8#32, 0xFFFFEA09#32, 0xFFFFED2B#32, 0xFFFFF04D#32, 0xFFFFF370#32, 0xFFFFF694#32, 0xFFFFF9B8#32, 0xFFFFFCDC#32]

/-- COS_ROM, entries 0x180 to 0x1BF (20_memory.md R44). -/
def cosRows180 : List Word := [
  0x00000000#32, 0x00000324#32, 0x00000648#32, 0x0000096C#32, 0x00000C90#32, 0x00000FB3#32, 0x000012D5#32, 0x000015F7#32,
  0x00001918#32, 0x00001C38#32, 0x00001F56#32, 0x00002274#32, 0x00002590#32, 0x000028AB#32, 0x00002BC4#32, 0x00002EDC#32,
  0x000031F1#32, 0x00003505#32, 0x00003817#32, 0x00003B27#32, 0x00003E34#32, 0x0000413F#32, 0x00004447#32, 0x0000474D#32,
  0x00004A50#32, 0x00004D50#32, 0x0000504D#32, 0x00005348#32, 0x0000563E#32, 0x00005932#32, 0x00005C22#32, 0x00005F0F#32,
  0x000061F8#32, 0x000064DD#32, 0x000067BE#32, 0x00006A9B#32, 0x00006D74#32, 0x00007049#32, 0x0000731A#32, 0x000075E6#32,
  0x000078AD#32, 0x00007B70#32, 0x00007E2F#32, 0x000080E8#32, 0x0000839C#32, 0x0000864C#32, 0x000088F6#32, 0x00008B9A#32,
  0x00008E3A#32, 0x000090D4#32, 0x00009368#32, 0x000095F7#32, 0x00009880#32, 0x00009B03#32, 0x00009D80#32, 0x00009FF7#32,
  0x0000A268#32, 0x0000A4D2#32, 0x0000A736#32, 0x0000A994#32, 0x0000ABEB#32, 0x0000AE3C#32, 0x0000B086#32, 0x0000B2C9#32]

/-- COS_ROM, entries 0x1C0 to 0x1FF (20_memory.md R44). -/
def cosRows1C0 : List Word := [
  0x0000B505#32, 0x0000B73A#32, 0x0000B968#32, 0x0000BB8F#32, 0x0000BDAF#32, 0x0000BFC7#32, 0x0000C1D8#32, 0x0000C3E2#32,
  0x0000C5E4#32, 0x0000C7DE#32, 0x0000C9D1#32, 0x0000CBBC#32, 0x0000CD9F#32, 0x0000CF7A#32, 0x0000D14D#32, 0x0000D318#32,
  0x0000D4DB#32, 0x0000D696#32, 0x0000D848#32, 0x0000D9F2#32, 0x0000DB94#32, 0x0000DD2D#32, 0x0000DEBE#32, 0x0000E046#32,
  0x0000E1C6#32, 0x0000E33C#32, 0x0000E4AA#32, 0x0000E610#32, 0x0000E76C#32, 0x0000E8BF#32, 0x0000EA0A#32, 0x0000EB4B#32,
  0x0000EC83#32, 0x0000EDB3#32, 0x0000EED9#32, 0x0000EFF5#32, 0x0000F109#32, 0x0000F213#32, 0x0000F314#32, 0x0000F40C#32,
  0x0000F4FA#32, 0x0000F5DF#32, 0x0000F6BA#32, 0x0000F78C#32, 0x0000F854#32, 0x0000F913#32, 0x0000F9C8#32, 0x0000FA73#32,
  0x0000FB15#32, 0x0000FBAD#32, 0x0000FC3B#32, 0x0000FCC0#32, 0x0000FD3B#32, 0x0000FDAC#32, 0x0000FE13#32, 0x0000FE71#32,
  0x0000FEC4#32, 0x0000FF0E#32, 0x0000FF4E#32, 0x0000FF85#32, 0x0000FFB1#32, 0x0000FFD4#32, 0x0000FFEC#32, 0x0000FFFB#32]

/-- COS_ROM as a list, entry 0 first. -/
def cosList : List Word :=
  cosRows000 ++ cosRows040 ++ cosRows080 ++ cosRows0C0 ++ cosRows100
  ++ cosRows140 ++ cosRows180 ++ cosRows1C0

/-- The image of COS_ROM: 512 words (20_memory.md R40, R44). -/
def cosImage : Rom 512 := ⟨cosList, by decide +kernel⟩

/-- TAN_ROM, entries 0x000 to 0x03F (20_memory.md R44). -/
def tanRows000 : List Word := [
  0x00000000#32, 0x00000324#32, 0x00000649#32, 0x0000096E#32, 0x00000C94#32, 0x00000FBA#32, 0x000012E2#32, 0x0000160C#32,
  0x00001937#32, 0x00001C64#32, 0x00001F93#32, 0x000022C5#32, 0x000025F9#32, 0x00002931#32, 0x00002C6C#32, 0x00002FAA#32,
  0x000032EC#32, 0x00003632#32, 0x0000397D#32, 0x00003CCC#32, 0x00004020#32, 0x00004379#32, 0x000046D8#32, 0x00004A3D#32,
  0x00004DA8#32, 0x0000511A#32, 0x00005492#32, 0x00005812#32, 0x00005B99#32, 0x00005F28#32, 0x000062C0#32, 0x00006660#32,
  0x00006A0A#32, 0x00006DBD#32, 0x0000717A#32, 0x00007542#32, 0x00007914#32, 0x00007CF2#32, 0x000080DC#32, 0x000084D2#32,
  0x000088D6#32, 0x00008CE7#32, 0x00009106#32, 0x00009534#32, 0x00009971#32, 0x00009DBE#32, 0x0000A21C#32, 0x0000A68C#32,
  0x0000AB0E#32, 0x0000AFA3#32, 0x0000B44C#32, 0x0000B909#32, 0x0000BDDD#32, 0x0000C2C7#32, 0x0000C7C9#32, 0x0000CCE3#32,
  0x0000D218#32, 0x0000D768#32, 0x0000DCD4#32, 0x0000E25E#32, 0x0000E806#32, 0x0000EDD0#32, 0x0000F3BB#32, 0x0000F9CB#32]

/-- TAN_ROM, entries 0x040 to 0x07F (20_memory.md R44). -/
def tanRows040 : List Word := [
  0x00010000#32, 0x0001065D#32, 0x00010CE3#32, 0x00011394#32, 0x00011A74#32, 0x00012184#32, 0x000128C6#32, 0x0001303F#32,
  0x000137F0#32, 0x00013FDD#32, 0x00014809#32, 0x00015077#32, 0x0001592D#32, 0x0001622E#32, 0x00016B7E#32, 0x00017523#32,
  0x00017F22#32, 0x00018980#32, 0x00019445#32, 0x00019F76#32, 0x0001AB1C#32, 0x0001B73F#32, 0x0001C3E7#32, 0x0001D11F#32,
  0x0001DEF1#32, 0x0001ED6A#32, 0x0001FC96#32, 0x00020C84#32, 0x00021D44#32, 0x00022EE9#32, 0x00024187#32, 0x00025534#32,
  0x00026A0A#32, 0x00028026#32, 0x000297A8#32, 0x0002B0B5#32, 0x0002CB79#32, 0x0002E823#32, 0x000306EC#32, 0x00032816#32,
  0x00034BEB#32, 0x000372C6#32, 0x00039D11#32, 0x0003CB48#32, 0x0003FE02#32, 0x000435F7#32, 0x00047405#32, 0x0004B940#32,
  0x00050700#32, 0x00055EF9#32, 0x0005C35D#32, 0x00063709#32, 0x0006BDD0#32, 0x00075CE6#32, 0x00081B98#32, 0x0009046E#32,
  0x000A2736#32, 0x000B9CC6#32, 0x000D8E82#32, 0x001046EA#32, 0x00145B00#32, 0x001B2672#32, 0x0028BC49#32, 0x00517BB6#32]

/-- TAN_ROM, entries 0x080 to 0x0BF (20_memory.md R44). -/
def tanRows080 : List Word := [
  0x7FFFFFFF#32, 0xFFAE844A#32, 0xFFD743B7#32, 0xFFE4D98E#32, 0xFFEBA500#32, 0xFFEFB916#32, 0xFFF2717E#32, 0xFFF4633A#32,
  0xFFF5D8CA#32, 0xFFF6FB92#32, 0xFFF7E468#32, 0xFFF8A31A#32, 0xFFF94230#32, 0xFFF9C8F7#32, 0xFFFA3CA3#32, 0xFFFAA107#32,
  0xFFFAF900#32, 0xFFFB46C0#32, 0xFFFB8BFB#32, 0xFFFBCA09#32, 0xFFFC01FE#32, 0xFFFC34B8#32, 0xFFFC62EF#32, 0xFFFC8D3A#32,
  0xFFFCB415#32, 0xFFFCD7EA#32, 0xFFFCF914#32, 0xFFFD17DD#32, 0xFFFD3487#32, 0xFFFD4F4B#32, 0xFFFD6858#32, 0xFFFD7FDA#32,
  0xFFFD95F6#32, 0xFFFDAACC#32, 0xFFFDBE79#32, 0xFFFDD117#32, 0xFFFDE2BC#32, 0xFFFDF37C#32, 0xFFFE036A#32, 0xFFFE1296#32,
  0xFFFE210F#32, 0xFFFE2EE1#32, 0xFFFE3C19#32, 0xFFFE48C1#32, 0xFFFE54E4#32, 0xFFFE608A#32, 0xFFFE6BBB#32, 0xFFFE7680#32,
  0xFFFE80DE#32, 0xFFFE8ADD#32, 0xFFFE9482#32, 0xFFFE9DD2#32, 0xFFFEA6D3#32, 0xFFFEAF89#32, 0xFFFEB7F7#32, 0xFFFEC023#32,
  0xFFFEC810#32, 0xFFFECFC1#32, 0xFFFED73A#32, 0xFFFEDE7C#32, 0xFFFEE58C#32, 0xFFFEEC6C#32, 0xFFFEF31D#32, 0xFFFEF9A3#32]

/-- TAN_ROM, entries 0x0C0 to 0x0FF (20_memory.md R44). -/
def tanRows0C0 : List Word := [
  0xFFFF0000#32, 0xFFFF0635#32, 0xFFFF0C45#32, 0xFFFF1230#32, 0xFFFF17FA#32, 0xFFFF1DA2#32, 0xFFFF232C#32, 0xFFFF2898#32,
  0xFFFF2DE8#32, 0xFFFF331D#32, 0xFFFF3837#32, 0xFFFF3D39#32, 0xFFFF4223#32, 0xFFFF46F7#32, 0xFFFF4BB4#32, 0xFFFF505D#32,
  0xFFFF54F2#32, 0xFFFF5974#32, 0xFFFF5DE4#32, 0xFFFF6242#32, 0xFFFF668F#32, 0xFFFF6ACC#32, 0xFFFF6EFA#32, 0xFFFF7319#32,
  0xFFFF772A#32, 0xFFFF7B2E#32, 0xFFFF7F24#32, 0xFFFF830E#32, 0xFFFF86EC#32, 0xFFFF8ABE#32, 0xFFFF8E86#32, 0xFFFF9243#32,
  0xFFFF95F6#32, 0xFFFF99A0#32, 0xFFFF9D40#32, 0xFFFFA0D8#32, 0xFFFFA467#32, 0xFFFFA7EE#32, 0xFFFFAB6E#32, 0xFFFFAEE6#32,
  0xFFFFB258#32, 0xFFFFB5C3#32, 0xFFFFB928#32, 0xFFFFBC87#32, 0xFFFFBFE0#32, 0xFFFFC334#32, 0xFFFFC683#32, 0xFFFFC9CE#32,
  0xFFFFCD14#32, 0xFFFFD056#32, 0xFFFFD394#32, 0xFFFFD6CF#32, 0xFFFFDA07#32, 0xFFFFDD3B#32, 0xFFFFE06D#32, 0xFFFFE39C#32,
  0xFFFFE6C9#32, 0xFFFFE9F4#32, 0xFFFFED1E#32, 0xFFFFF046#32, 0xFFFFF36C#32, 0xFFFFF692#32, 0xFFFFF9B7#32, 0xFFFFFCDC#32]

/-- TAN_ROM as a list, entry 0 first. -/
def tanList : List Word :=
  tanRows000 ++ tanRows040 ++ tanRows080 ++ tanRows0C0

/-- The image of TAN_ROM: 256 words (20_memory.md R40, R44). -/
def tanImage : Rom 256 := ⟨tanList, by decide +kernel⟩

/-- ACOS_ROM, entries 0x000 to 0x03F (20_memory.md R44). -/
def acosRows000 : List Word := [
  0x00800000#32, 0x007C65C7#32, 0x007AE75A#32, 0x0079C19E#32, 0x0078C9BE#32, 0x0077EF25#32, 0x00772953#32, 0x0076733A#32,
  0x0075C991#32, 0x00752A10#32, 0x0074930C#32, 0x00740345#32, 0x007379C1#32, 0x0072F5BA#32, 0x0072768F#32, 0x0071FBBC#32,
  0x007184D3#32, 0x00711174#32, 0x0070A152#32, 0x00703426#32, 0x006FC9B5#32, 0x006F61C9#32, 0x006EFC36#32, 0x006E98D1#32,
  0x006E3777#32, 0x006DD805#32, 0x006D7A5E#32, 0x006D1E68#32, 0x006CC40B#32, 0x006C6B2F#32, 0x006C13C1#32, 0x006BBDAF#32,
  0x006B68E6#32, 0x006B1558#32, 0x006AC2F5#32, 0x006A71B1#32, 0x006A217E#32, 0x0069D251#32, 0x00698420#32, 0x006936DF#32,
  0x0068EA85#32, 0x00689F0A#32, 0x00685465#32, 0x00680A8D#32, 0x0067C17D#32, 0x0067792C#32, 0x00673194#32, 0x0066EAAF#32,
  0x0066A476#32, 0x00665EE5#32, 0x006619F5#32, 0x0065D5A2#32, 0x006591E7#32, 0x00654EBF#32, 0x00650C26#32, 0x0064CA18#32,
  0x00648890#32, 0x0064478C#32, 0x00640706#32, 0x0063C6FC#32, 0x0063876B#32, 0x0063484F#32, 0x006309A5#32, 0x0062CB6A#32]

/-- ACOS_ROM, entries 0x040 to 0x07F (20_memory.md R44). -/
def acosRows040 : List Word := [
  0x00628D9C#32, 0x00625037#32, 0x00621339#32, 0x0061D69F#32, 0x00619A68#32, 0x00615E90#32, 0x00612316#32, 0x0060E7F7#32,
  0x0060AD31#32, 0x006072C3#32, 0x006038A9#32, 0x005FFEE3#32, 0x005FC56E#32, 0x005F8C49#32, 0x005F5372#32, 0x005F1AE7#32,
  0x005EE2A7#32, 0x005EAAB0#32, 0x005E7301#32, 0x005E3B98#32, 0x005E0473#32, 0x005DCD92#32, 0x005D96F3#32, 0x005D6095#32,
  0x005D2A76#32, 0x005CF496#32, 0x005CBEF2#32, 0x005C898B#32, 0x005C545E#32, 0x005C1F6B#32, 0x005BEAB0#32, 0x005BB62D#32,
  0x005B81E1#32, 0x005B4DCA#32, 0x005B19E7#32, 0x005AE638#32, 0x005AB2BC#32, 0x005A7F72#32, 0x005A4C59#32, 0x005A1970#32,
  0x0059E6B6#32, 0x0059B42A#32, 0x005981CC#32, 0x00594F9B#32, 0x00591D96#32, 0x0058EBBD#32, 0x0058BA0E#32, 0x00588889#32,
  0x0058572D#32, 0x005825FA#32, 0x0057F4EE#32, 0x0057C40A#32, 0x0057934D#32, 0x005762B5#32, 0x00573243#32, 0x005701F5#32,
  0x0056D1CC#32, 0x0056A1C6#32, 0x005671E4#32, 0x00564224#32, 0x00561285#32, 0x0055E309#32, 0x0055B3AD#32, 0x00558471#32]

/-- ACOS_ROM, entries 0x080 to 0x0BF (20_memory.md R44). -/
def acosRows080 : List Word := [
  0x00555555#32, 0x00552659#32, 0x0054F77B#32, 0x0054C8BC#32, 0x00549A1B#32, 0x00546B98#32, 0x00543D31#32, 0x00540EE7#32,
  0x0053E0B9#32, 0x0053B2A7#32, 0x005384B0#32, 0x005356D4#32, 0x00532912#32, 0x0052FB6B#32, 0x0052CDDD#32, 0x0052A068#32,
  0x0052730C#32, 0x005245C9#32, 0x0052189E#32, 0x0051EB8B#32, 0x0051BE8F#32, 0x005191AA#32, 0x005164DC#32, 0x00513825#32,
  0x00510B83#32, 0x0050DEF7#32, 0x0050B280#32, 0x0050861F#32, 0x005059D2#32, 0x00502D99#32, 0x00500175#32, 0x004FD564#32,
  0x004FA967#32, 0x004F7D7D#32, 0x004F51A6#32, 0x004F25E2#32, 0x004EFA30#32, 0x004ECE90#32, 0x004EA301#32, 0x004E7784#32,
  0x004E4C19#32, 0x004E20BE#32, 0x004DF574#32, 0x004DCA3A#32, 0x004D9F10#32, 0x004D73F6#32, 0x004D48EC#32, 0x004D1DF1#32,
  0x004CF305#32, 0x004CC829#32, 0x004C9D5A#32, 0x004C729A#32, 0x004C47E9#32, 0x004C1D45#32, 0x004BF2AE#32, 0x004BC826#32,
  0x004B9DAA#32, 0x004B733B#32, 0x004B48D9#32, 0x004B1E84#32, 0x004AF43B#32, 0x004AC9FE#32, 0x004A9FCD#32, 0x004A75A7#32]

/-- ACOS_ROM, entries 0x0C0 to 0x0FF (20_memory.md R44). -/
def acosRows0C0 : List Word := [
  0x004A4B8D#32, 0x004A217E#32, 0x0049F77A#32, 0x0049CD81#32, 0x0049A393#32, 0x004979AF#32, 0x00494FD5#32, 0x00492605#32,
  0x0048FC3F#32, 0x0048D282#32, 0x0048A8CF#32, 0x00487F25#32, 0x00485584#32, 0x00482BEC#32, 0x0048025D#32, 0x0047D8D6#32,
  0x0047AF57#32, 0x004785E0#32, 0x00475C72#32, 0x0047330A#32, 0x004709AB#32, 0x0046E052#32, 0x0046B701#32, 0x00468DB7#32,
  0x00466474#32, 0x00463B37#32, 0x00461201#32, 0x0045E8D0#32, 0x0045BFA6#32, 0x00459682#32, 0x00456D64#32, 0x0045444B#32,
  0x00451B37#32, 0x0044F229#32, 0x0044C920#32, 0x0044A01C#32, 0x0044771C#32, 0x00444E21#32, 0x0044252A#32, 0x0043FC38#32,
  0x0043D349#32, 0x0043AA5F#32, 0x00438178#32, 0x00435894#32, 0x00432FB4#32, 0x004306D8#32, 0x0042DDFE#32, 0x0042B527#32,
  0x00428C53#32, 0x00426381#32, 0x00423AB2#32, 0x004211E5#32, 0x0041E91A#32, 0x0041C051#32, 0x0041978A#32, 0x00416EC5#32,
  0x00414601#32, 0x00411D3E#32, 0x0040F47C#32, 0x0040CBBB#32, 0x0040A2FB#32, 0x00407A3C#32, 0x0040517D#32, 0x004028BE#32]

/-- ACOS_ROM, entries 0x100 to 0x13F (20_memory.md R44). -/
def acosRows100 : List Word := [
  0x00400000#32, 0x003FD742#32, 0x003FAE83#32, 0x003F85C4#32, 0x003F5D05#32, 0x003F3445#32, 0x003F0B84#32, 0x003EE2C2#32,
  0x003EB9FF#32, 0x003E913B#32, 0x003E6876#32, 0x003E3FAF#32, 0x003E16E6#32, 0x003DEE1B#32, 0x003DC54E#32, 0x003D9C7F#32,
  0x003D73AD#32, 0x003D4AD9#32, 0x003D2202#32, 0x003CF928#32, 0x003CD04C#32, 0x003CA76C#32, 0x003C7E88#32, 0x003C55A1#32,
  0x003C2CB7#32, 0x003C03C8#32, 0x003BDAD6#32, 0x003BB1DF#32, 0x003B88E4#32, 0x003B5FE4#32, 0x003B36E0#32, 0x003B0DD7#32,
  0x003AE4C9#32, 0x003ABBB5#32, 0x003A929C#32, 0x003A697E#32, 0x003A405A#32, 0x003A1730#32, 0x0039EDFF#32, 0x0039C4C9#32,
  0x00399B8C#32, 0x00397249#32, 0x003948FF#32, 0x00391FAE#32, 0x0038F655#32, 0x0038CCF6#32, 0x0038A38E#32, 0x00387A20#32,
  0x003850A9#32, 0x0038272A#32, 0x0037FDA3#32, 0x0037D414#32, 0x0037AA7C#32, 0x003780DB#32, 0x00375731#32, 0x00372D7E#32,
  0x003703C1#32, 0x0036D9FB#32, 0x0036B02B#32, 0x00368651#32, 0x00365C6D#32, 0x0036327F#32, 0x00360886#32, 0x0035DE82#32]

/-- ACOS_ROM, entries 0x140 to 0x17F (20_memory.md R44). -/
def acosRows140 : List Word := [
  0x0035B473#32, 0x00358A59#32, 0x00356033#32, 0x00353602#32, 0x00350BC5#32, 0x0034E17C#32, 0x0034B727#32, 0x00348CC5#32,
  0x00346256#32, 0x003437DA#32, 0x00340D52#32, 0x0033E2BB#32, 0x0033B817#32, 0x00338D66#32, 0x003362A6#32, 0x003337D7#32,
  0x00330CFB#32, 0x0032E20F#32, 0x0032B714#32, 0x00328C0A#32, 0x003260F0#32, 0x003235C6#32, 0x00320A8C#32, 0x0031DF42#32,
  0x0031B3E7#32, 0x0031887C#32, 0x00315CFF#32, 0x00313170#32, 0x003105D0#32, 0x0030DA1E#32, 0x0030AE5A#32, 0x00308283#32,
  0x00305699#32, 0x00302A9C#32, 0x002FFE8B#32, 0x002FD267#32, 0x002FA62E#32, 0x002F79E1#32, 0x002F4D80#32, 0x002F2109#32,
  0x002EF47D#32, 0x002EC7DB#32, 0x002E9B24#32, 0x002E6E56#32, 0x002E4171#32, 0x002E1475#32, 0x002DE762#32, 0x002DBA37#32,
  0x002D8CF4#32, 0x002D5F98#32, 0x002D3223#32, 0x002D0495#32, 0x002CD6EE#32, 0x002CA92C#32, 0x002C7B50#32, 0x002C4D59#32,
  0x002C1F47#32, 0x002BF119#32, 0x002BC2CF#32, 0x002B9468#32, 0x002B65E5#32, 0x002B3744#32, 0x002B0885#32, 0x002AD9A7#32]

/-- ACOS_ROM, entries 0x180 to 0x1BF (20_memory.md R44). -/
def acosRows180 : List Word := [
  0x002AAAAB#32, 0x002A7B8F#32, 0x002A4C53#32, 0x002A1CF7#32, 0x0029ED7B#32, 0x0029BDDC#32, 0x00298E1C#32, 0x00295E3A#32,
  0x00292E34#32, 0x0028FE0B#32, 0x0028CDBD#32, 0x00289D4B#32, 0x00286CB3#32, 0x00283BF6#32, 0x00280B12#32, 0x0027DA06#32,
  0x0027A8D3#32, 0x00277777#32, 0x002745F2#32, 0x00271443#32, 0x0026E26A#32, 0x0026B065#32, 0x00267E34#32, 0x00264BD6#32,
  0x0026194A#32, 0x0025E690#32, 0x0025B3A7#32, 0x0025808E#32, 0x00254D44#32, 0x002519C8#32, 0x0024E619#32, 0x0024B236#32,
  0x00247E1F#32, 0x002449D3#32, 0x00241550#32, 0x0023E095#32, 0x0023ABA2#32, 0x00237675#32, 0x0023410E#32, 0x00230B6A#32,
  0x0022D58A#32, 0x00229F6B#32, 0x0022690D#32, 0x0022326E#32, 0x0021FB8D#32, 0x0021C468#32, 0x00218CFF#32, 0x00215550#32,
  0x00211D59#32, 0x0020E519#32, 0x0020AC8E#32, 0x002073B7#32, 0x00203A92#32, 0x0020011D#32, 0x001FC757#32, 0x001F8D3D#32,
  0x001F52CF#32, 0x001F1809#32, 0x001EDCEA#32, 0x001EA170#32, 0x001E6598#32, 0x001E2961#32, 0x001DECC7#32, 0x001DAFC9#32]

/-- ACOS_ROM, entries 0x1C0 to 0x1FF (20_memory.md R44). -/
def acosRows1C0 : List Word := [
  0x001D7264#32, 0x001D3496#32, 0x001CF65B#32, 0x001CB7B1#32, 0x001C7895#32, 0x001C3904#32, 0x001BF8FA#32, 0x001BB874#32,
  0x001B7770#32, 0x001B35E8#32, 0x001AF3DA#32, 0x001AB141#32, 0x001A6E19#32, 0x001A2A5E#32, 0x0019E60B#32, 0x0019A11B#32,
  0x00195B8A#32, 0x00191551#32, 0x0018CE6C#32, 0x001886D4#32, 0x00183E83#32, 0x0017F573#32, 0x0017AB9B#32, 0x001760F6#32,
  0x0017157B#32, 0x0016C921#32, 0x00167BE0#32, 0x00162DAF#32, 0x0015DE82#32, 0x00158E4F#32, 0x00153D0B#32, 0x0014EAA8#32,
  0x0014971A#32, 0x00144251#32, 0x0013EC3F#32, 0x001394D1#32, 0x00133BF5#32, 0x0012E198#32, 0x001285A2#32, 0x001227FB#32,
  0x0011C889#32, 0x0011672F#32, 0x001103CA#32, 0x00109E37#32, 0x0010364B#32, 0x000FCBDA#32, 0x000F5EAE#32, 0x000EEE8C#32,
  0x000E7B2D#32, 0x000E0444#32, 0x000D8971#32, 0x000D0A46#32, 0x000C863F#32, 0x000BFCBB#32, 0x000B6CF4#32, 0x000AD5F0#32,
  0x000A366F#32, 0x00098CC6#32, 0x0008D6AD#32, 0x000810DB#32, 0x00073642#32, 0x00063E62#32, 0x000518A6#32, 0x00039A39#32]

/-- ACOS_ROM, entries 0x200 to 0x200 (20_memory.md R44). -/
def acosRows200 : List Word := [
  0x00000000#32]

/-- ACOS_ROM as a list, entry 0 first. -/
def acosList : List Word :=
  acosRows000 ++ acosRows040 ++ acosRows080 ++ acosRows0C0 ++ acosRows100
  ++ acosRows140 ++ acosRows180 ++ acosRows1C0 ++ acosRows200

/-- The image of ACOS_ROM: 513 words (20_memory.md R40, R44). -/
def acosImage : Rom 513 := ⟨acosList, by decide +kernel⟩

end Sys2Proof.Machine
end

