-- ==== Sys2Proof/Machine/State.lean ====
section
/-! DEFINITION. The state of the core (spec/10_state.md R20), with the ports and the reset input that its host drives held
as data beside it, and the two reasons a step can stop. -/

namespace Sys2Proof.Machine

/-- What the host presents on the command port in one transaction (30_encoding.md R70). -/
structure Transaction where
  cmd : Word
  opa : DWord
  opb : Word
  deriving DecidableEq, Repr

/-- What the core answers to one transaction (30_encoding.md R70, R73). -/
structure Response where
  res : DWord
  ill : Bool
  deriving DecidableEq, Repr

/-- The machine. `err` and the three ROMs are the architectural state, all of it (10_state.md R20); the other fields are
signals between host and core, and the model's own counter. -/
structure State where
  /-- The Error Signal `ERR` (10_state.md R21). -/
  err : BitVec 2
  /-- `COS_ROM` (20_memory.md R40, R41). -/
  cosRom : Rom 512
  /-- `TAN_ROM` (20_memory.md R40, R42). -/
  tanRom : Rom 256
  /-- `ACOS_ROM` (20_memory.md R40, R43). -/
  acosRom : Rom 513
  /-- The port `CMD` as sampled for the last accepted transaction (30_encoding.md R70; log 2). -/
  cmd : Word
  /-- The port `OPA` as sampled (30_encoding.md R70; log 2). -/
  opa : DWord
  /-- The port `OPB` as sampled (30_encoding.md R70; log 2). -/
  opb : Word
  /-- The response the last step returned; none where it completed no transaction, because nothing holds a response
  after it (10_state.md R24), and none before the first (70_reset_and_hazards.md R240; log 3). -/
  response : Option Response
  /-- The reset input: true while the host asserts it (70_reset_and_hazards.md R246; log 5). -/
  resetLine : Bool
  /-- Transactions issued by the host and not yet accepted, in issue order (30_encoding.md R70, 20_memory.md R50; log 1). -/
  pending : List Transaction
  /-- The model's own count of free values drawn (log 6). -/
  freeCount : Nat
  deriving DecidableEq, Repr

/-- Why the machine stops with a fault. There is no such reason: the core has no fault path (60_exceptions.md R221), so
nothing raises one, and that is safe. -/
inductive Fault where
  deriving DecidableEq, Repr

/-- Why a step is refused. -/
inductive Refusal where
  /-- An instruction whose meaning is not written. Raised by a refused arm of `exec` alone; there is none. Safe. -/
  | notModelled (mnemonic : String)
  deriving DecidableEq, Repr

/-- The machine right after reset (70_reset_and_hazards.md R240): no error code, the ROM images, no command in flight, no
response yet, reset released. The sampled ports and the free-value count have no reset value in the spec; the model takes
0 (log 2, log 6). -/
def State.reset : State where
  err := 0#2
  cosRom := cosImage
  tanRom := tanImage
  acosRom := acosImage
  cmd := 0#32
  opa := 0#64
  opb := 0#32
  response := none
  resetLine := false
  pending := []
  freeCount := 0

end Sys2Proof.Machine
end

