-- ==== Sys2Proof/Machine/Operands.lean ====
section
/-! DEFINITION. The operands of a command, formed from the sampled ports (spec/30_encoding.md R72, spec/00_scope.md R9). -/

namespace Sys2Proof.Machine

/-- `OPA[31:0]`, the word of operand A. -/
def wordA (s : State) : Word := s.opa.extractLsb' 0 32

/-- `OPB[31:0]`, the word of operand B. -/
def wordB (s : State) : Word := s.opb

/-- Operand `A = s32(OPA[31:0])`. -/
def operandA (s : State) : Int := (wordA s).toInt

/-- Operand `B = s32(OPB[31:0])`. -/
def operandB (s : State) : Int := (wordB s).toInt

/-- Operand `FIN = OPA[63:0]` read as binary64; FROMFLOAT only. -/
def operandFin (s : State) : B64 := b64OfBits s.opa

/-- ERRSET's operand `OPA[1:0]`. -/
def operandCode (s : State) : BitVec 2 := s.opa.extractLsb' 0 2

end Sys2Proof.Machine
end

