-- ==== Sys2Proof/Machine/Ops.lean ====
section
/-! DEFINITION. The operations the commands share (spec/00_scope.md R9): recording an error, answering, reading a ROM,
the conversions between fixed point and binary64, and the hand-over of a transaction. -/

namespace Sys2Proof.Machine

/-- What a command with a 32-bit result computes: the result word and the code it raises, if any (10_state.md R23). -/
structure Fixed where
  value : Word
  code : Option (BitVec 2)
  deriving DecidableEq, Repr

/-- A result with no error. -/
def Fixed.plain (v : Word) : Fixed := ⟨v, none⟩

/-- A result with `raise Range()`. -/
def Fixed.range (v : Word) : Fixed := ⟨v, some codeRange⟩

/-- A result with `raise Domain()`. -/
def Fixed.domain (v : Word) : Fixed := ⟨v, some codeDomain⟩

/-- Recording an error, the core's whole exception mechanism (60_exceptions.md R220, R221, R225): `ERR` takes the code,
nothing else is saved and control goes nowhere. Without a code `ERR` stays as it is (10_state.md R22). -/
def record (code : Option (BitVec 2)) (s : State) : State :=
  match code with
  | none => s
  | some c => { s with err := c }

/-- `RES <- v` with `ILL = 0` (00_scope.md R9, 30_encoding.md R73). -/
def respond (v : DWord) (s : State) : State := { s with response := some ⟨v, false⟩ }

/-- A command with a 32-bit result completes: its code, if any, is recorded and its result is returned zero-extended
(30_encoding.md R73, 60_exceptions.md R221). -/
def answer (r : Fixed) (s : State) : Host.Outcome State Fault Refusal :=
  .next (respond (r.value.setWidth 64) (record r.code s))

/-- The answer to an illegal command word: `ILL = 1`, `RES = 0`, nothing else (30_encoding.md R75, 60_exceptions.md R222;
log 4). -/
def answerIllegal (s : State) : State := { s with response := some ⟨0#64, true⟩ }

/-- The core accepts the transaction at the head of the host's queue: it samples the three input ports (30_encoding.md
R70). -/
def accept (t : Transaction) (rest : List Transaction) (s : State) : State :=
  { s with cmd := t.cmd, opa := t.opa, opb := t.opb, pending := rest }

/-- One step in which no transaction is issued: the core waits (70_reset_and_hazards.md R241; log 16), and no longer holds
the response it returned before (10_state.md R24). -/
def waitIdle (s : State) : State := { s with response := none }

/-- One step while reset is asserted (70_reset_and_hazards.md R240, R246): `ERR` is NONE and the ROMs stay. A transaction
presented meanwhile is taken off the port without being performed, and its response is undefined, a free value
(log 5, log 6). DESIGN CHOICE (log 2): the ports `cmd`, `opa` and `opb` keep the values last sampled, for which the spec
gives no value. DESIGN CHOICE (log 5): one such step is the shortest reset, for which the spec gives no duration. -/
def holdInReset (s : State) : State :=
  match s.pending with
  | [] => { s with err := codeNone, response := none }
  | _ :: rest =>
    { s with
      err := codeNone
      response := some ⟨Config.resInReset s.freeCount, Config.illInReset s.freeCount⟩
      pending := rest
      freeCount := s.freeCount + 1 }

/-- `RomRead(COS_ROM, i)` (20_memory.md R46). -/
def readCos (s : State) (i : Fin 512) : Word := s.cosRom.read i

/-- `RomRead(TAN_ROM, i)` (20_memory.md R46). -/
def readTan (s : State) (i : Fin 256) : Word := s.tanRom.read i

/-- `RomRead(ACOS_ROM, i)` (20_memory.md R46). -/
def readAcos (s : State) (i : Fin 513) : Word := s.acosRom.read i

/-- `CosIndex(x)` (42_table_functions.md R150). -/
def cosIndex (x : Int) : Fin 512 := Fin.ofNat 512 ((x + 0x4000) / 2 ^ 15 % 512).toNat

/-- `TanIndex(x)` (42_table_functions.md R150). -/
def tanIndex (x : Int) : Fin 256 := Fin.ofNat 256 ((x + 0x4000) / 2 ^ 15 % 256).toNat

/-- `AcosIndex(x)`, for a valid `x` (42_table_functions.md R154). -/
def acosIndex (x : Int) : Fin 513 := Fin.ofNat 513 ((x + 65536 + 127) / 2 ^ 8).toNat

/-- The quarter turn in binary angle units (00_scope.md R2, R5). -/
def quarterTurn : Int := 0x00400000

/-- The binary64 value 32767.0, the conversion limit (00_scope.md R2). -/
def convLimit : B64 := .fin false 32767 0

/-- The binary64 value 65536.0, the scale factor (00_scope.md R2). -/
def scaleFactor : B64 := .fin false 1 16

/-- The binary64 value 0.5. -/
def half : B64 := .fin false 1 (-1)

/-- The binary64 value 0.0. -/
def zero : B64 := .fin false 0 0

/-- `FromFloatCore(x)` (40_fixed_point_core.md R100). A NaN gives `NAN_RESULT` and no code (log 7). -/
def fromFloatCore (x : B64) : Fixed :=
  if b64IsNan x then .plain Config.nanResult
  else if b64Lt convLimit x then .range satPos
  else if b64Lt x (b64Neg convLimit) then .range satNeg
  else if b64Lt x zero then .plain (BitVec.ofInt 32 (b64Trunc (b64Sub (b64Mul x scaleFactor) half)))
  else .plain (BitVec.ofInt 32 (b64Trunc (b64Add (b64Mul x scaleFactor) half)))

/-- `ToFloatCore(v)`, exactly `v / 2^16` (40_fixed_point_core.md R101). -/
def toFloatCore (v : Int) : B64 := b64OfScaled v (-16)

/-- `K = fl(128/π)` (43_computed_functions.md R180). -/
def angleScale : B64 := b64OfBits 0x40445F306DC9C883#64

/-- `ToAngle(θ)`: radians to a fixed-point angle in binary angle units (43_computed_functions.md R180). -/
def toAngle (θ : B64) : Fixed := fromFloatCore (b64Mul θ angleScale)

end Sys2Proof.Machine
end

