-- ==== Sys2Proof/Machine/ComputedFunctions.lean ====
section
/-! DEFINITION. The computed functions of the transcendental_engine (spec/43_computed_functions.md). -/

namespace Sys2Proof.Machine

/-- ATAN (R182). -/
def execAtan (s : State) : Host.Outcome State Fault Refusal :=
  answer (toAngle (atanCr (toFloatCore (operandA s)))) s

/-- ATAN2's result (R183): the angle of the point `(x, y)`, 0 for the origin. -/
def atan2Result (y x : Int) : Fixed :=
  if y = 0 ∧ x = 0 then .plain 0#32
  else toAngle (atan2Cr (toFloatCore y) (toFloatCore x))

/-- ATAN2 (R183): `A = y`, `B = x`. -/
def execAtan2 (s : State) : Host.Outcome State Fault Refusal :=
  answer (atan2Result (operandA s) (operandB s)) s

/-- SQRT (R184): DOMAIN and 0 for a negative operand. -/
def execSqrt (s : State) : Host.Outcome State Fault Refusal :=
  answer (if operandA s < 0 then .domain 0#32 else fromFloatCore (b64Sqrt (toFloatCore (operandA s)))) s

/-- HYPOT's result (R186): `fsqrt((X ⊗ X) ⊕ (Y ⊗ Y))`, each step rounded. -/
def hypotResult (x y : Int) : Fixed :=
  fromFloatCore (b64Sqrt (b64Add (b64Mul (toFloatCore x) (toFloatCore x)) (b64Mul (toFloatCore y) (toFloatCore y))))

/-- HYPOT (R186). -/
def execHypot (s : State) : Host.Outcome State Fault Refusal :=
  answer (hypotResult (operandA s) (operandB s)) s

end Sys2Proof.Machine
end

