-- ==== Sys2Proof/Machine/ErrorAccess.lean ====
section
/-! DEFINITION. Access to the Error Signal (spec/44_error_access.md). -/

namespace Sys2Proof.Machine

/-- ERRGET (R200): RES is the zero-extended code, and reading does not clear it. -/
def execErrget (s : State) : Host.Outcome State Fault Refusal :=
  .next (respond (s.err.setWidth 64) s)

/-- ERRSET (R201): store `OPA[1:0]`, any of the four codes, and answer 0. -/
def execErrset (s : State) : Host.Outcome State Fault Refusal :=
  .next (respond 0#64 (record (some (operandCode s)) s))

end Sys2Proof.Machine
end

