-- ==== Sys2Proof/Machine/FixedPoint.lean ====
section
/-! DEFINITION. The fixed_point_core unit: conversions, saturating add and subtract, shifts (spec/40_fixed_point_core.md). -/

namespace Sys2Proof.Machine

/-- FROMINT (R103): shift left by 16, unchecked. -/
def execFromint (s : State) : Host.Outcome State Fault Refusal :=
  answer (.plain (wordA s <<< 16)) s

/-- TOINT (R104): arithmetic shift right by 16, plus bit 15. -/
def execToint (s : State) : Host.Outcome State Fault Refusal :=
  answer (.plain ((wordA s).sshiftRight 16 + ((wordA s).extractLsb' 15 1).setWidth 32)) s

/-- FROMFLOAT (R105). -/
def execFromfloat (s : State) : Host.Outcome State Fault Refusal :=
  answer (fromFloatCore (operandFin s)) s

/-- TOFLOAT (R106): the 64-bit encoding on RES, no error. -/
def execTofloat (s : State) : Host.Outcome State Fault Refusal :=
  .next (respond (b64ToBits (toFloatCore (operandA s))) s)

/-- ADD's result (R107): the wrapped sum, or the sentinel of the operands' sign on signed overflow. -/
def addResult (a b : Word) : Fixed :=
  if addOverflowsDown a b (a + b) then .range satNeg
  else if addOverflowsUp a b (a + b) then .range satPos
  else .plain (a + b)

/-- ADD (R107). -/
def execAdd (s : State) : Host.Outcome State Fault Refusal :=
  answer (addResult (wordA s) (wordB s)) s

/-- SUB's result (R108): the wrapped difference, or the sentinel of A's sign on signed overflow. -/
def subResult (a b : Word) : Fixed :=
  if subOverflowsDown a b (a - b) then .range satNeg
  else if subOverflowsUp a b (a - b) then .range satPos
  else .plain (a - b)

/-- SUB (R108). -/
def execSub (s : State) : Host.Outcome State Fault Refusal :=
  answer (subResult (wordA s) (wordB s)) s

/-- SHL (R109): bits shifted out are lost. -/
def execShl (sh : BitVec 5) (s : State) : Host.Outcome State Fault Refusal :=
  answer (.plain (wordA s <<< sh.toNat)) s

/-- SHR (R110): arithmetic. -/
def execShr (sh : BitVec 5) (s : State) : Host.Outcome State Fault Refusal :=
  answer (.plain ((wordA s).sshiftRight sh.toNat)) s

end Sys2Proof.Machine
end

