-- ==== Sys2Proof/Machine/Multiplicative.lean ====
section
/-! DEFINITION. The fixed_point_multiplier and fixed_point_divider units, in the spec's normative binary64 form
(spec/41_multiplicative_core.md). -/

namespace Sys2Proof.Machine

/-- MUL (R130). -/
def execMul (s : State) : Host.Outcome State Fault Refusal :=
  answer (fromFloatCore (b64Mul (toFloatCore (operandA s)) (toFloatCore (operandB s)))) s

/-- DIV's result (R132): division by zero takes the sentinel of A's sign, the positive one for zero. -/
def divResult (a b : Int) : Fixed :=
  if b = 0 then (if a < 0 then .range satNeg else .range satPos)
  else fromFloatCore (b64Div (toFloatCore a) (toFloatCore b))

/-- DIV (R132). -/
def execDiv (s : State) : Host.Outcome State Fault Refusal :=
  answer (divResult (operandA s) (operandB s)) s

end Sys2Proof.Machine
end

