-- ==== Sys2Proof/Machine/TableFunctions.lean ====
section
/-! DEFINITION. The table-driven functions of the transcendental_engine: nearest-entry lookup, no interpolation
(spec/42_table_functions.md; spec/90_conflicts.md C4). -/

namespace Sys2Proof.Machine

/-- COS (R151). -/
def execCos (s : State) : Host.Outcome State Fault Refusal :=
  answer (.plain (readCos s (cosIndex (operandA s)))) s

/-- SIN (R152): the cosine of the angle less a quarter turn. -/
def execSin (s : State) : Host.Outcome State Fault Refusal :=
  answer (.plain (readCos s (cosIndex (operandA s - quarterTurn)))) s

/-- TAN (R153). -/
def execTan (s : State) : Host.Outcome State Fault Refusal :=
  answer (.plain (readTan s (tanIndex (operandA s)))) s

/-- ACOS (R155): DOMAIN and 0 outside `[-1, 1]`. -/
def execAcos (s : State) : Host.Outcome State Fault Refusal :=
  answer (if acosValid (operandA s) then .plain (readAcos s (acosIndex (operandA s))) else .domain 0#32) s

/-- ASIN (R156): the quarter turn less the arccosine, with the same domain check. -/
def execAsin (s : State) : Host.Outcome State Fault Refusal :=
  answer
    (if acosValid (operandA s) then
      .plain (BitVec.ofInt 32 (quarterTurn - (readAcos s (acosIndex (operandA s))).toInt))
    else .domain 0#32) s

end Sys2Proof.Machine
end

