-- ==== Sys2Proof/Machine/Dispatch.lean ====
section
/-! DEFINITION. One arm for each command, calling its meaning (spec/10_state.md R28, spec/30_encoding.md R77). -/

namespace Sys2Proof.Machine

def exec (i : Instr) (s : State) : Host.Outcome State Fault Refusal :=
  match i with
  | .fromint => Sys2Proof.Machine.execFromint s
  | .toint => Sys2Proof.Machine.execToint s
  | .fromfloat => Sys2Proof.Machine.execFromfloat s
  | .tofloat => Sys2Proof.Machine.execTofloat s
  | .add => Sys2Proof.Machine.execAdd s
  | .sub => Sys2Proof.Machine.execSub s
  | .shl sh => Sys2Proof.Machine.execShl sh s
  | .shr sh => Sys2Proof.Machine.execShr sh s
  | .mul => Sys2Proof.Machine.execMul s
  | .div => Sys2Proof.Machine.execDiv s
  | .cos => Sys2Proof.Machine.execCos s
  | .sin => Sys2Proof.Machine.execSin s
  | .tan => Sys2Proof.Machine.execTan s
  | .acos => Sys2Proof.Machine.execAcos s
  | .asin => Sys2Proof.Machine.execAsin s
  | .atan => Sys2Proof.Machine.execAtan s
  | .atan2 => Sys2Proof.Machine.execAtan2 s
  | .sqrt => Sys2Proof.Machine.execSqrt s
  | .hypot => Sys2Proof.Machine.execHypot s
  | .errget => Sys2Proof.Machine.execErrget s
  | .errset => Sys2Proof.Machine.execErrset s

end Sys2Proof.Machine
end

