-- ==== Sys2Proof/Machine/Step.lean ====
section
/-! DEFINITION. One step of the machine: one transaction of the host, as one atomic transition (spec/10_state.md R28,
spec/30_encoding.md R70). -/

namespace Sys2Proof.Machine

/-- Perform the sampled command: decode `CMD`, then run the command, or answer an illegal word (10_state.md R28). -/
def perform (s : State) : Host.Outcome State Fault Refusal :=
  match decode s.cmd with
  | .ok i => exec i s
  | .error _ => .next (answerIllegal s)

/-- One step. While reset is asserted no command is performed (70_reset_and_hazards.md R246). With nothing issued the core
waits and holds no response (R241, 10_state.md R24; log 16). Otherwise it accepts the oldest transaction and performs it (20_memory.md R50). -/
def step (s : State) : Host.Outcome State Fault Refusal :=
  if s.resetLine then .next (holdInReset s)
  else
    match s.pending with
    | [] => .next (waitIdle s)
    | t :: rest => perform (accept t rest s)

/-- The command word of `nbits` bits, zeros above them, presented in the transaction the next step accepts. Its operands
are those of the host's oldest transaction, or zero where it has issued none (30_encoding.md R78, `.word`; log 17). Reset
is released, with no step taken under it. DESIGN CHOICE (log 17): ERR and the rest stay as they were, because only a step
taken with reset asserted has reset's effect; the spec gives no duration of reset. -/
def State.withFetchWord (s : State) (nbits w : Nat) : State :=
  { s with
    resetLine := false
    pending :=
      match s.pending with
      | [] => [⟨BitVec.ofNat 32 (w % 2 ^ nbits), 0#64, 0#32⟩]
      | t :: rest => { t with cmd := BitVec.ofNat 32 (w % 2 ^ nbits) } :: rest }

end Sys2Proof.Machine
end

