-- ==== Sys2Proof/Machine/Asm.lean ====
section
/-! DEFINITION. The spec's assembly syntax, its pseudo-instructions and the host that runs a straight-line program
(spec/30_encoding.md R78, R79, R80). This is host code, not a part of the core (log 14). -/

namespace Sys2Proof.Machine

/-- An operand of an assembly line, in the forms of R78. A `#n` is not among them: it goes into the command word. -/
inductive AsmOperand where
  /-- `0xH...H`, a 32-bit word. -/
  | hex (w : Word)
  /-- A decimal integer. -/
  | dec (n : Int)
  /-- A decimal float literal `± digits · 10^exp`. -/
  | float (neg : Bool) (digits : Nat) (exp : Int)
  /-- The float literal `inf`. -/
  | inf (neg : Bool)
  /-- The float literal `nan`. -/
  | nan
  /-- `b64:0xH{16}`, a 64-bit pattern. -/
  | b64 (d : DWord)
  /-- `%k`, the result of the k-th command of the program, counted from 1. -/
  | result (k : Nat)
  deriving DecidableEq, Repr

/-- A line of a program: a command with its operands, or a raw command word (`.word`). -/
inductive AsmLine where
  | command (i : Instr) (operands : List AsmOperand)
  | word (w : Word)
  deriving DecidableEq, Repr

/-- The `RES` of the k-th command (R78, `%k`). -/
def resultOf (results : List DWord) (k : Nat) : Option DWord := if k = 0 then none else results[k - 1]?

/-- The word an operand stands for, for every command but FROMFLOAT (R78). -/
def wordOperand (results : List DWord) (o : AsmOperand) : Option Word :=
  match o with
  | .hex w => some w
  | .dec n => if -2 ^ 31 ≤ n ∧ n < 2 ^ 32 then some (BitVec.ofInt 32 n) else none
  | .result k => (resultOf results k).map (fun d => d.extractLsb' 0 32)
  | .float _ _ _ | .inf _ | .nan | .b64 _ => none

/-- The pattern a `nan` literal stands for: some NaN, its sign and payload free (log 14). -/
def nanLiteral : DWord := Config.nanPattern ||| 0x7FF8000000000000#64

/-- The 64-bit pattern an operand of FROMFLOAT stands for; a decimal literal `d` is `fl(d)` (R78). -/
def floatOperand (results : List DWord) (o : AsmOperand) : Option DWord :=
  match o with
  | .float neg m e => some (b64ToBits (flRatio neg (m * 10 ^ e.toNat) (10 ^ (-e).toNat)))
  | .inf neg => some (b64ToBits (.inf neg))
  | .nan => some nanLiteral
  | .b64 d => some d
  | .result k => resultOf results k
  | .hex _ | .dec _ => none

/-- The operands of a command on the ports, in the order of the source's signatures, unused ports 0 (R78). -/
def asmPorts (results : List DWord) (i : Instr) (operands : List AsmOperand) : Option (DWord × Word) :=
  match i, operands with
  | .errget, [] => some (0#64, 0#32)
  | .fromfloat, [a] => (floatOperand results a).map (fun d => (d, 0#32))
  | .fromint, [a] | .toint, [a] | .tofloat, [a] | .shl _, [a] | .shr _, [a] | .cos, [a] | .sin, [a] | .tan, [a]
  | .acos, [a] | .asin, [a] | .atan, [a] | .sqrt, [a] | .errset, [a] =>
    (wordOperand results a).map (fun w => (w.setWidth 64, 0#32))
  | .add, [a, b] | .sub, [a, b] | .mul, [a, b] | .div, [a, b] | .atan2, [a, b] | .hypot, [a, b] =>
    match wordOperand results a, wordOperand results b with
    | some x, some y => some (x.setWidth 64, y)
    | _, _ => none
  | _, _ => none

/-- A line as the triple `(CMD, OPA, OPB)` (R78), or nothing where its operands do not fit its command. -/
def assemble (results : List DWord) (line : AsmLine) : Option Transaction :=
  match line with
  | .word w => some ⟨w, 0#64, 0#32⟩
  | .command i operands => (asmPorts results i operands).map (fun p => ⟨encode i, p.1, p.2⟩)

/-- The pseudo-instructions of R79; `plus` to `shiftRight` and the conversions are the wrapper's operators. -/
inductive Pseudo where
  | errclr
  | plus (a b : AsmOperand)
  | minus (a b : AsmOperand)
  | times (a b : AsmOperand)
  | over (a b : AsmOperand)
  | shiftLeft (a : AsmOperand) (n : BitVec 5)
  | shiftRight (a : AsmOperand) (n : BitVec 5)
  | ofInteger (n : AsmOperand)
  | ofFloating (d : AsmOperand)
  | toInteger (a : AsmOperand)
  | toFloating (a : AsmOperand)
  deriving DecidableEq, Repr

/-- The command each pseudo-instruction expands to (R79). -/
def expand (p : Pseudo) : AsmLine :=
  match p with
  | .errclr => .command .errset [.dec 0]
  | .plus a b => .command .add [a, b]
  | .minus a b => .command .sub [a, b]
  | .times a b => .command .mul [a, b]
  | .over a b => .command .div [a, b]
  | .shiftLeft a n => .command (.shl n) [a]
  | .shiftRight a n => .command (.shr n) [a]
  | .ofInteger n => .command .fromint [n]
  | .ofFloating d => .command .fromfloat [d]
  | .toInteger a => .command .toint [a]
  | .toFloating a => .command .tofloat [a]

/-- The host running a straight-line program (R80): assemble a line with the results so far, issue it, take its response. -/
def runProgram : List AsmLine → List Response → State → Option (List Response × State)
  | [], done, s => some (done, s)
  | line :: rest, done, s =>
    match assemble (done.map Response.res) line with
    | none => none
    | some t =>
      match step { s with pending := [t] } with
      | .next s' =>
        match s'.response with
        | some r => runProgram rest (done ++ [r]) s'
        | none => none
      | .fault _ => none
      | .refused _ => none

/-! ## Text -/

/-- The command a lower-case mnemonic names, given the shift amount of its line. -/
def mnemonicCommand (name : List Char) (sh : BitVec 5) : Option Instr :=
  match name with
  | ['f', 'r', 'o', 'm', 'i', 'n', 't'] => some .fromint
  | ['t', 'o', 'i', 'n', 't'] => some .toint
  | ['f', 'r', 'o', 'm', 'f', 'l', 'o', 'a', 't'] => some .fromfloat
  | ['t', 'o', 'f', 'l', 'o', 'a', 't'] => some .tofloat
  | ['a', 'd', 'd'] => some .add
  | ['s', 'u', 'b'] => some .sub
  | ['s', 'h', 'l'] => some (.shl sh)
  | ['s', 'h', 'r'] => some (.shr sh)
  | ['m', 'u', 'l'] => some .mul
  | ['d', 'i', 'v'] => some .div
  | ['c', 'o', 's'] => some .cos
  | ['s', 'i', 'n'] => some .sin
  | ['t', 'a', 'n'] => some .tan
  | ['a', 'c', 'o', 's'] => some .acos
  | ['a', 's', 'i', 'n'] => some .asin
  | ['a', 't', 'a', 'n'] => some .atan
  | ['a', 't', 'a', 'n', '2'] => some .atan2
  | ['s', 'q', 'r', 't'] => some .sqrt
  | ['h', 'y', 'p', 'o', 't'] => some .hypot
  | ['e', 'r', 'r', 'g', 'e', 't'] => some .errget
  | ['e', 'r', 'r', 's', 'e', 't'] => some .errset
  | _ => none

/-- The value of a digit in a base up to 16. -/
def digitValue (base : Nat) (c : Char) : Option Nat :=
  let n := c.toNat
  let v :=
    if 48 ≤ n ∧ n ≤ 57 then n - 48
    else if 65 ≤ n ∧ n ≤ 70 then n - 55
    else if 97 ≤ n ∧ n ≤ 102 then n - 87
    else 16
  if v < base then some v else none

/-- The number a non-empty row of digits writes, continuing from `acc`. -/
def digitsFrom (base acc : Nat) : List Char → Option Nat
  | [] => some acc
  | c :: cs =>
    match digitValue base c with
    | some d => digitsFrom base (acc * base + d) cs
    | none => none

/-- The number a non-empty row of digits writes. -/
def natLiteral (base : Nat) (cs : List Char) : Option Nat := if cs.isEmpty then none else digitsFrom base 0 cs

/-- A leading minus sign taken off. -/
def takeSign (cs : List Char) : Bool × List Char :=
  match cs with
  | '-' :: rest => (true, rest)
  | _ => (false, cs)

/-- A signed decimal integer. -/
def intLiteral (cs : List Char) : Option Int :=
  (natLiteral 10 (takeSign cs).2).map (fun n => if (takeSign cs).1 then -(n : Int) else (n : Int))

/-- A decimal float literal: digits, a point, an exponent (R78). DESIGN CHOICE (log 14), because R78 gives no grammar: no
plus sign in the mantissa or the exponent (`+1.5` and `1e+5` are rejected), a lower-case `e`, and digits needed on one side
of the point only (`.5` and `5.` are taken). -/
def decimalFloat (neg : Bool) (cs : List Char) : Option AsmOperand :=
  let mantissa := cs.takeWhile (· != 'e')
  let whole := mantissa.takeWhile (· != '.')
  let fraction := (mantissa.dropWhile (· != '.')).drop 1
  let exponent := if cs.contains 'e' then intLiteral ((cs.dropWhile (· != 'e')).drop 1) else some 0
  match natLiteral 10 (whole ++ fraction), exponent with
  | some m, some e => some (.float neg m (e - fraction.length))
  | _, _ => none

/-- A float literal (R78). DESIGN CHOICE (log 14): a minus sign may stand before `inf` and `nan`, and is dropped from
`nan`. -/
def floatLiteral (cs : List Char) : Option AsmOperand :=
  match takeSign cs with
  | (neg, ['i', 'n', 'f']) => some (.inf neg)
  | (_, ['n', 'a', 'n']) => some .nan
  | (neg, rest) => decimalFloat neg rest

/-- An operand, in the forms of R78. -/
def asmOperand (cs : List Char) : Option AsmOperand :=
  match cs with
  | '%' :: k => (natLiteral 10 k).map .result
  | 'b' :: '6' :: '4' :: ':' :: '0' :: 'x' :: h =>
    if h.length = 16 then (natLiteral 16 h).map (fun n => .b64 (BitVec.ofNat 64 n)) else none
  | '0' :: 'x' :: h => if h.length ≤ 8 then (natLiteral 16 h).map (fun n => .hex (BitVec.ofNat 32 n)) else none
  | _ =>
    if cs.contains '.' || cs.contains 'e' || cs.contains 'n' then floatLiteral cs
    else (intLiteral cs).map .dec

/-- The pieces of a row of characters between commas. -/
def splitCommas : List Char → List Char → List (List Char)
  | acc, [] => [acc.reverse]
  | acc, ',' :: cs => acc.reverse :: splitCommas [] cs
  | acc, c :: cs => splitCommas (c :: acc) cs

/-- A piece without its blanks. -/
def trimBlanks (cs : List Char) : List Char :=
  ((cs.dropWhile (· == ' ')).reverse.dropWhile (· == ' ')).reverse

/-- Every piece of a list, or nothing. -/
def allOperands : List (List Char) → Option (List AsmOperand)
  | [] => some []
  | p :: ps =>
    match asmOperand p, allOperands ps with
    | some o, some os => some (o :: os)
    | _, _ => none

/-- The pieces of an operand field: none where it is blank. -/
def operandPieces (cs : List Char) : List (List Char) :=
  if (trimBlanks cs).isEmpty then [] else (splitCommas [] cs).map trimBlanks

/-- A shift line's operands: the value and the amount `#n`, `0 ≤ n ≤ 31` (R78). -/
def shiftLine (name : List Char) (pieces : List (List Char)) : Option AsmLine :=
  match pieces with
  | [a, '#' :: n] =>
    match asmOperand a, natLiteral 10 n with
    | some o, some k =>
      if k ≤ 31 then (mnemonicCommand name (BitVec.ofNat 5 k)).map (fun i => .command i [o]) else none
    | _, _ => none
  | _ => none

/-- One line of text (R78). -/
def parseLine (text : List Char) : Option AsmLine :=
  let line := trimBlanks text
  let name := line.takeWhile (· != ' ')
  let pieces := operandPieces (line.dropWhile (· != ' '))
  match name with
  | ['.', 'w', 'o', 'r', 'd'] =>
    match pieces with
    | ['0' :: 'x' :: h] => if h.length ≤ 8 then (natLiteral 16 h).map (fun n => .word (BitVec.ofNat 32 n)) else none
    | _ => none
  | ['e', 'r', 'r', 'c', 'l', 'r'] => if pieces.isEmpty then some (expand .errclr) else none
  | ['s', 'h', 'l'] => shiftLine name pieces
  | ['s', 'h', 'r'] => shiftLine name pieces
  | _ =>
    match mnemonicCommand name 0#5, allOperands pieces with
    | some i, some os => some (.command i os)
    | _, _ => none

end Sys2Proof.Machine
end

