-- ==== Sys2Proof/Machine/Ports.lean ====
section
/-! DEFINITION. The byte order of a port that a platform splits or maps into a byte-addressed space: little-endian
(spec/20_memory.md R47; spec/92 D18). The core itself has no byte order and no address (R47 to R49). -/

namespace Sys2Proof.Machine

/-- The half of a 64-bit port at the lower address: its lower-numbered bits. -/
def lowHalf (d : DWord) : Word := d.extractLsb' 0 32

/-- The half of a 64-bit port at the higher address. -/
def highHalf (d : DWord) : Word := d.extractLsb' 32 32

/-- A 64-bit port moved as two 32-bit halves, the one at the lower address first. -/
def joinHalves (low high : Word) : DWord := high ++ low

/-- The eight bytes of a 64-bit port, the byte at the lowest address first. -/
def bytesOfPort (d : DWord) : List Byte := bytesOfWord (lowHalf d) ++ bytesOfWord (highHalf d)

/-- A transaction presented through byte-mapped ports: four bytes of `CMD`, eight of `OPA`, four of `OPB`, each port
little-endian. The order of the ports among themselves is the platform's (20_memory.md R49), so it is no part of this. -/
def transactionOfBytes (cmd opaLow opaHigh opb : Byte × Byte × Byte × Byte) : Transaction :=
  let word (b : Byte × Byte × Byte × Byte) : Word := wordOfBytes b.1 b.2.1 b.2.2.1 b.2.2.2
  ⟨word cmd, joinHalves (word opaLow) (word opaHigh), word opb⟩

end Sys2Proof.Machine
end

