-- ==== Sys2Proof/Safety.lean ====
section
/-! DEFINITION. The terms that statements about the core are made in: what a completed command leaves, which command
records which code, and what counts as a safe state and a safe run (spec/00_scope.md R8, spec/10_state.md R21, R28,
spec/20_memory.md R45, spec/60_exceptions.md R220, R221). -/

namespace Sys2Proof.Machine

/-- A command has completed with `ERR = err`, `RES = res` and `ILL = 0`, and changed nothing else (10_state.md R28). -/
def completed (s : State) (err : BitVec 2) (res : DWord) : Host.Outcome State Fault Refusal :=
  .next { s with err := err, response := some ⟨res, false⟩ }

/-- A command has completed with the 32-bit result `v`, returned as `zext_64(u32(v))` (30_encoding.md R73). -/
def completedInt (s : State) (err : BitVec 2) (v : Int) : Host.Outcome State Fault Refusal :=
  completed s err ((BitVec.ofInt 32 v).setWidth 64)

/-- `rha(r)`: the nearest integer, halves away from zero (00_scope.md R8). -/
def rha (r : ℚ) : Int := if r < 0 then -⌊-r + 1 / 2⌋ else ⌊r + 1 / 2⌋

/-- The binary64 value HYPOT computes before it converts back: each step rounded, in the order of 43_computed_functions.md
R186. -/
def hypotFloat (x y : Int) : B64 :=
  b64Sqrt (b64Add (b64Mul (toFloatCore x) (toFloatCore x)) (b64Mul (toFloatCore y) (toFloatCore y)))

/-- The table of 60_exceptions.md R220: the code a transaction writes to ERR, if any; ERRSET writes the code it is given. -/
def recordedBy (t : Transaction) : Option (BitVec 2) :=
  let a := (t.opa.extractLsb' 0 32).toInt
  let b := t.opb.toInt
  let x := b64OfBits t.opa
  match decode t.cmd with
  | .ok .fromfloat => if b64Lt convLimit x || b64Lt x (b64Neg convLimit) then some 1#2 else none
  | .ok .add => if 2 ^ 31 ≤ a + b ∨ a + b < -2 ^ 31 then some 1#2 else none
  | .ok .sub => if (2 ^ 31 ≤ a - b ∨ a - b < -2 ^ 31) ∧ a ≠ 0 then some 1#2 else none
  | .ok .mul => if 32767 * 2 ^ 32 < a * b ∨ a * b < -(32767 * 2 ^ 32) then some 1#2 else none
  | .ok .div => if b = 0 ∨ 32767 * |b| < |a| then some 1#2 else none
  | .ok .hypot => if b64Lt convLimit (hypotFloat a b) then some 1#2 else none
  | .ok .acos | .ok .asin => if a < -65536 ∨ 65536 < a then some 2#2 else none
  | .ok .sqrt => if a < 0 then some 2#2 else none
  | .ok .errset => some (t.opa.extractLsb' 0 2)
  | .ok .fromint | .ok .toint | .ok .tofloat | .ok (.shl _) | .ok (.shr _) | .ok .cos | .ok .sin | .ok .tan
  | .ok .atan | .ok .atan2 | .ok .errget | .error _ => none

/-- The operand bits a command uses (30_encoding.md R72, R74) are the same on the ports of `s` and on `a` and `b`. -/
def SameUsedOperands (i : Instr) (s : State) (a : DWord) (b : Word) : Prop :=
  match i with
  | .errget => True
  | .errset => a.extractLsb' 0 2 = s.opa.extractLsb' 0 2
  | .fromfloat => a = s.opa
  | .fromint | .toint | .tofloat | .shl _ | .shr _ | .cos | .sin | .tan | .acos | .asin | .atan | .sqrt =>
    a.extractLsb' 0 32 = s.opa.extractLsb' 0 32
  | .add | .sub | .mul | .div | .atan2 | .hypot => a.extractLsb' 0 32 = s.opa.extractLsb' 0 32 ∧ b = s.opb

/-- The three ROMs hold the images of 20_memory.md R44. -/
def RomsIntact (s : State) : Prop := s.cosRom = cosImage ∧ s.tanRom = tanImage ∧ s.acosRom = acosImage

/-- A transaction that stores the reserved code 3 (10_state.md R21). -/
def setsReserved (t : Transaction) : Bool := t.cmd == 0x31#32 && t.opa.extractLsb' 0 2 == 3#2

/-- The invariant of the engine: the ROMs are intact, and the reserved code is neither in ERR nor about to be set by the
host (20_memory.md R45, 10_state.md R21). -/
def EngineInvariant (s : State) : Prop :=
  RomsIntact s ∧ s.err ≠ 3#2 ∧ ∀ t ∈ s.pending, setsReserved t = false

/-- Every run from a state, of every length, answers a next state: nothing is fatal (60_exceptions.md R221). -/
def NeverStops (s : State) : Prop := ∀ n : Nat, ∃ t, Sys2Proof.core.run n s = .next t

end Sys2Proof.Machine
end

