-- ==== Sys2Proof/Certificates/Slice0/Obligations.lean ====
section
/-! DEFINITION. The statements about the core, from the numbered rules of spec/. `completed s err res` says the whole next
state: ERR, the response, and that nothing else changes, so every statement of a result is also its frame. -/

open Sys2Proof Sys2Proof.Machine

/-! ## Encoding and decoding -/

/-- 30_encoding.md R74: each row's word, with the extreme shift amounts, decodes to its command. -/
def Obligations.OpcodeTableWords : Prop :=
  decode 0x00000001#32 = .ok .fromint ∧ decode 0x00000002#32 = .ok .toint ∧ decode 0x00000003#32 = .ok .fromfloat ∧
  decode 0x00000004#32 = .ok .tofloat ∧ decode 0x00000005#32 = .ok .add ∧ decode 0x00000006#32 = .ok .sub ∧
  decode 0x00000007#32 = .ok (.shl 0#5) ∧ decode 0x00001F07#32 = .ok (.shl 31#5) ∧
  decode 0x00000008#32 = .ok (.shr 0#5) ∧ decode 0x00000108#32 = .ok (.shr 1#5) ∧
  decode 0x00001F08#32 = .ok (.shr 31#5) ∧
  decode 0x00000010#32 = .ok .mul ∧ decode 0x00000011#32 = .ok .div ∧ decode 0x00000020#32 = .ok .cos ∧
  decode 0x00000021#32 = .ok .sin ∧ decode 0x00000022#32 = .ok .tan ∧ decode 0x00000023#32 = .ok .acos ∧
  decode 0x00000024#32 = .ok .asin ∧ decode 0x00000028#32 = .ok .atan ∧ decode 0x00000029#32 = .ok .atan2 ∧
  decode 0x0000002A#32 = .ok .sqrt ∧ decode 0x0000002B#32 = .ok .hypot ∧ decode 0x00000030#32 = .ok .errget ∧
  decode 0x00000031#32 = .ok .errset

/-- 30_encoding.md R71, R74, R77: over all `2^32` words, a word decodes to a command exactly where it is that command's
encoding. -/
def Obligations.DecodeEncodeAgree : Prop := ∀ (w : Word) (i : Instr), decode w = .ok i ↔ encode i = w

/-- 30_encoding.md R75: a word that meets the three conditions decodes, and any other is answered with ILL = 1, RES = 0 and
nothing else, ERR included. -/
def Obligations.IllegalWordAnswered : Prop :=
  ∀ (s : State) (t : Transaction) (rest : List Transaction), s.resetLine = false → s.pending = t :: rest →
    let op := t.cmd.toNat % 256
    let isLegal :=
      op ∈ [0x01, 0x02, 0x03, 0x04, 0x05, 0x06, 0x07, 0x08, 0x10, 0x11, 0x20, 0x21, 0x22, 0x23, 0x24, 0x28, 0x29, 0x2A,
        0x2B, 0x30, 0x31] ∧ t.cmd.toNat / 2 ^ 13 = 0 ∧ (t.cmd.toNat / 2 ^ 8 % 32 = 0 ∨ op = 0x07 ∨ op = 0x08)
    (isLegal → ∃ i, decode t.cmd = .ok i) ∧
    (¬ isLegal → step s = .next { s with
      cmd := t.cmd, opa := t.opa, opb := t.opb, pending := rest, response := some ⟨0#64, true⟩ })

/-- 30_encoding.md R76: whether a transaction is answered as illegal depends on its command word alone, not on its
operands or the state. -/
def Obligations.LegalityDependsOnCommandWordAlone : Prop :=
  ∀ (s s' : State) (t t' : Transaction) (rest rest' : List Transaction), s.resetLine = false → s'.resetLine = false →
    s.pending = t :: rest → s'.pending = t' :: rest' → t.cmd = t'.cmd →
    ∃ u u' r r', step s = .next u ∧ step s' = .next u' ∧ u.response = some r ∧ u'.response = some r' ∧ r.ill = r'.ill

/-- 20_memory.md R47, 30_encoding.md R77: four bytes, the lowest address first, are one little-endian command word, and
the bytes after them are left. That the command word itself is byte-mapped this way is the model's reading (log 15). -/
def Obligations.BytesDecodeLittleEndian : Prop :=
  ∀ (b0 b1 b2 b3 : Byte) (rest : List Byte),
    decodeBytes (b0 :: b1 :: b2 :: b3 :: rest) =
      match decode (BitVec.ofNat 32 (b0.toNat + 2 ^ 8 * b1.toNat + 2 ^ 16 * b2.toNat + 2 ^ 24 * b3.toNat)) with
      | .ok i => .ok (i, rest)
      | .error e => .error e

/-- 30_encoding.md R72: how the operands are formed from the ports and the command word. -/
def Obligations.OperandsFormedFromPorts : Prop :=
  (∀ s : State,
    operandA s = (if s.opa.toNat % 2 ^ 32 < 2 ^ 31 then ((s.opa.toNat % 2 ^ 32 : Nat) : Int)
      else ((s.opa.toNat % 2 ^ 32 : Nat) : Int) - 2 ^ 32) ∧
    operandB s = (if s.opb.toNat < 2 ^ 31 then (s.opb.toNat : Int) else (s.opb.toNat : Int) - 2 ^ 32) ∧
    operandFin s = b64OfBits s.opa ∧ (operandCode s).toNat = s.opa.toNat % 4) ∧
  (∀ (w : Word) (sh : BitVec 5), decode w = .ok (.shl sh) ∨ decode w = .ok (.shr sh) → sh.toNat = w.toNat / 2 ^ 8 % 32)

/-! ## The step -/

/-- 10_state.md R28, 30_encoding.md R70: where the oldest transaction's word decodes, the step samples its ports and is
that command's meaning. -/
def Obligations.StepRunsDecodedCommand : Prop :=
  ∀ (s : State) (t : Transaction) (rest : List Transaction) (i : Instr), s.resetLine = false → s.pending = t :: rest →
    decode t.cmd = .ok i →
    step s = exec i { s with cmd := t.cmd, opa := t.opa, opb := t.opb, pending := rest }

/-- 70_reset_and_hazards.md R241, 10_state.md R24: with no transaction issued the core waits, everything but the response
stays, and no response is held. The waiting step is the model's (log 16). -/
def Obligations.IdleCoreWaits : Prop :=
  ∀ s : State, s.resetLine = false → s.pending = [] → step s = .next { s with response := none }

/-- 70_reset_and_hazards.md R240, R246: while reset is asserted no command is performed, ERR is NONE and the ROMs are
unchanged. That a presented transaction is taken off the port (log 5) and that the sampled ports keep their values (log 2)
is the model's. -/
def Obligations.ResetAssertedPerformsNothing : Prop :=
  ∀ s : State, s.resetLine = true →
    ∃ t, step s = .next t ∧ t.err = 0#2 ∧ t.cosRom = s.cosRom ∧ t.tanRom = s.tanRom ∧ t.acosRom = s.acosRom ∧
      t.cmd = s.cmd ∧ t.opa = s.opa ∧ t.opb = s.opb ∧ t.resetLine = true ∧ t.pending = s.pending.tail

/-- 70_reset_and_hazards.md R240, 20_memory.md R45: the state after reset. -/
def Obligations.ResetClearsErrorAndKeepsRoms : Prop :=
  State.reset.err = 0#2 ∧ State.reset.cosRom = cosImage ∧ State.reset.tanRom = tanImage ∧
  State.reset.acosRom = acosImage ∧ State.reset.pending = [] ∧ State.reset.resetLine = false

/-- 10_state.md R21, 20_memory.md R45: from every state that meets it, each step keeps the engine's invariant: the ROM
images stay, and no command of the engine puts the reserved code in ERR. -/
def Obligations.EngineInvariantKept : Prop :=
  ∀ s t : State, EngineInvariant s → step s = .next t → EngineInvariant t

/-- The state after reset meets the engine's invariant. -/
def Obligations.ResetMeetsEngineInvariant : Prop := EngineInvariant State.reset

/-- 20_memory.md R45, R52: no run of any length writes a ROM. -/
def Obligations.RomsNeverWritten : Prop :=
  ∀ (n : Nat) (s t : State), Sys2Proof.core.run n s = .next t →
    t.cosRom = s.cosRom ∧ t.tanRom = s.tanRom ∧ t.acosRom = s.acosRom

/-- 60_exceptions.md R221: no error is fatal; every run from every state goes on. -/
def Obligations.RunsNeverStop : Prop := ∀ s : State, NeverStops s

/-! ## The Error Signal -/

/-- 10_state.md R22, R23: a command other than ERRSET either leaves ERR as it is, or overwrites it with one code, RANGE or
DOMAIN, whatever ERR held. -/
def Obligations.ErrorSignalSticky : Prop :=
  ∀ (i : Instr) (s : State), i ≠ .errset →
    ∃ c : Option (BitVec 2), (c = none ∨ c = some 1#2 ∨ c = some 2#2) ∧
      ∀ e, ∃ t, exec i { s with err := e } = .next t ∧ t.err = c.getD e

/-- 60_exceptions.md R220: the table of which command records which code, and when, with the family rules it summarises
(R105, R107, R108, R131, R132, R133, R155, R156, R184, R186, R201); every other transaction leaves ERR. -/
def Obligations.ErrorTableComplete : Prop :=
  ∀ (s : State) (t : Transaction) (rest : List Transaction), s.resetLine = false → s.pending = t :: rest →
    ∃ u, step s = .next u ∧ u.err = (recordedBy t).getD s.err

/-- 20_memory.md R50, 70_reset_and_hazards.md R243: over any sequence of transactions ERR is the code the last of them
that wrote it left, in issue order, or its first value. -/
def Obligations.ErrorSignalFollowsIssueOrder : Prop :=
  ∀ (ts : List Transaction) (s : State), s.resetLine = false → s.pending = ts →
    ∃ u, Sys2Proof.core.run ts.length s = .next u ∧ u.pending = [] ∧
      u.err = ts.foldl (fun e t => (recordedBy t).getD e) s.err

/-- 70_reset_and_hazards.md R244: ERRSET 0, a command, ERRGET: the code read is the one that command recorded, 0 where it
recorded none, whatever ERR held before. -/
def Obligations.CheckProtocolReportsCommand : Prop :=
  ∀ (s : State) (c : Transaction) (rest : List Transaction), s.resetLine = false →
    s.pending = ⟨0x00000031#32, 0#64, 0#32⟩ :: c :: ⟨0x00000030#32, 0#64, 0#32⟩ :: rest →
    ∃ u, Sys2Proof.core.run 3 s = .next u ∧
      u.response = some ⟨((recordedBy c).getD 0#2).setWidth 64, false⟩

/-- 10_state.md R20: ERR is read by ERRGET only: it reaches no other command's response. -/
def Obligations.ErrorSignalReadByErrgetOnly : Prop :=
  ∀ (i : Instr) (s : State) (e : BitVec 2), i ≠ .errget →
    ∃ t t', exec i s = .next t ∧ exec i { s with err := e } = .next t' ∧ t.response = t'.response

/-- 30_encoding.md R72, R76: the operand bits a command does not use affect neither its result nor ERR nor ILL. -/
def Obligations.UnusedOperandsIgnored : Prop :=
  ∀ (i : Instr) (s : State) (a : DWord) (b : Word), SameUsedOperands i s a b →
    ∃ e r, exec i s = completed s e r ∧
      exec i { s with opa := a, opb := b } = completed { s with opa := a, opb := b } e r

/-- 30_encoding.md R73: every result but TOFLOAT's is zero-extended from 32 bits, with ILL = 0. -/
def Obligations.ResultsZeroExtended : Prop :=
  ∀ (i : Instr) (s : State), i ≠ .tofloat →
    ∃ e r, exec i s = completed s e r ∧ r.toNat < 2 ^ 32

/-- 00_scope.md R4, 60_exceptions.md R220: a command that records RANGE returns one of the two sentinels, one that records
DOMAIN returns 0. -/
def Obligations.RecordedErrorsReturnSentinels : Prop :=
  ∀ (i : Instr) (s : State), i ≠ .errset → s.err = 0#2 →
    ∃ e r, exec i s = completed s e r ∧ (e = 1#2 → r = 0x7FFFFFFF#64 ∨ r = 0x80000001#64) ∧ (e = 2#2 → r = 0#64)

/-- 44_error_access.md R200. -/
def Obligations.ErrgetReadsCode : Prop :=
  encode .errget = 0x00000030#32 ∧ ∀ s : State, exec .errget s = completed s s.err (s.err.setWidth 64)

/-- 44_error_access.md R201. -/
def Obligations.ErrsetStoresCode : Prop :=
  encode .errset = 0x00000031#32 ∧ ∀ s : State, exec .errset s = completed s (s.opa.extractLsb' 0 2) 0#64

/-! ## The fixed-point core -/

/-- 40_fixed_point_core.md R103. -/
def Obligations.FromintShiftsAndWraps : Prop :=
  encode .fromint = 0x00000001#32 ∧
  ∀ s : State, exec .fromint s = completedInt s s.err (operandA s * 2 ^ 16) ∧
    exec .fromint s = completed s s.err ((s.opa.extractLsb' 0 16 ++ 0#16).setWidth 64)

/-- 40_fixed_point_core.md R104: the pseudocode, that it rounds halves toward `+∞`, and that it never wraps. -/
def Obligations.TointRoundsHalvesUp : Prop :=
  encode .toint = 0x00000002#32 ∧
  ∀ s : State,
    let v := operandA s / 2 ^ 16 + (if s.opa.getLsbD 15 then 1 else 0)
    exec .toint s = completedInt s s.err v ∧ v = ⌊(operandA s : ℚ) / 2 ^ 16 + 1 / 2⌋ ∧ -32768 ≤ v ∧ v ≤ 32768

/-- 40_fixed_point_core.md R100, R105: a NaN gives `NAN_RESULT` with ERR unchanged, and a value past a threshold, an
infinity included, gives the sentinel of its sign with RANGE. -/
def Obligations.FromfloatSaturates : Prop :=
  encode .fromfloat = 0x00000003#32 ∧
  ∀ s : State,
    (operandFin s = .nan → exec .fromfloat s = completed s s.err (Config.nanResult.setWidth 64)) ∧
    (operandFin s = .inf false ∨ 32767 < b64Value (operandFin s) →
      exec .fromfloat s = completed s 1#2 0x7FFFFFFF#64) ∧
    (operandFin s = .inf true ∨ b64Value (operandFin s) < -32767 →
      exec .fromfloat s = completed s 1#2 0x80000001#64)

/-- 40_fixed_point_core.md R102: the closed form on every finite value between the thresholds, with the one exception. -/
def Obligations.FromfloatRoundsHalfAway : Prop :=
  ∀ (s : State) (neg : Bool) (m : Nat) (e : Int), operandFin s = .fin neg m e → |b64Value (operandFin s)| ≤ 32767 →
    let r := 65536 * b64Value (operandFin s)
    (|r| ≠ 1 / 2 - 1 / 2 ^ 54 → exec .fromfloat s = completedInt s s.err (rha r)) ∧
    (r = 1 / 2 - 1 / 2 ^ 54 → exec .fromfloat s = completedInt s s.err 1 ∧ rha r = 0) ∧
    (r = -(1 / 2 - 1 / 2 ^ 54) → exec .fromfloat s = completedInt s s.err (-1) ∧ rha r = 0)

/-- 40_fixed_point_core.md R101, R106: the exact value, and `+0.0` for zero. -/
def Obligations.TofloatExact : Prop :=
  encode .tofloat = 0x00000004#32 ∧
  ∀ s : State, ∃ d, exec .tofloat s = completed s s.err d ∧
    (∃ neg m e, b64OfBits d = .fin neg m e) ∧ b64Value (b64OfBits d) = (operandA s : ℚ) / 2 ^ 16 ∧
    (operandA s = 0 → d = 0#64)

/-- 40_fixed_point_core.md R107: the exact sum where it fits, else the sentinel of its sign with RANGE; and the sign tests
of the pseudocode fire exactly there. -/
def Obligations.AddSaturates : Prop :=
  encode .add = 0x00000005#32 ∧
  ∀ s : State,
    let v := operandA s + operandB s
    let r := (BitVec.ofInt 32 v).toInt
    (-2 ^ 31 ≤ v ∧ v < 2 ^ 31 → exec .add s = completedInt s s.err v) ∧
    (2 ^ 31 ≤ v → exec .add s = completed s 1#2 0x7FFFFFFF#64) ∧
    (v < -2 ^ 31 → exec .add s = completed s 1#2 0x80000001#64) ∧
    (0 ≤ r ∧ operandA s < 0 ∧ operandB s < 0 ↔ v < -2 ^ 31) ∧
    (r < 0 ∧ 0 < operandA s ∧ 0 < operandB s ↔ 2 ^ 31 ≤ v)

/-- 40_fixed_point_core.md R108: the exact difference where it fits, else the sentinel of its sign with RANGE, but for
`0 - 0x80000000`, which wraps; and the sign tests of the pseudocode fire exactly there. -/
def Obligations.SubSaturates : Prop :=
  encode .sub = 0x00000006#32 ∧
  ∀ s : State,
    let v := operandA s - operandB s
    let r := (BitVec.ofInt 32 v).toInt
    (-2 ^ 31 ≤ v ∧ v < 2 ^ 31 → exec .sub s = completedInt s s.err v) ∧
    (2 ^ 31 ≤ v ∧ operandA s ≠ 0 → exec .sub s = completed s 1#2 0x7FFFFFFF#64) ∧
    (2 ^ 31 ≤ v ∧ operandA s = 0 → exec .sub s = completed s s.err 0x80000000#64) ∧
    (v < -2 ^ 31 → exec .sub s = completed s 1#2 0x80000001#64) ∧
    (0 ≤ r ∧ operandA s < 0 ∧ 0 < operandB s ↔ v < -2 ^ 31) ∧
    (r < 0 ∧ 0 < operandA s ∧ operandB s < 0 ↔ 2 ^ 31 ≤ v ∧ operandA s ≠ 0)

/-- 40_fixed_point_core.md R109. -/
def Obligations.ShlWraps : Prop :=
  ∀ sh : BitVec 5, encode (.shl sh) = BitVec.ofNat 32 (0x07 + 2 ^ 8 * sh.toNat) ∧
    ∀ s : State, exec (.shl sh) s = completedInt s s.err (operandA s * 2 ^ sh.toNat)

/-- 40_fixed_point_core.md R110. -/
def Obligations.ShrFloors : Prop :=
  ∀ sh : BitVec 5, encode (.shr sh) = BitVec.ofNat 32 (0x08 + 2 ^ 8 * sh.toNat) ∧
    ∀ s : State, exec (.shr sh) s = completedInt s s.err ⌊(operandA s : ℚ) / 2 ^ sh.toNat⌋

/-- 40_fixed_point_core.md R111, 4: TOINT of FROMINT of `n` is `n`, the host passing the result on. -/
def Obligations.IntegerRoundTrip : Prop :=
  ∀ s : State, -32768 ≤ operandA s → operandA s ≤ 32767 →
    ∃ t r, exec .fromint s = .next t ∧ t.response = some r ∧
      exec .toint { t with opa := r.res } = completedInt { t with opa := r.res } s.err (operandA s)

/-- 40_fixed_point_core.md R111, 5: FROMFLOAT of TOFLOAT of `v` is `v` up to the conversion limit, and saturates with
RANGE beyond it. -/
def Obligations.FloatRoundTrip : Prop :=
  ∀ s : State, ∃ t r, exec .tofloat s = .next t ∧ t.response = some r ∧
    (|operandA s| ≤ 0x7FFF0000 →
      exec .fromfloat { t with opa := r.res } = completedInt { t with opa := r.res } s.err (operandA s)) ∧
    (0x7FFF0000 < operandA s →
      exec .fromfloat { t with opa := r.res } = completed { t with opa := r.res } 1#2 0x7FFFFFFF#64) ∧
    (operandA s < -0x7FFF0000 →
      exec .fromfloat { t with opa := r.res } = completed { t with opa := r.res } 1#2 0x80000001#64)

/-! ## Multiply and divide -/

/-- 41_multiplicative_core.md R131: the closed form equals the binary64 pipeline that `exec .mul` runs, on every operand
pair. -/
def Obligations.MulClosedForm : Prop :=
  encode .mul = 0x00000010#32 ∧
  ∀ s : State,
    let p := operandA s * operandB s
    (32767 * 2 ^ 32 < p → exec .mul s = completed s 1#2 0x7FFFFFFF#64) ∧
    (p < -(32767 * 2 ^ 32) → exec .mul s = completed s 1#2 0x80000001#64) ∧
    (|p| ≤ 32767 * 2 ^ 32 → exec .mul s = completedInt s s.err (rha ((p : ℚ) / 2 ^ 16)))

/-- 41_multiplicative_core.md R132, R133: division by zero, the binary64 pipeline of R132, and the closed form of R133 equal
to it on every other operand pair. -/
def Obligations.DivClosedForm : Prop :=
  encode .div = 0x00000011#32 ∧
  ∀ s : State,
    let q : ℚ := (operandA s : ℚ) / operandB s
    (operandB s = 0 ∧ operandA s < 0 → exec .div s = completed s 1#2 0x80000001#64) ∧
    (operandB s = 0 ∧ 0 ≤ operandA s → exec .div s = completed s 1#2 0x7FFFFFFF#64) ∧
    (operandB s ≠ 0 → exec .div s =
      answer (fromFloatCore (b64Div (toFloatCore (operandA s)) (toFloatCore (operandB s)))) s) ∧
    (operandB s ≠ 0 ∧ 32767 < q → exec .div s = completed s 1#2 0x7FFFFFFF#64) ∧
    (operandB s ≠ 0 ∧ q < -32767 → exec .div s = completed s 1#2 0x80000001#64) ∧
    (operandB s ≠ 0 ∧ |q| ≤ 32767 → exec .div s = completedInt s s.err (rha (65536 * q)))

/-- 40_fixed_point_core.md R111, 3, 41_multiplicative_core.md R134, 1, 43_computed_functions.md R186: ADD, MUL and HYPOT
are commutative in result and ERR effect. -/
def Obligations.AddMulHypotCommute : Prop :=
  ∀ (i : Instr) (s : State) (a b : Word), i = .add ∨ i = .mul ∨ i = .hypot →
    let s1 := { s with opa := a.setWidth 64, opb := b }
    let s2 := { s with opa := b.setWidth 64, opb := a }
    ∃ e r, exec i s1 = completed s1 e r ∧ exec i s2 = completed s2 e r

/-- 41_multiplicative_core.md R134, 5: neither MUL nor DIV returns `0x80000000`. -/
def Obligations.MulDivNeverSmallestWord : Prop :=
  ∀ (i : Instr) (s : State), i = .mul ∨ i = .div → ∃ e r, exec i s = completed s e r ∧ r ≠ 0x80000000#64

/-! ## Table functions -/

/-- 20_memory.md R41: the word of COS_ROM at index `i` is the integer nearest to 65536 times the cosine of `i/512` of a
full turn, with no tie. -/
def Obligations.CosRomEntriesAreCosines : Prop :=
  State.reset.cosRom.words.length = 512 ∧
  ∀ (i : Nat) (w : Word), State.reset.cosRom.words[i]? = some w →
    |(w.toInt : ℝ) - 65536 * Real.cos (2 * Real.pi * i / 512)| < 1 / 2

/-- 42_table_functions.md R150, R151. -/
def Obligations.CosNearestEntry : Prop :=
  encode .cos = 0x00000020#32 ∧
  ∀ s : State, ∃ w : Word,
    s.cosRom.words[(⌊((operandA s : ℚ) + 0x4000) / 2 ^ 15⌋ % 512).toNat]? = some w ∧
    exec .cos s = completed s s.err (w.setWidth 64) ∧
    (RomsIntact s → -65536 ≤ w.toInt ∧ w.toInt ≤ 65536)

/-- 42_table_functions.md R152, with `SIN(x) = COS(wrap32(x − 0x400000))`. -/
def Obligations.SinNearestEntry : Prop :=
  encode .sin = 0x00000021#32 ∧
  ∀ s : State, ∃ w : Word,
    let back : State := { s with opa := (s.opa.extractLsb' 0 32 - 0x00400000#32).setWidth 64 }
    s.cosRom.words[(⌊((operandA s : ℚ) - 0x400000 + 0x4000) / 2 ^ 15⌋ % 512).toNat]? = some w ∧
    exec .sin s = completed s s.err (w.setWidth 64) ∧ exec .cos back = completed back s.err (w.setWidth 64)

/-- 42_table_functions.md R150, R153; with the ROM intact index 128 gives `SAT_POS`, and no index gives `SAT_NEG`. -/
def Obligations.TanNearestEntry : Prop :=
  encode .tan = 0x00000022#32 ∧
  ∀ s : State, ∃ w : Word,
    s.tanRom.words[(⌊((operandA s : ℚ) + 0x4000) / 2 ^ 15⌋ % 256).toNat]? = some w ∧
    exec .tan s = completed s s.err (w.setWidth 64) ∧
    (RomsIntact s → w ≠ 0x80000001#32 ∧ (⌊((operandA s : ℚ) + 0x4000) / 2 ^ 15⌋ % 256 = 128 → w = 0x7FFFFFFF#32))

/-- 42_table_functions.md R154, R155. -/
def Obligations.AcosDomainOrEntry : Prop :=
  encode .acos = 0x00000023#32 ∧
  ∀ s : State,
    (operandA s < -65536 ∨ 65536 < operandA s → exec .acos s = completed s 2#2 0#64) ∧
    (-65536 ≤ operandA s ∧ operandA s ≤ 65536 → ∃ w : Word,
      s.acosRom.words[⌊((operandA s : ℚ) + 65536 + 127) / 2 ^ 8⌋.toNat]? = some w ∧
      exec .acos s = completed s s.err (w.setWidth 64) ∧ (RomsIntact s → 0 ≤ w.toInt ∧ w.toInt ≤ 0x00800000))

/-- 42_table_functions.md R154, R156. -/
def Obligations.AsinDomainOrComplement : Prop :=
  encode .asin = 0x00000024#32 ∧
  ∀ s : State,
    (operandA s < -65536 ∨ 65536 < operandA s → exec .asin s = completed s 2#2 0#64) ∧
    (-65536 ≤ operandA s ∧ operandA s ≤ 65536 → ∃ w : Word,
      s.acosRom.words[⌊((operandA s : ℚ) + 65536 + 127) / 2 ^ 8⌋.toNat]? = some w ∧
      exec .asin s = completedInt s s.err (0x00400000 - w.toInt) ∧
      (RomsIntact s → -0x00400000 ≤ 0x00400000 - w.toInt ∧ 0x00400000 - w.toInt ≤ 0x00400000))

/-- 42_table_functions.md R157, 1: arcsine and arccosine of a valid operand add up to the quarter turn exactly. -/
def Obligations.AsinAcosComplementary : Prop :=
  ∀ s : State, RomsIntact s → -65536 ≤ operandA s → operandA s ≤ 65536 →
    ∃ v w : Word, exec .acos s = completed s s.err (v.setWidth 64) ∧ exec .asin s = completed s s.err (w.setWidth 64) ∧
      w.toInt + v.toInt = 0x00400000

/-- 42_table_functions.md R152, R157, 2 and 3: SIN is COS a quarter turn back, COS has the full turn as a period and TAN
the half turn, with the angle wrapped to 32 bits. -/
def Obligations.AngleShiftLaws : Prop :=
  ∀ (s : State) (x : Word),
    let at_ (y : Word) : State := { s with opa := y.setWidth 64 }
    (∃ r, exec .sin (at_ x) = completed (at_ x) s.err r ∧
      exec .cos (at_ (x - 0x00400000#32)) = completed (at_ (x - 0x00400000#32)) s.err r) ∧
    (∃ r, exec .cos (at_ x) = completed (at_ x) s.err r ∧
      exec .cos (at_ (x + 0x01000000#32)) = completed (at_ (x + 0x01000000#32)) s.err r) ∧
    (∃ r, exec .tan (at_ x) = completed (at_ x) s.err r ∧
      exec .tan (at_ (x + 0x00800000#32)) = completed (at_ (x + 0x00800000#32)) s.err r)

/-- 42_table_functions.md R157, 7: every ROM word can be observed through a command. -/
def Obligations.RomWordsObservable : Prop :=
  ∀ (s : State) (i : Nat) (w : Word),
    let at_ (x : Int) : State := { s with opa := (BitVec.ofInt 32 x).setWidth 64 }
    (s.cosRom.words[i]? = some w → exec .cos (at_ (i * 0x8000)) = completed (at_ (i * 0x8000)) s.err (w.setWidth 64)) ∧
    (s.tanRom.words[i]? = some w → exec .tan (at_ (i * 0x8000)) = completed (at_ (i * 0x8000)) s.err (w.setWidth 64)) ∧
    (s.acosRom.words[i]? = some w →
      exec .acos (at_ (256 * i - 65536)) = completed (at_ (256 * i - 65536)) s.err (w.setWidth 64))

/-! ## Computed functions -/

/-- 43_computed_functions.md R180 to R182: ATAN returns the real arctangent in binary angle units, rounded to the nearest
unit up to `2^-20` of one, records nothing, and stays in the range R182 gives. The bound `2^-20` is this statement's own,
no rule's; it holds for either choice of `Config.arctanRoundsUp` (log 10). -/
def Obligations.AtanNearestAngle : Prop :=
  encode .atan = 0x00000028#32 ∧
  ∀ s : State, ∃ w : Word, exec .atan s = completed s s.err (w.setWidth 64) ∧
    |(w.toInt : ℝ) - 2 ^ 23 / Real.pi * Real.arctan ((operandA s : ℝ) / 2 ^ 16)| ≤ 1 / 2 + 1 / 2 ^ 20 ∧
    -0x003FFFAF ≤ w.toInt ∧ w.toInt ≤ 0x003FFFAF

/-- 43_computed_functions.md R180, R181, R183: ATAN2 of `y` and `x` returns 0 for the origin, else the argument of the
point `(x, y)`, in `(-π, π]`, in binary angle units, rounded to the nearest unit up to `2^-20` of one; it records
nothing. The bound `2^-20` is this statement's own, no rule's; it holds for either choice of `Config.arctanRoundsUp`
(log 10). -/
def Obligations.Atan2NearestAngle : Prop :=
  encode .atan2 = 0x00000029#32 ∧
  ∀ s : State,
    (operandA s = 0 ∧ operandB s = 0 → exec .atan2 s = completed s s.err 0#64) ∧
    (¬ (operandA s = 0 ∧ operandB s = 0) → ∃ w : Word, exec .atan2 s = completed s s.err (w.setWidth 64) ∧
      |(w.toInt : ℝ) - 2 ^ 23 / Real.pi * Complex.arg ⟨(operandB s : ℝ), (operandA s : ℝ)⟩| ≤ 1 / 2 + 1 / 2 ^ 20 ∧
      -0x00800000 ≤ w.toInt ∧ w.toInt ≤ 0x00800000)

/-- 43_computed_functions.md R181: where the two ends of the enclosure round alike, `atan_cr` is the correctly rounded
arctangent, and `atan2_cr` the correctly rounded argument of the point: no binary64 value is nearer to it. The enclosure is
the model's method (DESIGN CHOICE, log 10), and that it decides is a hypothesis here; where it does not, the choice is
free. -/
def Obligations.AtanCorrectlyRounded : Prop :=
  (∀ (neg : Bool) (m : Nat) (e : Int), m ≠ 0 → Canonical m e →
    roundedBelow neg (m * 2 ^ e.toNat) (2 ^ (-e).toNat) false = roundedAbove neg (m * 2 ^ e.toNat) (2 ^ (-e).toNat) false →
    ∀ (sgn : Bool) (n : Nat) (f : Int), Canonical n f →
      |((b64Value (atanCr (.fin neg m e)) : ℚ) : ℝ) - Real.arctan ((b64Value (.fin neg m e) : ℚ) : ℝ)| ≤
        |((b64Value (.fin sgn n f) : ℚ) : ℝ) - Real.arctan ((b64Value (.fin neg m e) : ℚ) : ℝ)|) ∧
  (∀ (sy sx : Bool) (m n : Nat) (e f : Int), Canonical m e → Canonical n f → m ≠ 0 ∨ (sy = false ∧ n ≠ 0) →
    roundedBelow sy (m * 2 ^ (e - f).toNat) (n * 2 ^ (f - e).toNat) sx =
      roundedAbove sy (m * 2 ^ (e - f).toNat) (n * 2 ^ (f - e).toNat) sx →
    ∀ (sgn : Bool) (k : Nat) (g : Int), Canonical k g →
      let θ : ℝ := Complex.arg ⟨((b64Value (.fin sx n f) : ℚ) : ℝ), ((b64Value (.fin sy m e) : ℚ) : ℝ)⟩
      |((b64Value (atan2Cr (.fin sy m e) (.fin sx n f)) : ℚ) : ℝ) - θ| ≤ |((b64Value (.fin sgn k g) : ℚ) : ℝ) - θ|)

/-- 43_computed_functions.md R184, R185: DOMAIN and 0 for a negative operand, else the binary64 pipeline of R184, and the
closed form of R185 equal to it: the integer nearest `256·√A`, never a tie. -/
def Obligations.SqrtClosedForm : Prop :=
  encode .sqrt = 0x0000002A#32 ∧
  ∀ s : State,
    (operandA s < 0 → exec .sqrt s = completed s 2#2 0#64) ∧
    (0 ≤ operandA s →
      let v : Nat := (Nat.sqrt (2 ^ 18 * (operandA s).toNat) + 1) / 2
      exec .sqrt s = answer (fromFloatCore (b64Sqrt (toFloatCore (operandA s)))) s ∧
      exec .sqrt s = completedInt s s.err v ∧ v ≤ 0x00B504F3 ∧ |(v : ℝ) - 256 * √(operandA s : ℝ)| < 1 / 2)

/-- 43_computed_functions.md R186: HYPOT's binary64 pipeline: the computed hypotenuse is finite and not negative; past
32767.0 it saturates with RANGE, else it is converted as 40_fixed_point_core.md R100 says. -/
def Obligations.HypotPipeline : Prop :=
  encode .hypot = 0x0000002B#32 ∧
  ∀ s : State,
    let h := hypotFloat (operandA s) (operandB s)
    (∃ neg m e, h = .fin neg m e) ∧ 0 ≤ b64Value h ∧
    (32767 < b64Value h → exec .hypot s = completed s 1#2 0x7FFFFFFF#64) ∧
    (b64Value h ≤ 32767 →
      exec .hypot s = completedInt s s.err (b64Trunc (b64Add (b64Mul h scaleFactor) half)))

/-- 43_computed_functions.md R187: away from every half-integer and from the limit, HYPOT is the real hypotenuse in raw
units, rounded to the nearest integer, or the sentinel. -/
def Obligations.HypotClosedForm : Prop :=
  ∀ s : State,
    let h : ℝ := √((operandA s : ℝ) ^ 2 + (operandB s : ℝ) ^ 2)
    (∀ k : ℤ, 1 / 2 ^ 20 < |h - (k + 1 / 2)|) → 1 / 2 ^ 20 < |h - 0x7FFF0000| →
    (0x7FFF0000 < h → exec .hypot s = completed s 1#2 0x7FFFFFFF#64) ∧
    (h ≤ 0x7FFF0000 → exec .hypot s = completedInt s s.err ⌊h + 1 / 2⌋)

/-- 43_computed_functions.md R186, corner cases: with one leg zero HYPOT is the other's magnitude, or saturates. -/
def Obligations.HypotOfOneLeg : Prop :=
  ∀ s : State, operandB s = 0 →
    (|operandA s| ≤ 0x7FFF0000 → exec .hypot s = completedInt s s.err |operandA s|) ∧
    (0x7FFF0000 < |operandA s| → exec .hypot s = completed s 1#2 0x7FFFFFFF#64)

/-! ## The floating domain -/

/-- 00_scope.md R8: `fl` of a ratio is a nearest binary64 value, the one with the even significand at a tie. -/
def Obligations.RoundingIsNearestEven : Prop :=
  ∀ (neg : Bool) (p q : Nat), 0 < q → (p : ℚ) / q ≤ 2 ^ 64 →
    ∃ m e, flRatio neg p q = .fin neg m e ∧ Canonical m e ∧
      ∀ (n : Nat) (f : Int), Canonical n f →
        |(m : ℚ) * 2 ^ e - (p : ℚ) / q| ≤ |(n : ℚ) * 2 ^ f - (p : ℚ) / q| ∧
        (|(m : ℚ) * 2 ^ e - (p : ℚ) / q| = |(n : ℚ) * 2 ^ f - (p : ℚ) / q| → (m : ℚ) * 2 ^ e ≠ (n : ℚ) * 2 ^ f →
          m % 2 = 0)

/-- 00_scope.md R8: the binary64 layout, sign `d[63]`, biased exponent `d[62:52]`, fraction `d[51:0]`, and that encoding a
decoded word gives the word back. -/
def Obligations.Binary64Layout : Prop :=
  ∀ d : DWord,
    let sgn : ℚ := if d.toNat / 2 ^ 63 = 1 then -1 else 1
    let ex : Nat := d.toNat / 2 ^ 52 % 2 ^ 11
    let frac : Nat := d.toNat % 2 ^ 52
    (ex = 2047 ∧ frac ≠ 0 → b64OfBits d = .nan) ∧
    (ex = 2047 ∧ frac = 0 → b64OfBits d = .inf (decide (d.toNat / 2 ^ 63 = 1))) ∧
    (ex < 2047 → ∃ neg m e, b64OfBits d = .fin neg m e ∧ Canonical m e) ∧
    (0 < ex ∧ ex < 2047 → b64Value (b64OfBits d) = sgn * (1 + (frac : ℚ) / 2 ^ 52) * 2 ^ ((ex : Int) - 1023)) ∧
    (ex = 0 → b64Value (b64OfBits d) = sgn * ((frac : ℚ) / 2 ^ 52) * 2 ^ (-1022 : Int)) ∧
    (b64OfBits d ≠ .nan → b64ToBits (b64OfBits d) = d)

/-! ## The host's side -/

/-- 20_memory.md R47: a 64-bit port split in halves or bytes is little-endian, and its halves join to it. -/
def Obligations.PortSplitLittleEndian : Prop :=
  ∀ d : DWord, joinHalves (lowHalf d) (highHalf d) = d ∧ (lowHalf d).toNat = d.toNat % 2 ^ 32 ∧
    (highHalf d).toNat = d.toNat / 2 ^ 32 ∧
    ∀ k : Nat, k < 8 → (bytesOfPort d)[k]? = some (BitVec.ofNat 8 (d.toNat / 2 ^ (8 * k)))

/-- 30_encoding.md R78: an assembled command's word decodes to that command, the first operand stands on OPA and the second
on OPB, and the unused ports are 0: OPB with fewer than two operands, OPA with none. -/
def Obligations.AssembledCommandDecodes : Prop :=
  ∀ (results : List DWord) (i : Instr) (operands : List AsmOperand) (t : Transaction),
    assemble results (.command i operands) = some t →
    decode t.cmd = .ok i ∧ (operands.length < 2 → t.opb = 0#32) ∧ (operands = [] → t.opa = 0#64) ∧
    (i = .fromfloat → ∀ a rest, operands = a :: rest → floatOperand results a = some t.opa) ∧
    (i ≠ .fromfloat → ∀ a rest, operands = a :: rest → ∃ x, wordOperand results a = some x ∧ t.opa = x.setWidth 64) ∧
    (∀ a b rest, operands = a :: b :: rest → wordOperand results b = some t.opb)

/-- 30_encoding.md R79: the pseudo-instructions issue the transactions of the commands they expand to. -/
def Obligations.PseudoInstructionsExpand : Prop :=
  assemble [] (expand .errclr) = some ⟨0x00000031#32, 0#64, 0#32⟩ ∧
  ∀ (x y : Word) (n : BitVec 5) (d : DWord),
    assemble [] (expand (.plus (.hex x) (.hex y))) = some ⟨0x00000005#32, x.setWidth 64, y⟩ ∧
    assemble [] (expand (.minus (.hex x) (.hex y))) = some ⟨0x00000006#32, x.setWidth 64, y⟩ ∧
    assemble [] (expand (.times (.hex x) (.hex y))) = some ⟨0x00000010#32, x.setWidth 64, y⟩ ∧
    assemble [] (expand (.over (.hex x) (.hex y))) = some ⟨0x00000011#32, x.setWidth 64, y⟩ ∧
    assemble [] (expand (.shiftLeft (.hex x) n)) = some ⟨encode (.shl n), x.setWidth 64, 0#32⟩ ∧
    assemble [] (expand (.shiftRight (.hex x) n)) = some ⟨encode (.shr n), x.setWidth 64, 0#32⟩ ∧
    assemble [] (expand (.ofInteger (.hex x))) = some ⟨0x00000001#32, x.setWidth 64, 0#32⟩ ∧
    assemble [] (expand (.ofFloating (.b64 d))) = some ⟨0x00000003#32, d, 0#32⟩ ∧
    assemble [] (expand (.toInteger (.hex x))) = some ⟨0x00000002#32, x.setWidth 64, 0#32⟩ ∧
    assemble [] (expand (.toFloating (.hex x))) = some ⟨0x00000004#32, x.setWidth 64, 0#32⟩
end

