-- ==== Sys2Proof/Laws/Binary64.lean ====
section
/-! SUPPORT. What the binary64 operations do, said once: rounding is nearest, exact where it can be, and never crosses a
binary64 value. Later proofs cite these lemmas and do not unfold `flRatio`. -/

namespace Sys2Proof.Machine

/-! ## Powers of two with an integer exponent -/

theorem two_zpow_eq_div (e : Int) : (2 : ℚ) ^ e = 2 ^ e.toNat / 2 ^ (-e).toNat := by
  rcases le_total 0 e with h | h
  · obtain ⟨n, rfl⟩ := Int.eq_ofNat_of_zero_le h
    simp
  · obtain ⟨n, hn⟩ := Int.eq_ofNat_of_zero_le (neg_nonneg.mpr h)
    obtain rfl : e = -(n : Int) := by omega
    simp

theorem two_zpow_pos (e : Int) : (0 : ℚ) < 2 ^ e := zpow_pos (by norm_num) e

theorem two_zpow_le {a b : Int} (h : a ≤ b) : (2 : ℚ) ^ a ≤ 2 ^ b := zpow_le_zpow_right₀ (by norm_num) h

/-- A ratio scaled by `2^-e`, as the ratio of naturals that the rounding forms. -/
theorem scaled_ratio (p q : Nat) (hq : 0 < q) (e : Int) :
    ((p * 2 ^ (-e).toNat : Nat) : ℚ) / ((q * 2 ^ e.toNat : Nat) : ℚ) = (p / q : ℚ) / 2 ^ e := by
  have hq' : (q : ℚ) ≠ 0 := by positivity
  rw [two_zpow_eq_div]
  push_cast
  field_simp

/-! ## Rounding a ratio to a natural -/

/-- Twice the rounded ratio is within the divisor of twice the dividend. -/
theorem roundHalfEven_within (n d : Nat) (hd : 0 < d) :
    2 * n ≤ 2 * (d * roundHalfEven n d) + d ∧ 2 * (d * roundHalfEven n d) ≤ 2 * n + d := by
  have hn := Nat.div_add_mod n d
  have hr := Nat.mod_lt n hd
  unfold roundHalfEven
  generalize n / d = f at *
  generalize n % d = r at *
  have hs : d * (f + 1) = d * f + d := by ring
  dsimp only
  split_ifs with h1 h2
  · omega
  · omega
  · rcases Nat.mod_two_eq_zero_or_one f with h | h <;> rw [h] <;> simp only [hs, Nat.add_zero] <;> omega

theorem roundHalfEven_error (n d : Nat) (hd : 0 < d) : |(roundHalfEven n d : ℚ) - n / d| ≤ 1 / 2 := by
  have hd' : (0 : ℚ) < d := by exact_mod_cast hd
  obtain ⟨h1, h2⟩ := roundHalfEven_within n d hd
  have h1' : 2 * (n : ℚ) ≤ 2 * (d * roundHalfEven n d) + d := by exact_mod_cast h1
  have h2' : 2 * (d * roundHalfEven n d : ℚ) ≤ 2 * n + d := by exact_mod_cast h2
  have hx : (n : ℚ) = n / d * d := by field_simp
  rw [abs_le]
  constructor <;> refine le_of_mul_le_mul_right ?_ hd' <;> nlinarith

/-- At an exact half the even neighbour is taken. -/
theorem roundHalfEven_even_of_tie (n d : Nat) (h : 2 * (n % d) = d) : roundHalfEven n d % 2 = 0 := by
  unfold roundHalfEven
  dsimp only
  rw [if_neg (by omega), if_neg (by omega)]
  omega

/-- Rounding does not pass a natural that lies above. -/
theorem roundHalfEven_le (n d k : Nat) (hd : 0 < d) (h : n ≤ d * k) : roundHalfEven n d ≤ k := by
  obtain ⟨-, h2⟩ := roundHalfEven_within n d hd
  by_contra hk
  have h3 : d * (k + 1) ≤ d * roundHalfEven n d := Nat.mul_le_mul_left d (by omega)
  have hs : d * (k + 1) = d * k + d := by ring
  omega

/-- Rounding does not pass a natural that lies below. -/
theorem le_roundHalfEven (n d k : Nat) (hd : 0 < d) (h : d * k ≤ n) : k ≤ roundHalfEven n d := by
  obtain ⟨h1, -⟩ := roundHalfEven_within n d hd
  by_contra hk
  have h3 : d * (roundHalfEven n d + 1) ≤ d * k := Nat.mul_le_mul_left d (by omega)
  have hs : d * (roundHalfEven n d + 1) = d * roundHalfEven n d + d := by ring
  omega

/-! ## The binade of a ratio -/

theorem floorLog2_spec (p q : Nat) (hp : 0 < p) (hq : 0 < q) :
    (2 : ℚ) ^ floorLog2 p q ≤ p / q ∧ (p / q : ℚ) < 2 ^ (floorLog2 p q + 1) := by
  have hq' : (0 : ℚ) < q := by exact_mod_cast hq
  have a1 : (2 : ℚ) ^ (Nat.log2 p : ℤ) ≤ p := by
    rw [zpow_natCast]; exact_mod_cast Nat.log2_self_le hp.ne'
  have a2 : (p : ℚ) < 2 ^ ((Nat.log2 p : ℤ) + 1) := by
    have := @Nat.lt_log2_self p
    rw [show ((Nat.log2 p : ℤ) + 1) = ((Nat.log2 p + 1 : ℕ) : ℤ) by push_cast; rfl, zpow_natCast]
    exact_mod_cast this
  have b1 : (2 : ℚ) ^ (Nat.log2 q : ℤ) ≤ q := by
    rw [zpow_natCast]; exact_mod_cast Nat.log2_self_le hq.ne'
  have b2 : (q : ℚ) < 2 ^ ((Nat.log2 q : ℤ) + 1) := by
    have := @Nat.lt_log2_self q
    rw [show ((Nat.log2 q : ℤ) + 1) = ((Nat.log2 q + 1 : ℕ) : ℤ) by push_cast; rfl, zpow_natCast]
    exact_mod_cast this
  have htest : ∀ d : ℤ, q * 2 ^ d.toNat ≤ p * 2 ^ (-d).toNat ↔ (2 : ℚ) ^ d ≤ p / q := by
    intro d
    rw [two_zpow_eq_div, div_le_div_iff₀ (by positivity) hq']
    constructor
    · intro h; have : ((q * 2 ^ d.toNat : ℕ) : ℚ) ≤ (p * 2 ^ (-d).toNat : ℕ) := by exact_mod_cast h
      push_cast at this; linarith
    · intro h; have : ((q * 2 ^ d.toNat : ℕ) : ℚ) ≤ (p * 2 ^ (-d).toNat : ℕ) := by push_cast; linarith
      exact_mod_cast this
  unfold floorLog2
  generalize (Nat.log2 p : ℤ) = l at *
  generalize (Nat.log2 q : ℤ) = m at *
  dsimp only
  split_ifs with h <;> rw [htest] at h
  · refine ⟨h, ?_⟩
    rw [div_lt_iff₀ hq']
    calc (p : ℚ) < 2 ^ (l + 1) := a2
      _ = 2 ^ (l - m + 1) * 2 ^ m := by rw [← zpow_add₀ (by norm_num)]; congr 1; ring
      _ ≤ 2 ^ (l - m + 1) * q := mul_le_mul_of_nonneg_left b1 (two_zpow_pos _).le
  · refine ⟨?_, by simpa using h⟩
    rw [le_div_iff₀ hq']
    calc (2 : ℚ) ^ (l - m - 1) * q ≤ 2 ^ (l - m - 1) * 2 ^ (m + 1) :=
          mul_le_mul_of_nonneg_left b2.le (two_zpow_pos _).le
      _ = 2 ^ l := by rw [← zpow_add₀ (by norm_num)]; congr 1; ring
      _ ≤ p := a1

theorem floorLog2_le_of_lt (p q : Nat) (hp : 0 < p) (hq : 0 < q) (k : Int) (h : (p / q : ℚ) < 2 ^ (k + 1)) :
    floorLog2 p q ≤ k := by
  have h1 := (floorLog2_spec p q hp hq).1
  have := (zpow_lt_zpow_iff_right₀ (by norm_num : (1 : ℚ) < 2)).mp (h1.trans_lt h)
  omega

theorem le_floorLog2_of_le (p q : Nat) (hp : 0 < p) (hq : 0 < q) (k : Int) (h : (2 : ℚ) ^ k ≤ p / q) :
    k ≤ floorLog2 p q := by
  have h1 := (floorLog2_spec p q hp hq).2
  have := (zpow_lt_zpow_iff_right₀ (by norm_num : (1 : ℚ) < 2)).mp (h.trans_lt h1)
  omega

/-! ## Rounding a ratio to binary64 -/

/-- The rounded significand of `p / q`, before a carry is moved to the exponent. -/
def roundedSignificand (p q : Nat) : Nat :=
  roundHalfEven (p * 2 ^ (-roundExponent p q).toNat) (q * 2 ^ (roundExponent p q).toNat)

theorem roundExponent_ge (p q : Nat) : -1074 ≤ roundExponent p q := by
  unfold roundExponent; split_ifs <;> omega

theorem roundExponent_eq (p q : Nat) (h : -1074 < roundExponent p q) : roundExponent p q = floorLog2 p q - 52 := by
  unfold roundExponent at *; split_ifs at * <;> omega

theorem floorLog2_le_roundExponent (p q : Nat) : floorLog2 p q ≤ roundExponent p q + 52 := by
  unfold roundExponent; split_ifs <;> omega

theorem ratio_lt_roundExponent (p q : Nat) (hp : 0 < p) (hq : 0 < q) :
    (p / q : ℚ) < 2 ^ (53 : ℕ) * 2 ^ roundExponent p q := by
  refine (floorLog2_spec p q hp hq).2.trans_le ?_
  rw [← zpow_natCast, ← zpow_add₀ (by norm_num)]
  exact two_zpow_le (by have := floorLog2_le_roundExponent p q; push_cast; omega)

theorem scaled_le_iff (p q k : Nat) (hq : 0 < q) (e : Int) :
    p * 2 ^ (-e).toNat ≤ q * 2 ^ e.toNat * k ↔ (p / q : ℚ) ≤ k * 2 ^ e := by
  have hq' : (0 : ℚ) < q := by exact_mod_cast hq
  rw [two_zpow_eq_div, ← mul_div_assoc, div_le_div_iff₀ hq' (by positivity)]
  constructor
  · intro h; have : ((p * 2 ^ (-e).toNat : ℕ) : ℚ) ≤ (q * 2 ^ e.toNat * k : ℕ) := by exact_mod_cast h
    push_cast at this; linarith
  · intro h
    have : ((p * 2 ^ (-e).toNat : ℕ) : ℚ) ≤ (q * 2 ^ e.toNat * k : ℕ) := by push_cast; linarith
    exact_mod_cast this

theorem le_scaled_iff (p q k : Nat) (hq : 0 < q) (e : Int) :
    q * 2 ^ e.toNat * k ≤ p * 2 ^ (-e).toNat ↔ (k * 2 ^ e : ℚ) ≤ p / q := by
  have hq' : (0 : ℚ) < q := by exact_mod_cast hq
  rw [two_zpow_eq_div, ← mul_div_assoc, div_le_div_iff₀ (by positivity) hq']
  constructor
  · intro h; have : ((q * 2 ^ e.toNat * k : ℕ) : ℚ) ≤ (p * 2 ^ (-e).toNat : ℕ) := by exact_mod_cast h
    push_cast at this; linarith
  · intro h
    have : ((q * 2 ^ e.toNat * k : ℕ) : ℚ) ≤ (p * 2 ^ (-e).toNat : ℕ) := by push_cast; linarith
    exact_mod_cast this

theorem roundedSignificand_le (p q : Nat) (hp : 0 < p) (hq : 0 < q) : roundedSignificand p q ≤ 2 ^ 53 := by
  refine roundHalfEven_le _ _ _ (by positivity) ((scaled_le_iff p q _ hq _).mpr ?_)
  exact_mod_cast (ratio_lt_roundExponent p q hp hq).le

theorem le_roundedSignificand (p q : Nat) (hp : 0 < p) (hq : 0 < q) (h : -1074 < roundExponent p q) :
    2 ^ 52 ≤ roundedSignificand p q := by
  refine le_roundHalfEven _ _ _ (by positivity) ((le_scaled_iff p q _ hq _).mpr ?_)
  refine le_trans (le_of_eq ?_) (floorLog2_spec p q hp hq).1
  rw [roundExponent_eq p q h, Nat.cast_pow, ← zpow_natCast, Nat.cast_ofNat, ← zpow_add₀ (by norm_num)]
  congr 1; push_cast; ring

/-- Without overflow, `flRatio` gives a canonical finite value, the rounded significand at the rounding exponent. -/
theorem flRatio_finite (neg : Bool) (p q : Nat) (hp : 0 < p) (hq : 0 < q) (hov : floorLog2 p q ≤ 1022) :
    ∃ m e, flRatio neg p q = .fin neg m e ∧ Canonical m e ∧
      (m : ℚ) * 2 ^ e = roundedSignificand p q * 2 ^ roundExponent p q := by
  have h1 := roundedSignificand_le p q hp hq
  have h2 := roundExponent_ge p q
  have h3 : roundExponent p q ≤ 970 := by unfold roundExponent; split_ifs <;> omega
  have h4 := le_roundedSignificand p q hp hq
  have hdef : flRatio neg p q = finishRound neg (roundedSignificand p q) (roundExponent p q) := by
    unfold flRatio roundedSignificand; rw [if_neg hp.ne']
  rw [hdef]
  unfold finishRound Canonical
  generalize roundedSignificand p q = m at *
  generalize roundExponent p q = e at *
  by_cases hm : m = 2 ^ 53
  · refine ⟨2 ^ 52, e + 1, by rw [if_pos hm, if_neg (by omega)], by norm_num; omega, ?_⟩
    rw [hm, zpow_add₀ (by norm_num)]; push_cast; ring
  · refine ⟨m, e, by rw [if_neg hm, if_neg (by omega)], ⟨by omega, h2, by omega, ?_⟩, rfl⟩
    by_cases he : e = -1074
    · exact .inr he
    · exact .inl (h4 (by omega))

/-- Rounding does not pass a binary64 value that lies above. -/
theorem flRatio_le (p q : Nat) (hp : 0 < p) (hq : 0 < q) (n : Nat) (f : Int) (hn : n ≤ 2 ^ 53) (hf : -1074 ≤ f)
    (h : (p / q : ℚ) ≤ n * 2 ^ f) : (roundedSignificand p q : ℚ) * 2 ^ roundExponent p q ≤ n * 2 ^ f := by
  by_cases hc : roundExponent p q ≤ f
  · obtain ⟨j, hj⟩ := Int.eq_ofNat_of_zero_le (sub_nonneg.mpr hc)
    have e1 : (n * 2 ^ f : ℚ) = ((n * 2 ^ j : ℕ) : ℚ) * 2 ^ roundExponent p q := by
      rw [show f = j + roundExponent p q by omega, zpow_add₀ (by norm_num), zpow_natCast]; push_cast; ring
    rw [e1] at h ⊢
    refine mul_le_mul_of_nonneg_right ?_ (two_zpow_pos _).le
    exact_mod_cast roundHalfEven_le _ _ _ (by positivity) ((scaled_le_iff p q _ hq _).mpr h)
  · have hlo : ((2 ^ 52 : ℕ) : ℚ) * 2 ^ roundExponent p q ≤ p / q := by
      refine le_trans (le_of_eq ?_) (floorLog2_spec p q hp hq).1
      rw [roundExponent_eq p q (by omega), Nat.cast_pow, ← zpow_natCast, Nat.cast_ofNat, ← zpow_add₀ (by norm_num)]
      congr 1; push_cast; ring
    have hhi : (n * 2 ^ f : ℚ) ≤ ((2 ^ 52 : ℕ) : ℚ) * 2 ^ roundExponent p q := by
      calc (n * 2 ^ f : ℚ) ≤ (2 ^ 53 : ℕ) * 2 ^ f :=
            mul_le_mul_of_nonneg_right (by exact_mod_cast hn) (two_zpow_pos _).le
        _ = (2 ^ 52 : ℕ) * 2 ^ (f + 1) := by rw [zpow_add₀ (by norm_num)]; push_cast; ring
        _ ≤ _ := mul_le_mul_of_nonneg_left (two_zpow_le (by omega)) (by positivity)
    refine le_trans ?_ (hlo.trans h)
    refine mul_le_mul_of_nonneg_right ?_ (two_zpow_pos _).le
    exact_mod_cast roundHalfEven_le _ _ _ (by positivity) ((scaled_le_iff p q _ hq _).mpr (h.trans hhi))

/-- Rounding does not pass a binary64 value that lies below. -/
theorem le_flRatio (p q : Nat) (hp : 0 < p) (hq : 0 < q) (n : Nat) (f : Int) (hn : n ≤ 2 ^ 53) (hf : -1074 ≤ f)
    (h : (n * 2 ^ f : ℚ) ≤ p / q) : (n * 2 ^ f : ℚ) ≤ roundedSignificand p q * 2 ^ roundExponent p q := by
  by_cases hc : roundExponent p q ≤ f
  · obtain ⟨j, hj⟩ := Int.eq_ofNat_of_zero_le (sub_nonneg.mpr hc)
    have e1 : (n * 2 ^ f : ℚ) = ((n * 2 ^ j : ℕ) : ℚ) * 2 ^ roundExponent p q := by
      rw [show f = j + roundExponent p q by omega, zpow_add₀ (by norm_num), zpow_natCast]; push_cast; ring
    rw [e1] at h ⊢
    refine mul_le_mul_of_nonneg_right ?_ (two_zpow_pos _).le
    exact_mod_cast le_roundHalfEven _ _ _ (by positivity) ((le_scaled_iff p q _ hq _).mpr h)
  · have h52 := le_roundedSignificand p q hp hq (by omega)
    calc (n * 2 ^ f : ℚ) ≤ (2 ^ 53 : ℕ) * 2 ^ f :=
          mul_le_mul_of_nonneg_right (by exact_mod_cast hn) (two_zpow_pos _).le
      _ = (2 ^ 52 : ℕ) * 2 ^ (f + 1) := by rw [zpow_add₀ (by norm_num)]; push_cast; ring
      _ ≤ (2 ^ 52 : ℕ) * 2 ^ roundExponent p q := mul_le_mul_of_nonneg_left (two_zpow_le (by omega)) (by positivity)
      _ ≤ _ := mul_le_mul_of_nonneg_right (by exact_mod_cast h52) (two_zpow_pos _).le

/-- A ratio that is a binary64 value is rounded to itself. -/
theorem flRatio_exact (p q : Nat) (hp : 0 < p) (hq : 0 < q) (n : Nat) (f : Int) (hn : n ≤ 2 ^ 53) (hf : -1074 ≤ f)
    (h : (p / q : ℚ) = n * 2 ^ f) : (roundedSignificand p q : ℚ) * 2 ^ roundExponent p q = n * 2 ^ f :=
  le_antisymm (flRatio_le p q hp hq n f hn hf h.le) (le_flRatio p q hp hq n f hn hf h.ge)

/-- The rounding error is at most half a unit in the last place. -/
theorem flRatio_error (p q : Nat) (hq : 0 < q) :
    |(roundedSignificand p q : ℚ) * 2 ^ roundExponent p q - p / q| ≤ 2 ^ roundExponent p q / 2 := by
  have h := roundHalfEven_error (p * 2 ^ (-roundExponent p q).toNat) (q * 2 ^ (roundExponent p q).toNat) (by positivity)
  rw [scaled_ratio p q hq] at h
  have h2 := two_zpow_pos (roundExponent p q)
  change |(roundedSignificand p q : ℚ) - _| ≤ _ at h
  calc |(roundedSignificand p q : ℚ) * 2 ^ roundExponent p q - p / q|
      = |(roundedSignificand p q : ℚ) - p / q / 2 ^ roundExponent p q| * 2 ^ roundExponent p q := by
        rw [← abs_of_pos h2, ← abs_mul, abs_of_pos h2, sub_mul, div_mul_cancel₀ _ h2.ne']
    _ ≤ 1 / 2 * 2 ^ roundExponent p q := mul_le_mul_of_nonneg_right h h2.le
    _ = _ := by ring

end Sys2Proof.Machine
end

