-- ==== Sys2Proof/Laws/Rounding.lean ====
section
/-! SUPPORT. The binary64 operations as roundings of exact rationals: one lemma per operation, in terms of values. -/

namespace Sys2Proof.Machine

/-! ## Values -/

@[simp] theorem b64Value_pos (m : Nat) (e : Int) : b64Value (.fin false m e) = m * 2 ^ e := rfl
@[simp] theorem b64Value_neg (m : Nat) (e : Int) : b64Value (.fin true m e) = -(m * 2 ^ e) := rfl

theorem b64Value_fin (neg : Bool) (m : Nat) (e : Int) :
    b64Value (.fin neg m e) = (if neg then -1 else 1) * ((m : ℚ) * 2 ^ e) := by
  cases neg <;> simp

/-- Finite, in canonical form. -/
def IsFinite (x : B64) : Prop := ∃ neg m e, x = .fin neg m e ∧ Canonical m e

/-- A rational that a significand of at most `2^53` and an exponent of the format write. -/
def Representable (y : ℚ) : Prop :=
  ∃ (n : Nat) (f : Int), n ≤ 2 ^ 53 ∧ -1074 ≤ f ∧ (y = n * 2 ^ f ∨ y = -(n * 2 ^ f))

theorem Representable.neg {y : ℚ} (h : Representable y) : Representable (-y) := by
  obtain ⟨n, f, hn, hf, h | h⟩ := h
  · exact ⟨n, f, hn, hf, .inr (by rw [h])⟩
  · exact ⟨n, f, hn, hf, .inl (by rw [h, neg_neg])⟩

theorem representable_mul_two_zpow (n : Int) (f : Int) (hn : n.natAbs ≤ 2 ^ 53) (hf : -1074 ≤ f) :
    Representable (n * 2 ^ f) := by
  refine ⟨n.natAbs, f, hn, hf, ?_⟩
  rcases Int.natAbs_eq n with h | h
  · left; conv_lhs => rw [h]
    simp
  · right; conv_lhs => rw [h]
    simp

theorem representable_int (n : Int) (hn : n.natAbs ≤ 2 ^ 53) : Representable n := by
  simpa using representable_mul_two_zpow n 0 hn (by norm_num)

theorem IsFinite.representable {x : B64} (h : IsFinite x) : Representable (b64Value x) := by
  obtain ⟨neg, m, e, rfl, hm, he, -, -⟩ := h
  refine ⟨m, e, hm.le, he, ?_⟩
  cases neg <;> simp

/-- `x` is a rounding of `r`: finite, on the same side as `r` of every binary64 value, and within half a unit in the last
place of the binade of `r`. -/
structure IsRounding (r : ℚ) (x : B64) : Prop where
  finite : IsFinite x
  le_of_le : ∀ y, Representable y → r ≤ y → b64Value x ≤ y
  ge_of_ge : ∀ y, Representable y → y ≤ r → y ≤ b64Value x
  error : ∀ k : Int, -1022 ≤ k → |r| < 2 ^ (k + 1) → |b64Value x - r| ≤ 2 ^ (k - 53)

/-- A representable rational is rounded to itself. -/
theorem IsRounding.exact {r : ℚ} {x : B64} (h : IsRounding r x) (hr : Representable r) : b64Value x = r :=
  le_antisymm (h.le_of_le r hr le_rfl) (h.ge_of_ge r hr le_rfl)

/-! ## `fl` -/

theorem b64Value_flRatio (neg : Bool) (p q : Nat) (hp : 0 < p) (hq : 0 < q) (hov : floorLog2 p q ≤ 1022) :
    b64Value (flRatio neg p q) = (if neg then -1 else 1) * ((roundedSignificand p q : ℚ) * 2 ^ roundExponent p q) := by
  obtain ⟨m, e, h, -, hv⟩ := flRatio_finite neg p q hp hq hov
  rw [h, b64Value_fin, hv]

theorem isRounding_zero (neg : Bool) : IsRounding 0 (.fin neg 0 (-1074)) := by
  have hv : b64Value (.fin neg 0 (-1074)) = 0 := by cases neg <;> simp
  refine ⟨⟨neg, 0, -1074, rfl, by unfold Canonical; norm_num⟩, ?_, ?_, ?_⟩
  · intro y _ h; rwa [hv]
  · intro y _ h; rwa [hv]
  · intro k _ _; rw [hv]; simpa using (two_zpow_pos (k - 53)).le

/-- Small enough not to overflow when rounded. -/
def BelowOverflow (r : ℚ) : Prop := |r| < 2 ^ (1022 + 1 : ℤ)

/-- What the core computes is far below overflow. -/
theorem belowOverflow_of_le {r : ℚ} (h : |r| ≤ 2 ^ 64) : BelowOverflow r := by
  have h2 : (2 : ℚ) ^ 64 < 2 ^ (1022 + 1 : ℤ) := by
    rw [← zpow_natCast]; exact zpow_lt_zpow_right₀ (by norm_num) (by norm_num)
  exact h.trans_lt h2

theorem BelowOverflow.mono {r s : ℚ} (h : BelowOverflow s) (hr : |r| ≤ |s|) : BelowOverflow r := hr.trans_lt h

theorem nonneg_of_representable {n : Nat} {f : Int} : (0 : ℚ) ≤ n * 2 ^ f := by positivity

/-- `flRatio` rounds the signed ratio. -/
theorem isRounding_flRatio (neg : Bool) (p q : Nat) (hq : 0 < q) (hov : BelowOverflow (p / q)) :
    IsRounding ((if neg then -1 else 1) * (p / q : ℚ)) (flRatio neg p q) := by
  rcases Nat.eq_zero_or_pos p with rfl | hp
  · simpa [flRatio] using isRounding_zero neg
  have hl : floorLog2 p q ≤ 1022 := floorLog2_le_of_lt p q hp hq 1022 ((le_abs_self _).trans_lt hov)
  have hv := b64Value_flRatio neg p q hp hq hl
  have hr : (0 : ℚ) ≤ p / q := by positivity
  obtain ⟨m, e, hfin, hcan, -⟩ := flRatio_finite neg p q hp hq hl
  have hup : ∀ y, Representable y → (p / q : ℚ) ≤ y → (roundedSignificand p q : ℚ) * 2 ^ roundExponent p q ≤ y := by
    rintro y ⟨n, f, hn, hf, rfl | rfl⟩ h
    · exact flRatio_le p q hp hq n f hn hf h
    · have : (0 : ℚ) < p / q := by positivity
      have := @nonneg_of_representable n f
      linarith
  have hdn : ∀ y, Representable y → y ≤ (p / q : ℚ) → y ≤ (roundedSignificand p q : ℚ) * 2 ^ roundExponent p q := by
    rintro y ⟨n, f, hn, hf, rfl | rfl⟩ h
    · exact le_flRatio p q hp hq n f hn hf h
    · have := @nonneg_of_representable n f
      have := @nonneg_of_representable (roundedSignificand p q) (roundExponent p q)
      linarith
  have herr : ∀ k : Int, -1022 ≤ k → (p / q : ℚ) < 2 ^ (k + 1) →
      |(roundedSignificand p q : ℚ) * 2 ^ roundExponent p q - p / q| ≤ 2 ^ (k - 53) := by
    intro k hk h
    have h1 := floorLog2_le_of_lt p q hp hq k h
    refine (flRatio_error p q hq).trans ?_
    have h2 : roundExponent p q ≤ k - 52 := by unfold roundExponent; split_ifs <;> omega
    calc (2 : ℚ) ^ roundExponent p q / 2 ≤ 2 ^ (k - 52) / 2 := by
          have := two_zpow_le h2; linarith
      _ = 2 ^ (k - 53) := by
          rw [show k - 52 = (k - 53) + 1 by ring, zpow_add₀ (by norm_num)]; norm_num
  refine ⟨⟨neg, m, e, hfin, hcan⟩, ?_, ?_, ?_⟩ <;> rw [hv] <;> cases neg
  · intro y hy h; simp at h ⊢; exact hup y hy h
  · intro y hy h; simp at h ⊢; linarith [hdn (-y) hy.neg (by linarith)]
  · intro y hy h; simp at h ⊢; exact hdn y hy h
  · intro y hy h; simp at h ⊢; linarith [hup (-y) hy.neg (by linarith)]
  · intro k hk h
    simp at h ⊢; rw [abs_of_nonneg hr] at h; exact herr k hk h
  · intro k hk h
    simp at h ⊢; rw [abs_of_nonneg hr] at h
    have := herr k hk h
    rwa [show -((roundedSignificand p q : ℚ) * 2 ^ roundExponent p q) + p / q
      = -((roundedSignificand p q : ℚ) * 2 ^ roundExponent p q - p / q) by ring, abs_neg]

theorem isRounding_flDyadic (neg : Bool) (m : Nat) (e : Int) (hov : BelowOverflow (m * 2 ^ e)) :
    IsRounding ((if neg then -1 else 1) * (m * 2 ^ e : ℚ)) (flDyadic neg m e) := by
  have h : ((m * 2 ^ e.toNat : ℕ) : ℚ) / ((2 ^ (-e).toNat : ℕ) : ℚ) = m * 2 ^ e := by
    rw [two_zpow_eq_div]; push_cast; ring
  rw [← h] at hov ⊢
  exact isRounding_flRatio neg _ _ (by positivity) hov

/-! ## The operations on finite values -/

theorem abs_le_abs_signed (c : Bool) (r : ℚ) : |r| ≤ |(if c then -1 else 1) * r| := by cases c <;> simp


theorem isRounding_mul (s t : Bool) (m n : Nat) (e f : Int)
    (hov : BelowOverflow (b64Value (.fin s m e) * b64Value (.fin t n f))) :
    IsRounding (b64Value (.fin s m e) * b64Value (.fin t n f)) (b64Mul (.fin s m e) (.fin t n f)) := by
  have h1 : b64Value (.fin s m e) * b64Value (.fin t n f)
      = (if s != t then -1 else 1) * (((m * n : ℕ) : ℚ) * 2 ^ (e + f)) := by
    rw [zpow_add₀ (by norm_num)]; cases s <;> cases t <;> simp <;> ring
  rw [h1] at hov ⊢
  exact isRounding_flDyadic _ _ _ (hov.mono (abs_le_abs_signed _ _))

theorem isRounding_div (s t : Bool) (m n : Nat) (e f : Int) (hn : n ≠ 0)
    (hov : BelowOverflow (b64Value (.fin s m e) / b64Value (.fin t n f))) :
    IsRounding (b64Value (.fin s m e) / b64Value (.fin t n f)) (b64Div (.fin s m e) (.fin t n f)) := by
  have hn' : (n : ℚ) ≠ 0 := by exact_mod_cast hn
  have h0 : ((m * 2 ^ (e - f).toNat : ℕ) : ℚ) / ((n * 2 ^ (f - e).toNat : ℕ) : ℚ) = m / n * 2 ^ (e - f) := by
    rw [two_zpow_eq_div, neg_sub]; push_cast; field_simp
  have h1 : b64Value (.fin s m e) / b64Value (.fin t n f)
      = (if s != t then -1 else 1) *
        (((m * 2 ^ (e - f).toNat : ℕ) : ℚ) / ((n * 2 ^ (f - e).toNat : ℕ) : ℚ)) := by
    rw [h0, zpow_sub₀ (by norm_num)]
    have := (two_zpow_pos f).ne'
    cases s <;> cases t <;> simp <;> field_simp
  rw [h1] at hov ⊢
  have hdef : b64Div (.fin s m e) (.fin t n f)
      = flRatio (s != t) (m * 2 ^ (e - f).toNat) (n * 2 ^ (f - e).toNat) := by
    simp only [b64Div, if_neg hn]
  rw [hdef]
  refine isRounding_flRatio _ _ _ (Nat.mul_pos (Nat.pos_of_ne_zero hn) (by positivity))
    (hov.mono (abs_le_abs_signed _ _))

theorem scaledTo_value (s : Bool) (m : Nat) (e g : Int) (h : g ≤ e) :
    (scaledTo s m e g : ℚ) * 2 ^ g = b64Value (.fin s m e) := by
  obtain ⟨j, hj⟩ := Int.eq_ofNat_of_zero_le (sub_nonneg.mpr h)
  have h1 : (2 : ℚ) ^ e = 2 ^ j * 2 ^ g := by
    rw [show e = j + g by omega, zpow_add₀ (by norm_num), zpow_natCast]
  unfold scaledTo
  rw [hj]
  cases s <;> simp [h1] <;> ring

theorem exactSum_value (s : Bool) (m : Nat) (e : Int) (t : Bool) (n : Nat) (f : Int) :
    (exactSum s m e t n f : ℚ) * 2 ^ minExponent e f = b64Value (.fin s m e) + b64Value (.fin t n f) := by
  unfold exactSum
  push_cast
  rw [add_mul, scaledTo_value _ _ _ _ (by unfold minExponent; split <;> omega),
    scaledTo_value _ _ _ _ (by unfold minExponent; split <;> omega)]

theorem natAbs_signed (z : Int) : ((if decide (z < 0) then -1 else 1) * (z.natAbs : ℚ)) = z := by
  rcases lt_or_ge z 0 with h | h
  · rw [if_pos (by simpa using h), Nat.cast_natAbs, abs_of_neg h]
    push_cast; ring
  · rw [if_neg (by simpa using h), Nat.cast_natAbs, abs_of_nonneg h]
    ring

theorem isRounding_flDyadic_signed (z g : Int) (hov : BelowOverflow (z * 2 ^ g)) :
    IsRounding (z * 2 ^ g) (flDyadic (decide (z < 0)) z.natAbs g) := by
  have h := isRounding_flDyadic (decide (z < 0)) z.natAbs g (hov.mono (by rw [abs_mul, abs_mul]; simp))
  rwa [← mul_assoc, natAbs_signed] at h

theorem isRounding_add (s t : Bool) (m n : Nat) (e f : Int)
    (hov : BelowOverflow (b64Value (.fin s m e) + b64Value (.fin t n f))) :
    IsRounding (b64Value (.fin s m e) + b64Value (.fin t n f)) (b64Add (.fin s m e) (.fin t n f)) := by
  rw [← exactSum_value] at hov ⊢
  unfold b64Add
  dsimp only
  split
  · rename_i h; rw [h]; simpa using isRounding_zero (s && t)
  · exact isRounding_flDyadic_signed _ _ hov

theorem b64Value_b64Neg (x : B64) : b64Value (b64Neg x) = -b64Value x := by
  cases x with
  | nan => simp [b64Neg, b64Value]
  | inf _ => simp [b64Neg, b64Value]
  | fin s m e => cases s <;> simp [b64Neg]

theorem isRounding_sub (s t : Bool) (m n : Nat) (e f : Int)
    (hov : BelowOverflow (b64Value (.fin s m e) - b64Value (.fin t n f))) :
    IsRounding (b64Value (.fin s m e) - b64Value (.fin t n f)) (b64Sub (.fin s m e) (.fin t n f)) := by
  rw [sub_eq_add_neg, ← b64Value_b64Neg] at hov ⊢
  exact isRounding_add _ _ _ _ _ _ hov

/-- The comparison of finite values is the comparison of the rationals. -/
theorem b64Lt_fin (s t : Bool) (m n : Nat) (e f : Int) :
    b64Lt (.fin s m e) (.fin t n f) = decide (b64Value (.fin s m e) < b64Value (.fin t n f)) := by
  unfold b64Lt
  dsimp only
  rw [← scaledTo_value s m e (minExponent e f) (by unfold minExponent; split <;> omega),
    ← scaledTo_value t n f (minExponent e f) (by unfold minExponent; split <;> omega)]
  rw [decide_eq_decide, mul_lt_mul_iff_left₀ (two_zpow_pos _), Int.cast_lt]

/-- Truncation of a finite value: its magnitude's floor, with its sign. -/
theorem b64Trunc_fin (s : Bool) (m : Nat) (e : Int) :
    b64Trunc (.fin s m e) = (if s then -1 else 1) * ⌊(m * 2 ^ e : ℚ)⌋ := by
  have h : ⌊(m * 2 ^ e : ℚ)⌋ = ((m * 2 ^ e.toNat / 2 ^ (-e).toNat : ℕ) : ℤ) := by
    rw [two_zpow_eq_div, ← mul_div_assoc]
    have := Rat.floor_natCast_div_natCast (m * 2 ^ e.toNat) (2 ^ (-e).toNat)
    push_cast at this
    rw [this]; push_cast; rfl
  unfold b64Trunc
  rw [h]
  cases s <;> simp

theorem b64Trunc_of_nonneg {x : B64} (hx : IsFinite x) (h : 0 ≤ b64Value x) : b64Trunc x = ⌊b64Value x⌋ := by
  obtain ⟨neg, m, e, rfl, -⟩ := hx
  rw [b64Trunc_fin]
  cases neg
  · simp
  · simp only [b64Value_neg] at h ⊢
    have h2 := @nonneg_of_representable m e
    have : (m * 2 ^ e : ℚ) = 0 := by linarith
    rw [this]; simp

theorem b64Trunc_of_nonpos {x : B64} (hx : IsFinite x) (h : b64Value x ≤ 0) : b64Trunc x = -⌊-b64Value x⌋ := by
  obtain ⟨neg, m, e, rfl, -⟩ := hx
  rw [b64Trunc_fin]
  cases neg
  · simp only [b64Value_pos] at h ⊢
    have h2 := @nonneg_of_representable m e
    have : (m * 2 ^ e : ℚ) = 0 := by linarith
    rw [this]; simp
  · simp

/-! ## The integer square root -/

theorem isqrtFrom_spec (n : Nat) : ∀ k r, r * r ≤ n → n < (r + 2 ^ k) * (r + 2 ^ k) →
    isqrtFrom n k r * isqrtFrom n k r ≤ n ∧ n < (isqrtFrom n k r + 1) * (isqrtFrom n k r + 1) := by
  intro k
  induction k with
  | zero => intro r h1 h2; simpa [isqrtFrom] using ⟨h1, h2⟩
  | succ k ih =>
    intro r h1 h2
    unfold isqrtFrom
    split
    · rename_i h
      exact ih _ h (by rwa [show r + 2 ^ k + 2 ^ k = r + 2 ^ (k + 1) by ring])
    · rename_i h
      exact ih _ h1 (by omega)

theorem isqrt_spec (n : Nat) : isqrt n * isqrt n ≤ n ∧ n < (isqrt n + 1) * (isqrt n + 1) := by
  refine isqrtFrom_spec n _ 0 (by simp) ?_
  have h : n < 2 ^ (Nat.log2 n + 1) := Nat.lt_log2_self
  rw [zero_add, ← pow_add]
  exact h.trans_le (Nat.pow_le_pow_right (by norm_num) (by omega))

theorem isqrt_eq_sqrt (n : Nat) : isqrt n = Nat.sqrt n :=
  Nat.eq_sqrt.mpr (isqrt_spec n)

end Sys2Proof.Machine
end

