-- ==== Sys2Proof/Laws/Arctan.lean ====
section
/-! SUPPORT. The enclosures of Machine/Arctan.lean contain the real arctangent they are for. -/

namespace Sys2Proof.Machine

open Filter Topology

/-- A natural enclosure contains a real. -/
def Enclosure.Contains (a : Enclosure) (x : ℝ) : Prop := (a.lo : ℝ) ≤ x ∧ x ≤ (a.hi : ℝ)

/-! ## The alternating tail of the series -/

/-- The terms of the tail `H_k`, without sign. -/
noncomputable def tailTerm (u : ℝ) (k j : Nat) : ℝ := u ^ j / (2 * (k + j) + 1)

/-- `H_k = Σ (-1)^j u^j / (2(k+j)+1)`. -/
noncomputable def tailSum (u : ℝ) (k : Nat) : ℝ := ∑' j, (-1) ^ j * tailTerm u k j

theorem tailTerm_summable (u : ℝ) (k : Nat) (h0 : 0 ≤ u) (h1 : u < 1) : Summable fun j => (-1) ^ j * tailTerm u k j := by
  refine Summable.of_norm_bounded (summable_geometric_of_lt_one h0 h1) fun j => ?_
  rw [norm_mul, norm_pow, norm_neg, norm_one, one_pow, one_mul, tailTerm, Real.norm_eq_abs, abs_of_nonneg (by positivity)]
  exact div_le_self (by positivity) (by have : (0 : ℝ) ≤ 2 * (k + j) := by positivity
                                        linarith)

theorem tailTerm_antitone (u : ℝ) (k : Nat) (h0 : 0 ≤ u) (h1 : u ≤ 1) : Antitone (tailTerm u k) := by
  refine antitone_nat_of_succ_le fun j => ?_
  unfold tailTerm
  have hp : u ^ (j + 1) ≤ u ^ j := pow_le_pow_of_le_one h0 h1 (Nat.le_succ j)
  refine div_le_div₀ (by positivity) hp (by positivity) (by push_cast; linarith)

theorem tailSum_bounds (u : ℝ) (k : Nat) (h0 : 0 ≤ u) (h1 : u < 1) : 0 ≤ tailSum u k ∧ tailSum u k ≤ 1 / (2 * k + 1) := by
  have ht := (tailTerm_summable u k h0 h1).hasSum.tendsto_sum_nat
  unfold tailSum
  constructor
  · simpa using (tailTerm_antitone u k h0 h1.le).alternating_series_le_tendsto ht 0
  · simpa [tailTerm] using (tailTerm_antitone u k h0 h1.le).tendsto_le_alternating_series ht 0

theorem tailSum_succ (u : ℝ) (k : Nat) (h0 : 0 ≤ u) (h1 : u < 1) :
    tailSum u k = 1 / (2 * k + 1) - u * tailSum u (k + 1) := by
  have h := (tailTerm_summable u k h0 h1).tsum_eq_zero_add
  unfold tailSum
  rw [h, ← tsum_mul_left, sub_eq_add_neg, ← tsum_neg]
  congr 1
  · simp [tailTerm]
  · refine tsum_congr fun j => ?_
    unfold tailTerm
    push_cast
    rw [pow_succ, pow_succ]
    have : (2 * ((k : ℝ) + (j + 1)) + 1) = 2 * (k + 1 + j) + 1 := by ring
    rw [this]; ring

theorem arctan_eq_mul_tailSum (t : ℝ) (h0 : 0 ≤ t) (h1 : t < 1) : Real.arctan t = t * tailSum (t * t) 0 := by
  have h := (Real.hasSum_arctan (x := t) (by rw [Real.norm_eq_abs, abs_of_nonneg h0]; exact h1)).tsum_eq
  rw [← h]
  unfold tailSum
  rw [← tsum_mul_left]
  refine tsum_congr fun j => ?_
  unfold tailTerm
  push_cast
  rw [pow_succ, pow_mul, ← pow_two]
  ring

/-! ## Natural subtraction as a bound -/

theorem sub_le_of_le_add {a b : Nat} {x : ℝ} (hx : 0 ≤ x) (h : (a : ℝ) ≤ x + b) : ((a - b : ℕ) : ℝ) ≤ x := by
  rcases le_total b a with hab | hab
  · rw [Nat.cast_sub hab]; linarith
  · rw [Nat.sub_eq_zero_of_le hab]; simpa using hx

theorem le_sub_of_add_le {a b : Nat} {x : ℝ} (h : x + b ≤ (a : ℝ)) : x ≤ ((a - b : ℕ) : ℝ) := by
  rcases le_total b a with hab | hab
  · rw [Nat.cast_sub hab]; linarith
  · rw [Nat.sub_eq_zero_of_le hab]
    have : (a : ℝ) ≤ b := by exact_mod_cast hab
    push_cast; linarith

theorem Enclosure.Contains.plus {a b : Enclosure} {x y : ℝ} (ha : a.Contains x) (hb : b.Contains y) :
    (a.plus b).Contains (x + y) := by
  obtain ⟨h1, h2⟩ := ha
  obtain ⟨h3, h4⟩ := hb
  unfold Enclosure.Contains Enclosure.plus
  push_cast
  constructor <;> linarith

theorem Enclosure.Contains.minus {a b : Enclosure} {x y : ℝ} (ha : a.Contains x) (hb : b.Contains y) (h : y ≤ x) :
    (a.minus b).Contains (x - y) := by
  obtain ⟨h1, h2⟩ := ha
  obtain ⟨h3, h4⟩ := hb
  exact ⟨sub_le_of_le_add (by linarith) (by linarith), le_sub_of_add_le (by linarith)⟩

theorem cast_div_le' (a b : Nat) : ((a / b : ℕ) : ℝ) ≤ a / b := Nat.cast_div_le

theorem lt_cast_div_add_one (a b : Nat) (hb : 0 < b) : (a : ℝ) / b < ((a / b : ℕ) : ℝ) + 1 := by
  rw [div_lt_iff₀ (by exact_mod_cast hb)]
  have := Nat.lt_mul_div_succ a hb
  have h : (a : ℝ) < ((b * (a / b + 1) : ℕ) : ℝ) := by exact_mod_cast this
  push_cast at h
  linarith

/-! ## The enclosures -/

theorem seriesTail_contains (p q P : Nat) (hpq : p < q) :
    ∀ n k, (seriesTail p q P n k).Contains (2 ^ P * tailSum ((p / q : ℝ) * (p / q)) k) := by
  have hq : (0 : ℝ) < q := by exact_mod_cast (Nat.zero_le p).trans_lt hpq
  have hqq : 0 < q * q := by have : 0 < q := by omega
                             positivity
  have hu0 : (0 : ℝ) ≤ (p / q : ℝ) * (p / q) := by positivity
  have ht1 : (p / q : ℝ) < 1 := (div_lt_one hq).mpr (by exact_mod_cast hpq)
  have hu1 : (p / q : ℝ) * (p / q) < 1 := by
    have : (0 : ℝ) ≤ p / q := by positivity
    nlinarith
  have hP : (0 : ℝ) < 2 ^ P := by positivity
  intro n
  induction n with
  | zero =>
    intro k
    obtain ⟨h1, h2⟩ := tailSum_bounds _ k hu0 hu1
    constructor
    · simp only [seriesTail, Nat.cast_zero]; positivity
    · have h3 := lt_cast_div_add_one (2 ^ P) (2 * k + 1) (by omega)
      simp only [seriesTail]
      push_cast at h3 ⊢
      calc (2 : ℝ) ^ P * tailSum ((p / q : ℝ) * (p / q)) k ≤ 2 ^ P * (1 / (2 * k + 1)) := mul_le_mul_of_nonneg_left h2 hP.le
        _ = 2 ^ P / (2 * k + 1) := by ring
        _ ≤ _ := h3.le
  | succ n ih =>
    intro k
    obtain ⟨h1, h2⟩ := ih (k + 1)
    obtain ⟨hb1, -⟩ := tailSum_bounds _ k hu0 hu1
    have hrec := tailSum_succ _ k hu0 hu1
    have hlo := cast_div_le' (2 ^ P) (2 * k + 1)
    have hhi := lt_cast_div_add_one (2 ^ P) (2 * k + 1) (by omega)
    have ehi := lt_cast_div_add_one (p * p * (seriesTail p q P n (k + 1)).hi) (q * q) hqq
    have elo := cast_div_le' (p * p * (seriesTail p q P n (k + 1)).lo) (q * q)
    have ev : (2 : ℝ) ^ P * tailSum ((p / q : ℝ) * (p / q)) k
        = 2 ^ P / (2 * k + 1) - (p / q : ℝ) * (p / q) * (2 ^ P * tailSum ((p / q : ℝ) * (p / q)) (k + 1)) := by
      rw [hrec]; ring
    have mhi : (p / q : ℝ) * (p / q) * (2 ^ P * tailSum ((p / q : ℝ) * (p / q)) (k + 1))
        ≤ (p * p * (seriesTail p q P n (k + 1)).hi : ℝ) / (q * q) := by
      calc _ ≤ (p / q : ℝ) * (p / q) * (seriesTail p q P n (k + 1)).hi := mul_le_mul_of_nonneg_left h2 hu0
        _ = _ := by ring
    have mlo : (p * p * (seriesTail p q P n (k + 1)).lo : ℝ) / (q * q)
        ≤ (p / q : ℝ) * (p / q) * (2 ^ P * tailSum ((p / q : ℝ) * (p / q)) (k + 1)) := by
      calc _ = (p / q : ℝ) * (p / q) * (seriesTail p q P n (k + 1)).lo := by ring
        _ ≤ _ := mul_le_mul_of_nonneg_left h1 hu0
    push_cast at hlo hhi ehi elo
    constructor
    · simp only [seriesTail]
      refine sub_le_of_le_add (by positivity) ?_
      rw [ev]
      push_cast
      linarith
    · simp only [seriesTail]
      refine le_sub_of_add_le ?_
      rw [ev]
      push_cast
      linarith

theorem encloseSmall_contains (p q P : Nat) (hpq : p < q) :
    (encloseSmall p q P).Contains (2 ^ P * Real.arctan (p / q)) := by
  have hq : (0 : ℝ) < q := by exact_mod_cast (Nat.zero_le p).trans_lt hpq
  have ht0 : (0 : ℝ) ≤ p / q := by positivity
  have ht1 : (p / q : ℝ) < 1 := (div_lt_one hq).mpr (by exact_mod_cast hpq)
  obtain ⟨h1, h2⟩ := seriesTail_contains p q P hpq seriesTerms 0
  have ev : (2 : ℝ) ^ P * Real.arctan (p / q) = (p / q : ℝ) * (2 ^ P * tailSum ((p / q : ℝ) * (p / q)) 0) := by
    rw [arctan_eq_mul_tailSum _ ht0 ht1]; ring
  have elo := cast_div_le' (p * (seriesTail p q P seriesTerms 0).lo) q
  have ehi := lt_cast_div_add_one (p * (seriesTail p q P seriesTerms 0).hi) q (by omega)
  have mlo := mul_le_mul_of_nonneg_left h1 ht0
  have mhi := mul_le_mul_of_nonneg_left h2 ht0
  have a1 : (p * (seriesTail p q P seriesTerms 0).lo : ℝ) / q = (p / q : ℝ) * (seriesTail p q P seriesTerms 0).lo := by ring
  have a2 : (p * (seriesTail p q P seriesTerms 0).hi : ℝ) / q = (p / q : ℝ) * (seriesTail p q P seriesTerms 0).hi := by ring
  push_cast at elo ehi
  rw [a1] at elo
  rw [a2] at ehi
  rw [ev]
  constructor
  · simp only [encloseSmall]; linarith
  · simp only [encloseSmall]; push_cast; linarith

theorem encloseEighthTurn_contains (P : Nat) : (encloseEighthTurn P).Contains (2 ^ P * (Real.pi / 4)) := by
  have h := (encloseSmall_contains 1 2 P (by norm_num)).plus (encloseSmall_contains 1 3 P (by norm_num))
  rw [← mul_add] at h
  rwa [show Real.arctan ((1 : ℕ) / (2 : ℕ)) + Real.arctan ((1 : ℕ) / (3 : ℕ)) = Real.pi / 4 by
    rw [← Real.arctan_inv_2_add_arctan_inv_3]; norm_num] at h

theorem encloseQuarterTurn_contains (P : Nat) : (encloseQuarterTurn P).Contains (2 ^ P * (Real.pi / 2)) := by
  have h := (encloseEighthTurn_contains P).plus (encloseEighthTurn_contains P)
  rwa [show (2 : ℝ) ^ P * (Real.pi / 4) + 2 ^ P * (Real.pi / 4) = 2 ^ P * (Real.pi / 2) by ring] at h

theorem arctan_octant (p q : Nat) (hp : 0 < p) (hpq : p ≤ q) :
    Real.arctan (p / q) = Real.pi / 4 - Real.arctan ((q - p : ℕ) / (q + p : ℕ)) := by
  have hp' : (0 : ℝ) < p := by exact_mod_cast hp
  have hpq' : (p : ℝ) ≤ q := by exact_mod_cast hpq
  have hq' : (0 : ℝ) < q := by linarith
  rw [Nat.cast_sub hpq, Nat.cast_add]
  have hxy : (p / q : ℝ) * ((q - p) / (q + p)) < 1 := by
    have h1 : (p / q : ℝ) ≤ 1 := (div_le_one hq').mpr hpq'
    have h2 : ((q : ℝ) - p) / (q + p) < 1 := (div_lt_one (by linarith)).mpr (by linarith)
    have h3 : (0 : ℝ) ≤ (q - p) / (q + p) := div_nonneg (by linarith) (by linarith)
    have h4 : (0 : ℝ) < p / q := by positivity
    nlinarith
  have h := Real.arctan_add hxy
  have h2 : ((p / q : ℝ) + (q - p) / (q + p)) / (1 - p / q * ((q - p) / (q + p))) = 1 := by
    have hd : (1 : ℝ) - p / q * ((q - p) / (q + p)) ≠ 0 := by linarith
    rw [div_eq_one_iff_eq hd]
    field_simp
    ring
  rw [h2, Real.arctan_one] at h
  linarith

theorem encloseOctant_contains (p q P : Nat) (hq : 0 < q) (hpq : p ≤ q) :
    (encloseOctant p q P).Contains (2 ^ P * Real.arctan (p / q)) := by
  unfold encloseOctant
  split
  · exact encloseSmall_contains p q P (by omega)
  · rename_i h
    have hs := encloseSmall_contains (q - p) (q + p) P (by omega)
    have h0 : 0 ≤ Real.arctan ((p : ℝ) / q) := by
      rw [← Real.arctan_zero]; exact Real.arctan_strictMono.monotone (by positivity)
    have ho := arctan_octant p q (by omega) hpq
    have hr := (encloseEighthTurn_contains P).minus hs (mul_le_mul_of_nonneg_left (by linarith) (by positivity))
    rwa [← mul_sub, ← ho] at hr

theorem arctan_cast_nonneg (p q : Nat) : 0 ≤ Real.arctan ((p : ℝ) / q) := by
  rw [← Real.arctan_zero]; exact Real.arctan_strictMono.monotone (by positivity)

/-- The first quadrant: the angle of the point `(q, p)`, `q > 0`. -/
theorem encloseQuadrant_contains (p q P : Nat) (hq : 0 < q) :
    (encloseQuadrant p q P).Contains (2 ^ P * Real.arctan (p / q)) := by
  unfold encloseQuadrant
  split
  · rename_i h; exact encloseOctant_contains p q P hq h
  · rename_i h
    have hs := encloseOctant_contains q p P (by omega) (by omega)
    have hqr : (0 : ℝ) < q := by exact_mod_cast hq
    have hpr : (0 : ℝ) < p := by exact_mod_cast (by omega : 0 < p)
    have hi : Real.arctan ((p : ℝ) / q) = Real.pi / 2 - Real.arctan (q / p) := by
      rw [← Real.arctan_inv_of_pos (by positivity), inv_div]
    have hr := (encloseQuarterTurn_contains P).minus hs
      (mul_le_mul_of_nonneg_left (by have := arctan_cast_nonneg p q; linarith) (by positivity))
    rwa [← mul_sub, ← hi] at hr

/-- The vertical direction. -/
theorem encloseQuadrant_vertical (p P : Nat) (hp : 0 < p) :
    (encloseQuadrant p 0 P).Contains (2 ^ P * (Real.pi / 2)) := by
  unfold encloseQuadrant
  rw [if_neg (by omega)]
  have hs := encloseOctant_contains 0 p P hp (by omega)
  have hr := (encloseQuarterTurn_contains P).minus hs (by simp; positivity)
  simpa using hr

/-- The second quadrant: the angle of the point `(-q, p)` from the enclosure of the point `(q, p)`. -/
theorem encloseAngle_obtuse (p q P : Nat) (θ : ℝ) (hθ : θ ≤ Real.pi) (h : (encloseQuadrant p q P).Contains (2 ^ P * θ)) :
    (encloseAngle p q P true).Contains (2 ^ P * (Real.pi - θ)) := by
  unfold encloseAngle
  rw [if_pos rfl]
  have hq := (encloseQuarterTurn_contains P).plus (encloseQuarterTurn_contains P)
  rw [← mul_add, show Real.pi / 2 + Real.pi / 2 = Real.pi by ring] at hq
  have hr := hq.minus h (mul_le_mul_of_nonneg_left hθ (by positivity))
  rwa [← mul_sub] at hr

/-! ## The widths of the enclosures -/

/-- The width of a simple enclosure, in units of `2^-P`. -/
def enclosureWidth (P : Nat) : Nat := 8 + 2 ^ P / 4 ^ seriesTerms

theorem square_scale_le (p q w : Nat) (h : 2 * p ≤ q) : p * p * w / (q * q) ≤ w / 4 := by
  rcases Nat.eq_zero_or_pos q with rfl | hq
  · simp
  rw [Nat.le_div_iff_mul_le (by norm_num)]
  have h1 : p * p * 4 ≤ q * q := by nlinarith
  have h2 : p * p * w / (q * q) * (q * q) ≤ p * p * w := Nat.div_mul_le_self _ _
  have h3 : p * p * w / (q * q) * 4 * (q * q) ≤ w * (q * q) := by nlinarith [Nat.mul_le_mul_right w h1]
  exact Nat.le_of_mul_le_mul_right h3 (by positivity)

theorem seriesTail_width (p q P : Nat) (h : 2 * p ≤ q) :
    ∀ n k, (seriesTail p q P n k).hi ≤ (seriesTail p q P n k).lo + (6 + 2 ^ P / 4 ^ n) := by
  intro n
  induction n with
  | zero =>
    intro k
    simp only [seriesTail, pow_zero, Nat.div_one]
    have := Nat.div_le_self (2 ^ P) (2 * k + 1)
    omega
  | succ n ih =>
    intro k
    have hi := ih (k + 1)
    simp only [seriesTail]
    generalize seriesTail p q P n (k + 1) = t at *
    have hw : p * p * t.hi / (q * q) ≤ p * p * t.lo / (q * q) + (6 + 2 ^ P / 4 ^ n) / 4 + 1 := by
      have h1 : p * p * t.hi / (q * q) ≤ (p * p * t.lo + p * p * (6 + 2 ^ P / 4 ^ n)) / (q * q) := by
        refine Nat.div_le_div_right ?_
        rw [← Nat.mul_add]; exact Nat.mul_le_mul_left _ hi
      have h3 : (p * p * t.lo + p * p * (6 + 2 ^ P / 4 ^ n)) / (q * q)
          ≤ p * p * t.lo / (q * q) + p * p * (6 + 2 ^ P / 4 ^ n) / (q * q) + 1 := by
        rcases Nat.eq_zero_or_pos (q * q) with h0 | h0
        · rw [h0]; simp
        · rw [Nat.add_div h0]; split <;> omega
      have h4 := square_scale_le p q (6 + 2 ^ P / 4 ^ n) h
      omega
    have hq4 : 2 ^ P / 4 ^ (n + 1) = 2 ^ P / 4 ^ n / 4 := by rw [pow_succ, Nat.div_div_eq_div_mul]
    rw [hq4]
    generalize p * p * t.hi / (q * q) = F at *
    generalize p * p * t.lo / (q * q) = G at *
    generalize 2 ^ P / (2 * k + 1) = A at *
    generalize 2 ^ P / 4 ^ n = x at *
    omega

theorem encloseSmall_width (p q P : Nat) (h : 2 * p ≤ q) :
    (encloseSmall p q P).hi ≤ (encloseSmall p q P).lo + enclosureWidth P := by
  have hw := seriesTail_width p q P h seriesTerms 0
  simp only [encloseSmall, enclosureWidth]
  generalize seriesTail p q P seriesTerms 0 = t at *
  generalize 2 ^ P / 4 ^ seriesTerms = x at *
  rcases Nat.eq_zero_or_pos q with rfl | hq
  · simp; omega
  have h1 : p * t.hi / q ≤ (p * t.lo + p * (6 + x)) / q := by
    refine Nat.div_le_div_right ?_
    rw [← Nat.mul_add]; exact Nat.mul_le_mul_left _ hw
  have h2 : (p * t.lo + p * (6 + x)) / q ≤ p * t.lo / q + p * (6 + x) / q + 1 := by
    rw [Nat.add_div hq]; split <;> omega
  have h3 : p * (6 + x) / q ≤ 6 + x := by
    refine Nat.div_le_of_le_mul ?_
    exact Nat.mul_le_mul_right _ (by omega)
  omega

theorem minus_width (a b : Enclosure) (v w : Nat) (ha : a.hi ≤ a.lo + v) (hb : b.hi ≤ b.lo + w) :
    (a.minus b).hi ≤ (a.minus b).lo + (v + w) := by
  simp only [Enclosure.minus]; omega

theorem plus_width (a b : Enclosure) (v w : Nat) (ha : a.hi ≤ a.lo + v) (hb : b.hi ≤ b.lo + w) :
    (a.plus b).hi ≤ (a.plus b).lo + (v + w) := by
  simp only [Enclosure.plus]; omega

theorem encloseQuarterTurn_width (P : Nat) :
    (encloseQuarterTurn P).hi ≤ (encloseQuarterTurn P).lo + 4 * enclosureWidth P := by
  have h1 := plus_width _ _ _ _ (encloseSmall_width 1 2 P (by norm_num)) (encloseSmall_width 1 3 P (by norm_num))
  have h2 := plus_width _ _ _ _ h1 h1
  unfold encloseQuarterTurn encloseEighthTurn
  omega

theorem encloseOctant_width (p q P : Nat) (hpq : p ≤ q) :
    (encloseOctant p q P).hi ≤ (encloseOctant p q P).lo + 3 * enclosureWidth P := by
  unfold encloseOctant
  split
  · rename_i h; have := encloseSmall_width p q P h; omega
  · have h1 := plus_width _ _ _ _ (encloseSmall_width 1 2 P (by norm_num)) (encloseSmall_width 1 3 P (by norm_num))
    have h2 := minus_width _ _ _ _ h1 (encloseSmall_width (q - p) (q + p) P (by omega))
    unfold encloseEighthTurn
    omega

theorem encloseQuadrant_width (p q P : Nat) :
    (encloseQuadrant p q P).hi ≤ (encloseQuadrant p q P).lo + 7 * enclosureWidth P := by
  unfold encloseQuadrant
  split
  · rename_i h; have := encloseOctant_width p q P h; omega
  · have := minus_width _ _ _ _ (encloseQuarterTurn_width P) (encloseOctant_width q p P (by omega)); omega

theorem encloseAngle_width (p q P : Nat) (obtuse : Bool) :
    (encloseAngle p q P obtuse).hi ≤ (encloseAngle p q P obtuse).lo + 15 * enclosureWidth P := by
  unfold encloseAngle
  split
  · have h1 := plus_width _ _ _ _ (encloseQuarterTurn_width P) (encloseQuarterTurn_width P)
    have h2 := minus_width _ _ _ _ h1 (encloseQuadrant_width p q P)
    omega
  · have := encloseQuadrant_width p q P; omega

/-! ## The rounded angle -/

theorem anglePrecision_ge (p q : Nat) : 256 ≤ anglePrecision p q := Nat.le_add_right _ _

/-- The rounded angle is the rounding of one end of its enclosure, and that end is within `2^-248` of the angle. -/
theorem roundAngle_close (neg : Bool) (p q : Nat) (obtuse : Bool) (θ : ℝ)
    (h : (encloseAngle p q (anglePrecision p q) obtuse).Contains (2 ^ anglePrecision p q * θ)) :
    ∃ n : Nat, roundAngle neg p q obtuse = flRatio neg n (2 ^ anglePrecision p q) ∧
      |(n : ℝ) / 2 ^ anglePrecision p q - θ| ≤ 1 / 2 ^ 248 := by
  have hw := encloseAngle_width p q (anglePrecision p q) obtuse
  have hP := anglePrecision_ge p q
  obtain ⟨h1, h2⟩ := h
  have hdef : roundAngle neg p q obtuse
        = flRatio neg (encloseAngle p q (anglePrecision p q) obtuse).lo (2 ^ anglePrecision p q) ∨
      roundAngle neg p q obtuse
        = flRatio neg (encloseAngle p q (anglePrecision p q) obtuse).hi (2 ^ anglePrecision p q) := by
    unfold roundAngle
    split_ifs <;> simp [roundedBelow, roundedAbove]
  generalize encloseAngle p q (anglePrecision p q) obtuse = a at *
  generalize anglePrecision p q = P at *
  have hPpos : (0 : ℝ) < 2 ^ P := by positivity
  have hw' : (a.hi : ℝ) ≤ a.lo + 2 ^ P / 2 ^ 248 := by
    have e1 : 15 * enclosureWidth P * 2 ^ 248 ≤ 2 ^ P := by
      unfold enclosureWidth seriesTerms
      obtain ⟨j, rfl⟩ := Nat.exists_eq_add_of_le hP
      have e2 : 2 ^ (256 + j) / 4 ^ 132 * 4 ^ 132 ≤ 2 ^ (256 + j) := Nat.div_mul_le_self _ _
      have e3 : 2 ^ 8 * 2 ^ 248 ≤ 2 ^ (256 + j) := by
        rw [← pow_add]; exact Nat.pow_le_pow_right (by norm_num) (by omega)
      rw [show 4 ^ 132 = 2 ^ 16 * 2 ^ 248 from by rw [← pow_add, show 4 = 2 ^ 2 from rfl, ← pow_mul]] at *
      generalize 2 ^ (256 + j) = X at *
      generalize 2 ^ 248 = B at *
      generalize X / (2 ^ 16 * B) = Y at *
      have e4 : Y * (2 ^ 16 * B) = 65536 * (Y * B) := by ring
      have e5 : 15 * (8 + Y) * B = 120 * B + 15 * (Y * B) := by ring
      rw [e4] at e2
      rw [e5]
      generalize Y * B = Z at *
      omega
    have e4 : (a.hi : ℝ) ≤ a.lo + ((15 * enclosureWidth P : ℕ) : ℝ) := by exact_mod_cast hw
    have e5 : ((15 * enclosureWidth P : ℕ) : ℝ) ≤ 2 ^ P / 2 ^ 248 := by
      rw [le_div_iff₀ (by positivity)]; exact_mod_cast e1
    linarith
  have hclose : ∀ n : ℕ, a.lo ≤ n → n ≤ a.hi → |(n : ℝ) / 2 ^ P - θ| ≤ 1 / 2 ^ 248 := by
    intro n hn1 hn2
    have c1 : (a.lo : ℝ) ≤ n := by exact_mod_cast hn1
    have c2 : (n : ℝ) ≤ a.hi := by exact_mod_cast hn2
    have e : (n : ℝ) / 2 ^ P - θ = (n - 2 ^ P * θ) / 2 ^ P := by field_simp
    rw [e, abs_div, abs_of_pos hPpos, div_le_iff₀ hPpos, abs_le]
    have e6 : (1 : ℝ) / 2 ^ 248 * 2 ^ P = 2 ^ P / 2 ^ 248 := by ring
    rw [e6]
    constructor <;> linarith
  have hle : a.lo ≤ a.hi := by exact_mod_cast h1.trans h2
  rcases hdef with hd | hd
  · exact ⟨a.lo, hd, hclose _ le_rfl hle⟩
  · exact ⟨a.hi, hd, hclose _ hle le_rfl⟩

end Sys2Proof.Machine
end

