-- ==== Sys2Proof/Laws/SquareRoot.lean ====
section
/-! SUPPORT. What the binary64 square root does: the rounding of the real root. -/

namespace Sys2Proof.Machine

theorem nearestSqrt_le (n k : Nat) (h : n ≤ k * k) : nearestSqrt n ≤ k := by
  obtain ⟨h1, h2⟩ := isqrt_spec n
  unfold nearestSqrt
  split
  · exact Nat.mul_self_le_mul_self_iff.mp (h1.trans h)
  · rename_i hc
    exact Nat.mul_self_lt_mul_self_iff.mp (by omega)

theorem le_nearestSqrt (n k : Nat) (h : k * k ≤ n) : k ≤ nearestSqrt n := by
  obtain ⟨h1, h2⟩ := isqrt_spec n
  have hk : k ≤ isqrt n := Nat.lt_succ_iff.mp (Nat.mul_self_lt_mul_self_iff.mp (h.trans_lt h2))
  unfold nearestSqrt
  split <;> omega

/-- The nearest natural to a root is within one half of it. -/
theorem nearestSqrt_error (n : Nat) : |(nearestSqrt n : ℝ) - √n| ≤ 1 / 2 := by
  obtain ⟨h1, h2⟩ := isqrt_spec n
  rw [abs_le]
  unfold nearestSqrt
  split
  · rename_i hc
    have c1 : ((isqrt n : ℝ)) * isqrt n ≤ n := by exact_mod_cast h1
    have c2 : (n : ℝ) ≤ isqrt n * isqrt n + isqrt n := by exact_mod_cast hc
    have u : √(n : ℝ) ≤ isqrt n + 1 / 2 := Real.sqrt_le_iff.mpr ⟨by positivity, by nlinarith⟩
    have l : (isqrt n : ℝ) ≤ √n := Real.le_sqrt_of_sq_le (by nlinarith)
    constructor <;> linarith
  · rename_i hc
    have hc' : isqrt n * isqrt n + isqrt n + 1 ≤ n := by omega
    have c1 : ((isqrt n : ℝ)) * isqrt n + isqrt n + 1 ≤ n := by exact_mod_cast hc'
    have c2 : (n : ℝ) < (isqrt n + 1) * (isqrt n + 1) := by exact_mod_cast h2
    have u : √(n : ℝ) ≤ isqrt n + 1 := Real.sqrt_le_iff.mpr ⟨by positivity, by nlinarith⟩
    have l : (isqrt n + 1 / 2 : ℝ) ≤ √n := Real.le_sqrt_of_sq_le (by nlinarith)
    push_cast
    constructor <;> linarith

/-- `x` is the rounding of the real square root of `a`. -/
structure IsSqrtRounding (a : ℚ) (x : B64) : Prop where
  finite : IsFinite x
  nonneg : 0 ≤ b64Value x
  le_of_le : ∀ y, Representable y → 0 ≤ y → a ≤ y * y → b64Value x ≤ y
  ge_of_ge : ∀ y, Representable y → 0 ≤ y → y * y ≤ a → y ≤ b64Value x
  error : ∀ k : Int, (a : ℝ) < 2 ^ (2 * k + 2) → |(b64Value x : ℝ) - √(a : ℝ)| ≤ 2 ^ (k - 53)

/-- A representable root is rounded to itself. -/
theorem IsSqrtRounding.exact {a : ℚ} {x : B64} (h : IsSqrtRounding a x) (y : ℚ) (hy : Representable y) (h0 : 0 ≤ y)
    (ha : y * y = a) : b64Value x = y :=
  le_antisymm (h.le_of_le y hy h0 ha.ge) (h.ge_of_ge y hy h0 ha.le)

theorem sqrtExponent_scaling (m : Nat) (e : Int) (hm : 0 < m) (hm2 : m < 2 ^ 53) :
    2 * sqrtExponent m e ≤ e ∧ 2 ^ 104 ≤ m * 2 ^ (e - 2 * sqrtExponent m e).toNat ∧
      m * 2 ^ (e - 2 * sqrtExponent m e).toNat < 2 ^ 106 := by
  have l1 : 2 ^ Nat.log2 m ≤ m := Nat.log2_self_le hm.ne'
  have l2 : m < 2 ^ (Nat.log2 m + 1) := Nat.lt_log2_self
  have l3 : Nat.log2 m < 53 := (Nat.log2_lt hm.ne').mpr hm2
  unfold sqrtExponent
  generalize Nat.log2 m = l at *
  have hs : 2 * (((l : Int) + e) / 2 - 52) ≤ e := by omega
  obtain ⟨j, hj⟩ := Int.eq_ofNat_of_zero_le (sub_nonneg.mpr hs)
  have hj1 : 104 ≤ l + j ∧ l + j ≤ 105 := by omega
  rw [hj]
  refine ⟨hs, ?_, ?_⟩
  · calc 2 ^ 104 ≤ 2 ^ (l + j) := Nat.pow_le_pow_right (by norm_num) hj1.1
      _ = 2 ^ l * 2 ^ j := pow_add _ _ _
      _ ≤ m * 2 ^ j := Nat.mul_le_mul_right _ l1
  · calc m * 2 ^ j < 2 ^ (l + 1) * 2 ^ j := Nat.mul_lt_mul_of_pos_right l2 (by positivity)
      _ = 2 ^ (l + j + 1) := by rw [← pow_add]; congr 1; omega
      _ ≤ 2 ^ 106 := Nat.pow_le_pow_right (by norm_num) (by omega)

theorem isSqrtRounding_sqrt (m : Nat) (e : Int) (hcan : Canonical m e) :
    IsSqrtRounding (b64Value (.fin false m e)) (b64Sqrt (.fin false m e)) := by
  have ⟨hm2, he, he2, _⟩ := hcan
  rcases Nat.eq_zero_or_pos m with rfl | hm
  · have : b64Sqrt (.fin false 0 e) = .fin false 0 e := by simp [b64Sqrt]
    rw [this]
    refine ⟨⟨false, 0, e, rfl, hcan⟩, by simp, ?_, ?_, ?_⟩
    · intro y _ h0 _; simpa using h0
    · intro y _ h0 h
      simp at h ⊢
      nlinarith
    · intro k _; simp; positivity
  obtain ⟨hs, hN1, hN2⟩ := sqrtExponent_scaling m e hm hm2
  have hl : Nat.log2 m < 53 := (Nat.log2_lt hm.ne').mpr hm2
  have hE1 : -1074 ≤ sqrtExponent m e := by unfold sqrtExponent; omega
  have hE2 : sqrtExponent m e ≤ 900 := by unfold sqrtExponent; omega
  have hdef : b64Sqrt (.fin false m e)
      = finishRound false (nearestSqrt (m * 2 ^ (e - 2 * sqrtExponent m e).toNat)) (sqrtExponent m e) := by
    simp [b64Sqrt, hm.ne']
  have hval : b64Value (.fin false m e)
      = ((m * 2 ^ (e - 2 * sqrtExponent m e).toNat : ℕ) : ℚ) * (2 ^ sqrtExponent m e * 2 ^ sqrtExponent m e) := by
    generalize sqrtExponent m e = E at hs
    obtain ⟨j, hj⟩ := Int.eq_ofNat_of_zero_le (sub_nonneg.mpr hs)
    rw [hj, b64Value_pos, ← zpow_add₀ (by norm_num), show e = j + (E + E) by omega,
      zpow_add₀ (by norm_num : (2 : ℚ) ≠ 0), zpow_natCast]
    push_cast
    simp
    ring
  rw [hdef, hval]
  generalize sqrtExponent m e = E at *
  generalize m * 2 ^ (e - 2 * E).toNat = N at *
  have hM1 : 2 ^ 52 ≤ nearestSqrt N := le_nearestSqrt N (2 ^ 52) (by norm_num at hN1 ⊢; exact hN1)
  have hM2 : nearestSqrt N ≤ 2 ^ 53 := nearestSqrt_le N (2 ^ 53) (by norm_num at hN2 ⊢; omega)
  have hE0 := two_zpow_pos E
  have hfin : ∃ m' e', finishRound false (nearestSqrt N) E = .fin false m' e' ∧ Canonical m' e' ∧
      (m' : ℚ) * 2 ^ e' = nearestSqrt N * 2 ^ E := by
    unfold finishRound Canonical
    by_cases hc : nearestSqrt N = 2 ^ 53
    · refine ⟨2 ^ 52, E + 1, by rw [if_pos hc, if_neg (by omega)], by norm_num; omega, ?_⟩
      rw [hc, zpow_add₀ (by norm_num)]; push_cast; ring
    · exact ⟨nearestSqrt N, E, by rw [if_neg hc, if_neg (by omega)], ⟨by omega, hE1, by omega, .inl hM1⟩, rfl⟩
  obtain ⟨m', e', h1, h2, h3⟩ := hfin
  rw [h1]
  have hv : b64Value (.fin false m' e') = nearestSqrt N * 2 ^ E := by rw [b64Value_pos, h3]
  have hcase : ∀ y, Representable y → 0 ≤ y → (∃ k : ℕ, y = k * 2 ^ E) ∨ y ≤ (2 ^ 52 : ℕ) * 2 ^ E := by
    rintro y ⟨n, f, hn, hf, hy | hy⟩ h0
    · by_cases hc : E ≤ f
      · left
        obtain ⟨j, hj⟩ := Int.eq_ofNat_of_zero_le (sub_nonneg.mpr hc)
        refine ⟨n * 2 ^ j, ?_⟩
        rw [hy, show f = j + E by omega, zpow_add₀ (by norm_num), zpow_natCast]; push_cast; ring
      · right
        calc y = n * 2 ^ f := hy
          _ ≤ (2 ^ 53 : ℕ) * 2 ^ f := mul_le_mul_of_nonneg_right (by exact_mod_cast hn) (two_zpow_pos _).le
          _ = (2 ^ 52 : ℕ) * 2 ^ (f + 1) := by rw [zpow_add₀ (by norm_num)]; push_cast; ring
          _ ≤ _ := mul_le_mul_of_nonneg_left (two_zpow_le (by omega)) (by positivity)
    · left
      have := @nonneg_of_representable n f
      exact ⟨0, by push_cast; linarith⟩
  refine ⟨⟨false, m', e', rfl, h2⟩, by rw [hv]; positivity, ?_, ?_, ?_⟩
  · intro y hy h0 h
    rw [hv]
    rcases hcase y hy h0 with ⟨k, rfl⟩ | hle
    · refine mul_le_mul_of_nonneg_right ?_ hE0.le
      have : (N : ℚ) * (2 ^ E * 2 ^ E) ≤ ((k * k : ℕ) : ℚ) * (2 ^ E * 2 ^ E) := by push_cast; linarith
      have := le_of_mul_le_mul_right this (by positivity)
      exact_mod_cast nearestSqrt_le N k (by exact_mod_cast this)
    · have e1 : y * y ≤ ((2 ^ 52 : ℕ) * 2 ^ E) * ((2 ^ 52 : ℕ) * 2 ^ E) := mul_self_le_mul_self h0 hle
      have e2 : ((2 ^ 104 : ℕ) : ℚ) * (2 ^ E * 2 ^ E) ≤ N * (2 ^ E * 2 ^ E) :=
        mul_le_mul_of_nonneg_right (by exact_mod_cast hN1) (by positivity)
      have e3 : ((2 ^ 52 : ℕ) * 2 ^ E : ℚ) * ((2 ^ 52 : ℕ) * 2 ^ E) = ((2 ^ 104 : ℕ) : ℚ) * (2 ^ E * 2 ^ E) := by
        push_cast; ring
      have hN : (N : ℚ) * (2 ^ E * 2 ^ E) ≤ ((2 ^ 104 : ℕ) : ℚ) * (2 ^ E * 2 ^ E) := by linarith
      have hN' : N ≤ 2 ^ 104 := by exact_mod_cast le_of_mul_le_mul_right hN (by positivity)
      have hy52 : (2 ^ 52 : ℕ) * 2 ^ E ≤ y := by
        refine abs_le_of_sq_le_sq' ?_ h0 |>.2
        nlinarith
      refine le_trans (mul_le_mul_of_nonneg_right ?_ hE0.le) hy52
      exact_mod_cast nearestSqrt_le N (2 ^ 52) (by norm_num at hN' ⊢; exact hN')
  · intro y hy h0 h
    rw [hv]
    rcases hcase y hy h0 with ⟨k, rfl⟩ | hle
    · refine mul_le_mul_of_nonneg_right ?_ hE0.le
      have : ((k * k : ℕ) : ℚ) * (2 ^ E * 2 ^ E) ≤ (N : ℚ) * (2 ^ E * 2 ^ E) := by push_cast; linarith
      have := le_of_mul_le_mul_right this (by positivity)
      exact_mod_cast le_nearestSqrt N k (by exact_mod_cast this)
    · exact hle.trans (mul_le_mul_of_nonneg_right (by exact_mod_cast hM1) hE0.le)
  · intro k hk
    have hE0' : (0 : ℝ) < 2 ^ E := zpow_pos (by norm_num) _
    have hsq : √(((N : ℚ) * (2 ^ E * 2 ^ E) : ℚ) : ℝ) = √(N : ℝ) * 2 ^ E := by
      push_cast
      rw [Real.sqrt_mul (by positivity), Real.sqrt_mul_self hE0'.le]
    rw [hv, hsq]
    push_cast
    rw [← sub_mul, abs_mul, abs_of_pos hE0']
    have hEk : E ≤ k - 52 := by
      by_contra hc
      have c1 : ((2 : ℝ) ^ (2 * k + 2)) ≤ 2 ^ (104 + (E + E) : ℤ) := zpow_le_zpow_right₀ (by norm_num) (by omega)
      have c2 : (2 : ℝ) ^ (104 + (E + E) : ℤ) ≤ N * (2 ^ E * 2 ^ E) := by
        rw [zpow_add₀ (by norm_num), zpow_add₀ (by norm_num)]
        refine mul_le_mul_of_nonneg_right ?_ (by positivity)
        have : ((2 ^ 104 : ℕ) : ℝ) ≤ N := by exact_mod_cast hN1
        rw [show (104 : ℤ) = ((104 : ℕ) : ℤ) by norm_num, zpow_natCast]
        exact_mod_cast this
      push_cast at hk
      linarith
    calc |(nearestSqrt N : ℝ) - √N| * 2 ^ E ≤ 1 / 2 * 2 ^ E :=
          mul_le_mul_of_nonneg_right (nearestSqrt_error N) hE0'.le
      _ = 2 ^ (E - 1) := by rw [zpow_sub₀ (by norm_num)]; ring
      _ ≤ 2 ^ (k - 53) := zpow_le_zpow_right₀ (by norm_num) (by omega)

end Sys2Proof.Machine
end

