-- ==== Sys2Proof/Laws/Conversions.lean ====
section
/-! SUPPORT. The conversions between fixed point and binary64, in terms of values: `b64OfBits` is canonical, `toFloatCore`
is exact, and `fromFloatCore` saturates or rounds once and truncates. -/

namespace Sys2Proof.Machine

/-- A 64-bit word encodes a NaN, an infinity or a canonical finite value. -/
theorem b64OfBits_cases (d : DWord) : b64OfBits d = .nan ∨ (∃ neg, b64OfBits d = .inf neg) ∨ IsFinite (b64OfBits d) := by
  have hd := d.isLt
  unfold b64OfBits
  dsimp only
  generalize hx : d.toNat / 2 ^ 52 % 2048 = x
  generalize hf : d.toNat % 2 ^ 52 = f
  have hx2 : x < 2048 := by omega
  have hf2 : f < 2 ^ 52 := by omega
  split_ifs with h1 h2 h3
  · exact .inr (.inl ⟨_, rfl⟩)
  · exact .inl rfl
  · refine .inr (.inr ⟨_, f, -1074, rfl, ?_⟩)
    unfold Canonical; norm_num; omega
  · refine .inr (.inr ⟨_, 2 ^ 52 + f, (x : Int) - 1075, rfl, ?_⟩)
    unfold Canonical; norm_num; omega

/-- `ToFloatCore` is exact (40_fixed_point_core.md R101). -/
theorem toFloatCore_spec (v : Int) (hv : v.natAbs ≤ 2 ^ 31) :
    IsFinite (toFloatCore v) ∧ b64Value (toFloatCore v) = v / 65536 := by
  have habs : |(v : ℚ)| ≤ 2 ^ 31 := by
    rw [← Int.cast_abs, Int.abs_eq_natAbs]; exact_mod_cast hv
  have h16 : (2 : ℚ) ^ (-16 : ℤ) = 1 / 65536 := by norm_num
  have h := isRounding_flDyadic_signed v (-16) (belowOverflow_of_le (by
    rw [h16, abs_mul, abs_of_pos (by norm_num : (0 : ℚ) < 1 / 65536)]
    refine (mul_le_mul_of_nonneg_right habs (by norm_num)).trans (by norm_num)))
  have he := h.exact (representable_mul_two_zpow v (-16) (hv.trans (by norm_num)) (by norm_num))
  refine ⟨h.finite, ?_⟩
  unfold toFloatCore b64OfScaled
  rw [he, h16]; ring

theorem toFloatCore_word (w : Word) :
    IsFinite (toFloatCore w.toInt) ∧ b64Value (toFloatCore w.toInt) = w.toInt / 65536 := by
  have h1 := BitVec.toInt_lt (x := w)
  have h2 := BitVec.le_toInt (x := w)
  exact toFloatCore_spec _ (by norm_num at h1 h2 ⊢; omega)

@[simp] theorem b64Value_convLimit : b64Value convLimit = 32767 := by simp [convLimit]
@[simp] theorem b64Value_scaleFactor : b64Value scaleFactor = 65536 := by norm_num [scaleFactor]
@[simp] theorem b64Value_half : b64Value half = 1 / 2 := by norm_num [half]
@[simp] theorem b64Value_zero : b64Value zero = 0 := by simp [zero]

theorem IsFinite.not_nan {x : B64} (h : IsFinite x) : b64IsNan x = false := by
  obtain ⟨neg, m, e, rfl, -⟩ := h; rfl

theorem b64Lt_finite_left {x : B64} (hx : IsFinite x) (t : Bool) (n : Nat) (f : Int) :
    b64Lt x (.fin t n f) = decide (b64Value x < b64Value (.fin t n f)) := by
  obtain ⟨neg, m, e, rfl, -⟩ := hx; exact b64Lt_fin _ _ _ _ _ _

theorem b64Lt_finite_right {x : B64} (hx : IsFinite x) (t : Bool) (n : Nat) (f : Int) :
    b64Lt (.fin t n f) x = decide (b64Value (.fin t n f) < b64Value x) := by
  obtain ⟨neg, m, e, rfl, -⟩ := hx; exact b64Lt_fin _ _ _ _ _ _

/-- Scaling a finite value of moderate size by 65536 is exact. -/
theorem mul_scaleFactor {x : B64} (hx : IsFinite x) (hb : |b64Value x| ≤ 32767) :
    IsFinite (b64Mul x scaleFactor) ∧ b64Value (b64Mul x scaleFactor) = b64Value x * 65536 := by
  have hrep : Representable (b64Value x * 65536) := by
    obtain ⟨n, f, hn, hf, h⟩ := hx.representable
    refine ⟨n, f + 16, hn, by omega, ?_⟩
    rw [zpow_add₀ (by norm_num)]
    rcases h with h | h <;> rw [h]
    · left; norm_num; ring
    · right; norm_num; ring
  obtain ⟨neg, m, e, rfl, -⟩ := hx
  have h := isRounding_mul neg false m 1 e 16 (belowOverflow_of_le (by
    rw [show b64Value (.fin false 1 16) = 65536 from b64Value_scaleFactor, abs_mul]
    calc _ ≤ (32767 : ℚ) * |65536| := mul_le_mul_of_nonneg_right hb (by positivity)
      _ ≤ _ := by norm_num))
  rw [show b64Value (.fin false 1 16) = 65536 from b64Value_scaleFactor] at h
  exact ⟨h.finite, h.exact hrep⟩

/-- The four cases of `FromFloatCore` on a finite value (40_fixed_point_core.md R100). -/
theorem fromFloatCore_above {x : B64} (hx : IsFinite x) (h : 32767 < b64Value x) : fromFloatCore x = .range satPos := by
  unfold fromFloatCore convLimit
  rw [hx.not_nan, b64Lt_finite_right hx]
  simp [h]

theorem fromFloatCore_below {x : B64} (hx : IsFinite x) (h : b64Value x < -32767) : fromFloatCore x = .range satNeg := by
  unfold fromFloatCore convLimit
  simp only [hx.not_nan, b64Lt_finite_right hx, b64Neg, b64Lt_finite_left hx]
  have h1 : ¬ (32767 < b64Value x) := by linarith
  simp [h, h1]

theorem fromFloatCore_nonneg {x : B64} (hx : IsFinite x) (h0 : 0 ≤ b64Value x) (h1 : b64Value x ≤ 32767) :
    ∃ u, IsRounding (b64Value x * 65536 + 1 / 2) u ∧ 0 ≤ b64Value u ∧
      fromFloatCore x = .plain (BitVec.ofInt 32 ⌊b64Value u⌋) := by
  obtain ⟨hf, hv⟩ := mul_scaleFactor hx (by rw [abs_of_nonneg h0]; exact h1)
  have hu : IsRounding (b64Value x * 65536 + 1 / 2) (b64Add (b64Mul x scaleFactor) half) := by
    obtain ⟨neg, m, e, hm, -⟩ := hf
    have h := isRounding_add neg false m 1 e (-1) (belowOverflow_of_le (by
      rw [← hm, hv, show b64Value (.fin false 1 (-1)) = 1 / 2 from b64Value_half, abs_of_nonneg (by positivity)]
      linarith))
    rwa [← hm, hv, show b64Value (.fin false 1 (-1)) = 1 / 2 from b64Value_half] at h
  have hpos := hu.ge_of_ge 0 (by simpa using representable_int 0 (by norm_num)) (by positivity)
  refine ⟨_, hu, hpos, ?_⟩
  rw [← b64Trunc_of_nonneg hu.finite hpos]
  unfold fromFloatCore convLimit zero
  simp only [hx.not_nan, b64Lt_finite_right hx, b64Neg, b64Lt_finite_left hx]
  simp [not_lt.mpr h1, not_lt.mpr h0, show ¬ (b64Value x < -32767) by linarith]

theorem fromFloatCore_neg {x : B64} (hx : IsFinite x) (h0 : b64Value x < 0) (h1 : -32767 ≤ b64Value x) :
    ∃ u, IsRounding (b64Value x * 65536 - 1 / 2) u ∧ b64Value u ≤ 0 ∧
      fromFloatCore x = .plain (BitVec.ofInt 32 (-⌊-b64Value u⌋)) := by
  obtain ⟨hf, hv⟩ := mul_scaleFactor hx (by rw [abs_of_neg h0]; linarith)
  have hu : IsRounding (b64Value x * 65536 - 1 / 2) (b64Sub (b64Mul x scaleFactor) half) := by
    obtain ⟨neg, m, e, hm, -⟩ := hf
    have h := isRounding_sub neg false m 1 e (-1) (belowOverflow_of_le (by
      rw [← hm, hv, show b64Value (.fin false 1 (-1)) = 1 / 2 from b64Value_half, abs_of_neg (by linarith)]
      linarith))
    rwa [← hm, hv, show b64Value (.fin false 1 (-1)) = 1 / 2 from b64Value_half] at h
  have hneg := hu.le_of_le 0 (by simpa using representable_int 0 (by norm_num)) (by linarith)
  refine ⟨_, hu, hneg, ?_⟩
  rw [← b64Trunc_of_nonpos hu.finite hneg]
  unfold fromFloatCore convLimit zero
  simp only [hx.not_nan, b64Lt_finite_right hx, b64Neg, b64Lt_finite_left hx]
  simp [h0, show ¬ (32767 < b64Value x) by linarith, not_lt.mpr h1]

/-- A NaN gives the parameter `NAN_RESULT`, with no code. -/
theorem fromFloatCore_nan : fromFloatCore .nan = .plain Config.nanResult := rfl

/-- An infinity saturates. -/
theorem fromFloatCore_inf (neg : Bool) : fromFloatCore (.inf neg) = .range (if neg then satNeg else satPos) := by
  cases neg <;> rfl

end Sys2Proof.Machine
end

