-- ==== Sys2Proof/Laws/Decode.lean ====
section
/-! SUPPORT. The fields of an encoded word, and the fields of any word as parts of its number. -/

namespace Sys2Proof

theorem fields_toNat (a : BitVec 19) (b : BitVec 5) (c : BitVec 8) :
    (a ++ b ++ c : BitVec (19 + 5 + 8)).toNat = (a.toNat * 32 + b.toNat) * 256 + c.toNat := by
  have hb := b.isLt
  have hc := c.isLt
  rw [BitVec.toNat_append, BitVec.toNat_append, ← Nat.shiftLeft_add_eq_or_of_lt hb,
    ← Nat.shiftLeft_add_eq_or_of_lt hc, Nat.shiftLeft_eq, Nat.shiftLeft_eq]

theorem extract_op (a : BitVec 19) (b : BitVec 5) (c : BitVec 8) : (a ++ b ++ c).extractLsb' 0 8 = c := by
  apply BitVec.eq_of_toNat_eq
  rw [BitVec.extractLsb'_toNat, fields_toNat]
  have hc := c.isLt
  simp
  omega

theorem extract_sh (a : BitVec 19) (b : BitVec 5) (c : BitVec 8) : (a ++ b ++ c).extractLsb' 8 5 = b := by
  apply BitVec.eq_of_toNat_eq
  rw [BitVec.extractLsb'_toNat, fields_toNat, Nat.shiftRight_eq_div_pow]
  have hb := b.isLt
  have hc := c.isLt
  omega

theorem extract_rsv (a : BitVec 19) (b : BitVec 5) (c : BitVec 8) : (a ++ b ++ c).extractLsb' 13 19 = a := by
  apply BitVec.eq_of_toNat_eq
  rw [BitVec.extractLsb'_toNat, fields_toNat, Nat.shiftRight_eq_div_pow]
  have ha := a.isLt
  have hb := b.isLt
  have hc := c.isLt
  omega

/-- The fields of an encoded word are the ones it was made from. -/
@[simp] theorem opField_encode (i : Instr) : opField (encode i) = opcode i := extract_op _ _ _
@[simp] theorem shField_encode (i : Instr) : shField (encode i) = shiftAmount i := extract_sh _ _ _
@[simp] theorem rsvField_encode (i : Instr) : rsvField (encode i) = 0#19 := extract_rsv _ _ _

theorem opField_toNat (w : Word) : (opField w).toNat = w.toNat % 256 := by
  simp [opField, BitVec.extractLsb'_toNat]

theorem shField_toNat (w : Word) : (shField w).toNat = w.toNat / 256 % 32 := by
  simp [shField, BitVec.extractLsb'_toNat, Nat.shiftRight_eq_div_pow]

theorem rsvField_toNat (w : Word) : (rsvField w).toNat = w.toNat / 8192 := by
  have := w.isLt
  simp [rsvField, BitVec.extractLsb'_toNat, Nat.shiftRight_eq_div_pow]
  omega

/-- A word is its three fields. -/
theorem word_eq_fields (w : Word) : w = rsvField w ++ shField w ++ opField w := by
  apply BitVec.eq_of_toNat_eq
  refine Eq.trans ?_ (fields_toNat _ _ _).symm
  rw [opField_toNat, shField_toNat, rsvField_toNat]
  omega

end Sys2Proof
end

