-- ==== Sys2Proof/Laws/PerInstr.lean ====
section
/-! SUPPORT. Facts about every command as syntax, one lemma for each constructor. -/

namespace Sys2Proof.Laws

/-- The word of the command is legal (30_encoding.md R75). -/
def EncodesLegal.Statement (i : Instr) : Prop := legal (encode i) = true

theorem EncodesLegal.fromint : EncodesLegal.Statement .fromint := by unfold EncodesLegal.Statement; decide
theorem EncodesLegal.toint : EncodesLegal.Statement .toint := by unfold EncodesLegal.Statement; decide
theorem EncodesLegal.fromfloat : EncodesLegal.Statement .fromfloat := by unfold EncodesLegal.Statement; decide
theorem EncodesLegal.tofloat : EncodesLegal.Statement .tofloat := by unfold EncodesLegal.Statement; decide
theorem EncodesLegal.add : EncodesLegal.Statement .add := by unfold EncodesLegal.Statement; decide
theorem EncodesLegal.sub : EncodesLegal.Statement .sub := by unfold EncodesLegal.Statement; decide
theorem EncodesLegal.shl (sh : BitVec 5) : EncodesLegal.Statement (.shl sh) := by
  unfold EncodesLegal.Statement; revert sh; decide
theorem EncodesLegal.shr (sh : BitVec 5) : EncodesLegal.Statement (.shr sh) := by
  unfold EncodesLegal.Statement; revert sh; decide
theorem EncodesLegal.mul : EncodesLegal.Statement .mul := by unfold EncodesLegal.Statement; decide
theorem EncodesLegal.div : EncodesLegal.Statement .div := by unfold EncodesLegal.Statement; decide
theorem EncodesLegal.cos : EncodesLegal.Statement .cos := by unfold EncodesLegal.Statement; decide
theorem EncodesLegal.sin : EncodesLegal.Statement .sin := by unfold EncodesLegal.Statement; decide
theorem EncodesLegal.tan : EncodesLegal.Statement .tan := by unfold EncodesLegal.Statement; decide
theorem EncodesLegal.acos : EncodesLegal.Statement .acos := by unfold EncodesLegal.Statement; decide
theorem EncodesLegal.asin : EncodesLegal.Statement .asin := by unfold EncodesLegal.Statement; decide
theorem EncodesLegal.atan : EncodesLegal.Statement .atan := by unfold EncodesLegal.Statement; decide
theorem EncodesLegal.atan2 : EncodesLegal.Statement .atan2 := by unfold EncodesLegal.Statement; decide
theorem EncodesLegal.sqrt : EncodesLegal.Statement .sqrt := by unfold EncodesLegal.Statement; decide
theorem EncodesLegal.hypot : EncodesLegal.Statement .hypot := by unfold EncodesLegal.Statement; decide
theorem EncodesLegal.errget : EncodesLegal.Statement .errget := by unfold EncodesLegal.Statement; decide
theorem EncodesLegal.errset : EncodesLegal.Statement .errset := by unfold EncodesLegal.Statement; decide

end Sys2Proof.Laws
end

