-- ==== Sys2Proof/Laws/State.lean ====
section
/-! SUPPORT. One lemma for each field of State and each update of it, true by rfl, so that no later proof unfolds a record
update; and what each shared operation can do, said once. -/

namespace Sys2Proof.Machine

/-! ## respond -/

@[simp] theorem respond_err (v : DWord) (s : State) : (respond v s).err = s.err := rfl
@[simp] theorem respond_cosRom (v : DWord) (s : State) : (respond v s).cosRom = s.cosRom := rfl
@[simp] theorem respond_tanRom (v : DWord) (s : State) : (respond v s).tanRom = s.tanRom := rfl
@[simp] theorem respond_acosRom (v : DWord) (s : State) : (respond v s).acosRom = s.acosRom := rfl
@[simp] theorem respond_cmd (v : DWord) (s : State) : (respond v s).cmd = s.cmd := rfl
@[simp] theorem respond_opa (v : DWord) (s : State) : (respond v s).opa = s.opa := rfl
@[simp] theorem respond_opb (v : DWord) (s : State) : (respond v s).opb = s.opb := rfl
@[simp] theorem respond_response (v : DWord) (s : State) : (respond v s).response = some ⟨v, false⟩ := rfl
@[simp] theorem respond_resetLine (v : DWord) (s : State) : (respond v s).resetLine = s.resetLine := rfl
@[simp] theorem respond_pending (v : DWord) (s : State) : (respond v s).pending = s.pending := rfl
@[simp] theorem respond_freeCount (v : DWord) (s : State) : (respond v s).freeCount = s.freeCount := rfl

/-! ## record, without a code -/

@[simp] theorem record_none_err (s : State) : (record none s).err = s.err := rfl
@[simp] theorem record_none_cosRom (s : State) : (record none s).cosRom = s.cosRom := rfl
@[simp] theorem record_none_tanRom (s : State) : (record none s).tanRom = s.tanRom := rfl
@[simp] theorem record_none_acosRom (s : State) : (record none s).acosRom = s.acosRom := rfl
@[simp] theorem record_none_cmd (s : State) : (record none s).cmd = s.cmd := rfl
@[simp] theorem record_none_opa (s : State) : (record none s).opa = s.opa := rfl
@[simp] theorem record_none_opb (s : State) : (record none s).opb = s.opb := rfl
@[simp] theorem record_none_response (s : State) : (record none s).response = s.response := rfl
@[simp] theorem record_none_resetLine (s : State) : (record none s).resetLine = s.resetLine := rfl
@[simp] theorem record_none_pending (s : State) : (record none s).pending = s.pending := rfl
@[simp] theorem record_none_freeCount (s : State) : (record none s).freeCount = s.freeCount := rfl

/-! ## record, with a code -/

@[simp] theorem record_some_err (c : BitVec 2) (s : State) : (record (some c) s).err = c := rfl
@[simp] theorem record_some_cosRom (c : BitVec 2) (s : State) : (record (some c) s).cosRom = s.cosRom := rfl
@[simp] theorem record_some_tanRom (c : BitVec 2) (s : State) : (record (some c) s).tanRom = s.tanRom := rfl
@[simp] theorem record_some_acosRom (c : BitVec 2) (s : State) : (record (some c) s).acosRom = s.acosRom := rfl
@[simp] theorem record_some_cmd (c : BitVec 2) (s : State) : (record (some c) s).cmd = s.cmd := rfl
@[simp] theorem record_some_opa (c : BitVec 2) (s : State) : (record (some c) s).opa = s.opa := rfl
@[simp] theorem record_some_opb (c : BitVec 2) (s : State) : (record (some c) s).opb = s.opb := rfl
@[simp] theorem record_some_response (c : BitVec 2) (s : State) : (record (some c) s).response = s.response := rfl
@[simp] theorem record_some_resetLine (c : BitVec 2) (s : State) : (record (some c) s).resetLine = s.resetLine := rfl
@[simp] theorem record_some_pending (c : BitVec 2) (s : State) : (record (some c) s).pending = s.pending := rfl
@[simp] theorem record_some_freeCount (c : BitVec 2) (s : State) : (record (some c) s).freeCount = s.freeCount := rfl

/-! ## answerIllegal -/

@[simp] theorem answerIllegal_err (s : State) : (answerIllegal s).err = s.err := rfl
@[simp] theorem answerIllegal_cosRom (s : State) : (answerIllegal s).cosRom = s.cosRom := rfl
@[simp] theorem answerIllegal_tanRom (s : State) : (answerIllegal s).tanRom = s.tanRom := rfl
@[simp] theorem answerIllegal_acosRom (s : State) : (answerIllegal s).acosRom = s.acosRom := rfl
@[simp] theorem answerIllegal_cmd (s : State) : (answerIllegal s).cmd = s.cmd := rfl
@[simp] theorem answerIllegal_opa (s : State) : (answerIllegal s).opa = s.opa := rfl
@[simp] theorem answerIllegal_opb (s : State) : (answerIllegal s).opb = s.opb := rfl
@[simp] theorem answerIllegal_response (s : State) : (answerIllegal s).response = some ⟨0#64, true⟩ := rfl
@[simp] theorem answerIllegal_resetLine (s : State) : (answerIllegal s).resetLine = s.resetLine := rfl
@[simp] theorem answerIllegal_pending (s : State) : (answerIllegal s).pending = s.pending := rfl
@[simp] theorem answerIllegal_freeCount (s : State) : (answerIllegal s).freeCount = s.freeCount := rfl

/-! ## accept -/

@[simp] theorem accept_err (t : Transaction) (rest : List Transaction) (s : State) : (accept t rest s).err = s.err := rfl
@[simp] theorem accept_cosRom (t : Transaction) (rest : List Transaction) (s : State) : (accept t rest s).cosRom = s.cosRom := rfl
@[simp] theorem accept_tanRom (t : Transaction) (rest : List Transaction) (s : State) : (accept t rest s).tanRom = s.tanRom := rfl
@[simp] theorem accept_acosRom (t : Transaction) (rest : List Transaction) (s : State) : (accept t rest s).acosRom = s.acosRom := rfl
@[simp] theorem accept_cmd (t : Transaction) (rest : List Transaction) (s : State) : (accept t rest s).cmd = t.cmd := rfl
@[simp] theorem accept_opa (t : Transaction) (rest : List Transaction) (s : State) : (accept t rest s).opa = t.opa := rfl
@[simp] theorem accept_opb (t : Transaction) (rest : List Transaction) (s : State) : (accept t rest s).opb = t.opb := rfl
@[simp] theorem accept_response (t : Transaction) (rest : List Transaction) (s : State) : (accept t rest s).response = s.response := rfl
@[simp] theorem accept_resetLine (t : Transaction) (rest : List Transaction) (s : State) : (accept t rest s).resetLine = s.resetLine := rfl
@[simp] theorem accept_pending (t : Transaction) (rest : List Transaction) (s : State) : (accept t rest s).pending = rest := rfl
@[simp] theorem accept_freeCount (t : Transaction) (rest : List Transaction) (s : State) : (accept t rest s).freeCount = s.freeCount := rfl

/-! ## record, either way -/

theorem record_err (c : Option (BitVec 2)) (s : State) : (record c s).err = c.getD s.err := by cases c <;> rfl
@[simp] theorem record_cosRom (c : Option (BitVec 2)) (s : State) : (record c s).cosRom = s.cosRom := by cases c <;> rfl
@[simp] theorem record_tanRom (c : Option (BitVec 2)) (s : State) : (record c s).tanRom = s.tanRom := by cases c <;> rfl
@[simp] theorem record_acosRom (c : Option (BitVec 2)) (s : State) : (record c s).acosRom = s.acosRom := by cases c <;> rfl
@[simp] theorem record_cmd (c : Option (BitVec 2)) (s : State) : (record c s).cmd = s.cmd := by cases c <;> rfl
@[simp] theorem record_opa (c : Option (BitVec 2)) (s : State) : (record c s).opa = s.opa := by cases c <;> rfl
@[simp] theorem record_opb (c : Option (BitVec 2)) (s : State) : (record c s).opb = s.opb := by cases c <;> rfl
@[simp] theorem record_response (c : Option (BitVec 2)) (s : State) : (record c s).response = s.response := by cases c <;> rfl
@[simp] theorem record_resetLine (c : Option (BitVec 2)) (s : State) : (record c s).resetLine = s.resetLine := by cases c <;> rfl
@[simp] theorem record_pending (c : Option (BitVec 2)) (s : State) : (record c s).pending = s.pending := by cases c <;> rfl
@[simp] theorem record_freeCount (c : Option (BitVec 2)) (s : State) : (record c s).freeCount = s.freeCount := by cases c <;> rfl

/-! ## waitIdle -/

@[simp] theorem waitIdle_err (s : State) : (waitIdle s).err = s.err := rfl
@[simp] theorem waitIdle_cosRom (s : State) : (waitIdle s).cosRom = s.cosRom := rfl
@[simp] theorem waitIdle_tanRom (s : State) : (waitIdle s).tanRom = s.tanRom := rfl
@[simp] theorem waitIdle_acosRom (s : State) : (waitIdle s).acosRom = s.acosRom := rfl
@[simp] theorem waitIdle_cmd (s : State) : (waitIdle s).cmd = s.cmd := rfl
@[simp] theorem waitIdle_opa (s : State) : (waitIdle s).opa = s.opa := rfl
@[simp] theorem waitIdle_opb (s : State) : (waitIdle s).opb = s.opb := rfl
@[simp] theorem waitIdle_resetLine (s : State) : (waitIdle s).resetLine = s.resetLine := rfl
@[simp] theorem waitIdle_pending (s : State) : (waitIdle s).pending = s.pending := rfl
@[simp] theorem waitIdle_freeCount (s : State) : (waitIdle s).freeCount = s.freeCount := rfl
@[simp] theorem waitIdle_response (s : State) : (waitIdle s).response = none := rfl

/-! ## holdInReset -/

@[simp] theorem holdInReset_err (s : State) : (holdInReset s).err = 0#2 := by
  unfold holdInReset; cases s.pending <;> rfl
@[simp] theorem holdInReset_cosRom (s : State) : (holdInReset s).cosRom = s.cosRom := by
  unfold holdInReset; cases s.pending <;> rfl
@[simp] theorem holdInReset_tanRom (s : State) : (holdInReset s).tanRom = s.tanRom := by
  unfold holdInReset; cases s.pending <;> rfl
@[simp] theorem holdInReset_acosRom (s : State) : (holdInReset s).acosRom = s.acosRom := by
  unfold holdInReset; cases s.pending <;> rfl
@[simp] theorem holdInReset_cmd (s : State) : (holdInReset s).cmd = s.cmd := by
  unfold holdInReset; cases s.pending <;> rfl
@[simp] theorem holdInReset_opa (s : State) : (holdInReset s).opa = s.opa := by
  unfold holdInReset; cases s.pending <;> rfl
@[simp] theorem holdInReset_opb (s : State) : (holdInReset s).opb = s.opb := by
  unfold holdInReset; cases s.pending <;> rfl
@[simp] theorem holdInReset_resetLine (s : State) : (holdInReset s).resetLine = s.resetLine := by
  unfold holdInReset; cases s.pending <;> rfl
@[simp] theorem holdInReset_pending (s : State) : (holdInReset s).pending = s.pending.tail := by
  unfold holdInReset; split <;> simp [*]

/-! ## withFetchWord -/

@[simp] theorem withFetchWord_err (s : State) (nbits w : Nat) : (s.withFetchWord nbits w).err = s.err := rfl
@[simp] theorem withFetchWord_cosRom (s : State) (nbits w : Nat) : (s.withFetchWord nbits w).cosRom = s.cosRom := rfl
@[simp] theorem withFetchWord_tanRom (s : State) (nbits w : Nat) : (s.withFetchWord nbits w).tanRom = s.tanRom := rfl
@[simp] theorem withFetchWord_acosRom (s : State) (nbits w : Nat) : (s.withFetchWord nbits w).acosRom = s.acosRom := rfl
@[simp] theorem withFetchWord_cmd (s : State) (nbits w : Nat) : (s.withFetchWord nbits w).cmd = s.cmd := rfl
@[simp] theorem withFetchWord_opa (s : State) (nbits w : Nat) : (s.withFetchWord nbits w).opa = s.opa := rfl
@[simp] theorem withFetchWord_opb (s : State) (nbits w : Nat) : (s.withFetchWord nbits w).opb = s.opb := rfl
@[simp] theorem withFetchWord_response (s : State) (nbits w : Nat) : (s.withFetchWord nbits w).response = s.response := rfl
@[simp] theorem withFetchWord_resetLine (s : State) (nbits w : Nat) : (s.withFetchWord nbits w).resetLine = false := rfl
@[simp] theorem withFetchWord_freeCount (s : State) (nbits w : Nat) : (s.withFetchWord nbits w).freeCount = s.freeCount := rfl

/-! ## reset -/

@[simp] theorem reset_err : State.reset.err = 0#2 := rfl
@[simp] theorem reset_cosRom : State.reset.cosRom = cosImage := rfl
@[simp] theorem reset_tanRom : State.reset.tanRom = tanImage := rfl
@[simp] theorem reset_acosRom : State.reset.acosRom = acosImage := rfl
@[simp] theorem reset_pending : State.reset.pending = [] := rfl
@[simp] theorem reset_resetLine : State.reset.resetLine = false := rfl
@[simp] theorem reset_response : State.reset.response = none := rfl

/-! ## What a command can do -/

/-- Every command completes: it records at most one code and responds, and does nothing else (60_exceptions.md R221). -/
theorem exec_shape (i : Instr) (s : State) : ∃ c v, exec i s = .next (respond v (record c s)) := by
  cases i
  case tofloat => exact ⟨none, _, rfl⟩
  case errget => exact ⟨none, _, rfl⟩
  all_goals exact ⟨_, _, rfl⟩

/-- A step holds the machine in reset, waits, answers an illegal word, or performs the command of the oldest
transaction. -/
theorem step_cases (s : State) :
    (s.resetLine = true ∧ step s = .next (holdInReset s)) ∨
    (s.resetLine = false ∧ s.pending = [] ∧ step s = .next (waitIdle s)) ∨
    (∃ t rest, s.resetLine = false ∧ s.pending = t :: rest ∧
      ((∃ e, decode t.cmd = .error e ∧ step s = .next (answerIllegal (accept t rest s))) ∨
       (∃ i, decode t.cmd = .ok i ∧ step s = exec i (accept t rest s)))) := by
  unfold step
  cases hr : s.resetLine
  · cases hp : s.pending with
    | nil => exact .inr (.inl ⟨rfl, rfl, by simp⟩)
    | cons t rest =>
      refine .inr (.inr ⟨t, rest, rfl, rfl, ?_⟩)
      cases hd : decode t.cmd with
      | error e => exact .inl ⟨e, rfl, by simp [perform, hd]⟩
      | ok i => exact .inr ⟨i, rfl, by simp [perform, hd]⟩
  · exact .inl ⟨rfl, by simp⟩

/-- Every step answers a next state whose ROMs, and reset input, are those it started from. -/
theorem step_next (s : State) : ∃ t, step s = .next t ∧ t.cosRom = s.cosRom ∧ t.tanRom = s.tanRom ∧
    t.acosRom = s.acosRom ∧ t.resetLine = s.resetLine := by
  rcases step_cases s with ⟨-, h⟩ | ⟨-, -, h⟩ | ⟨t, rest, -, -, ⟨e, -, h⟩ | ⟨i, -, h⟩⟩
  · exact ⟨_, h, by simp⟩
  · exact ⟨_, h, rfl, rfl, rfl, rfl⟩
  · exact ⟨_, h, by simp⟩
  · obtain ⟨c, v, he⟩ := exec_shape i (accept t rest s)
    exact ⟨_, h.trans he, by simp⟩

end Sys2Proof.Machine
end

