-- ==== Sys2Proof/Tests/Slice0.lean ====
section
/-! SUPPORT. Tests. Expected results are those of spec/95_test_vectors.md, the worked corner cases of the rules, or the
encodings of spec/30_encoding.md R74; each test names its source. The witnesses show that the hypotheses of every
statement, and of each clause of it, can be met. -/

namespace Sys2Proof.Tests

/- One theorem at a time: many kernel evaluations at once take more memory than a check has. -/
set_option Elab.async false

open Sys2Proof Sys2Proof.Machine

/-- The state after reset with one transaction issued. -/
def issue (cmd : Word) (opa : DWord) (opb : Word) : State := { State.reset with pending := [⟨cmd, opa, opb⟩] }

/-- The state after reset with the operand ports sampled. -/
def ports (opa : DWord) (opb : Word) : State := { State.reset with opa := opa, opb := opb }

/-- What the host sees of an outcome: ERR, RES, ILL. -/
def seen (o : Host.Outcome State Fault Refusal) : Option (BitVec 2 × DWord × Bool) :=
  match o with
  | .next s => s.response.map (fun r => (s.err, r.res, r.ill))
  | .fault _ => none
  | .refused _ => none

/-! ## Decoding: the words of 30_encoding.md R74, written out field by field as RSV, SH, OP -/

theorem test_decode_fromint : decode (0b0000000000000000000#19 ++ 0b00000#5 ++ 0b00000001#8) = .ok .fromint := by decide
theorem test_decode_toint : decode (0b0000000000000000000#19 ++ 0b00000#5 ++ 0b00000010#8) = .ok .toint := by decide
theorem test_decode_fromfloat : decode (0b0000000000000000000#19 ++ 0b00000#5 ++ 0b00000011#8) = .ok .fromfloat := by decide
theorem test_decode_tofloat : decode (0b0000000000000000000#19 ++ 0b00000#5 ++ 0b00000100#8) = .ok .tofloat := by decide
theorem test_decode_add : decode (0b0000000000000000000#19 ++ 0b00000#5 ++ 0b00000101#8) = .ok .add := by decide
theorem test_decode_sub : decode (0b0000000000000000000#19 ++ 0b00000#5 ++ 0b00000110#8) = .ok .sub := by decide
theorem test_decode_mul : decode (0b0000000000000000000#19 ++ 0b00000#5 ++ 0b00010000#8) = .ok .mul := by decide
theorem test_decode_div : decode (0b0000000000000000000#19 ++ 0b00000#5 ++ 0b00010001#8) = .ok .div := by decide
theorem test_decode_cos : decode (0b0000000000000000000#19 ++ 0b00000#5 ++ 0b00100000#8) = .ok .cos := by decide
theorem test_decode_sin : decode (0b0000000000000000000#19 ++ 0b00000#5 ++ 0b00100001#8) = .ok .sin := by decide
theorem test_decode_tan : decode (0b0000000000000000000#19 ++ 0b00000#5 ++ 0b00100010#8) = .ok .tan := by decide
theorem test_decode_acos : decode (0b0000000000000000000#19 ++ 0b00000#5 ++ 0b00100011#8) = .ok .acos := by decide
theorem test_decode_asin : decode (0b0000000000000000000#19 ++ 0b00000#5 ++ 0b00100100#8) = .ok .asin := by decide
theorem test_decode_atan : decode (0b0000000000000000000#19 ++ 0b00000#5 ++ 0b00101000#8) = .ok .atan := by decide
theorem test_decode_atan2 : decode (0b0000000000000000000#19 ++ 0b00000#5 ++ 0b00101001#8) = .ok .atan2 := by decide
theorem test_decode_sqrt : decode (0b0000000000000000000#19 ++ 0b00000#5 ++ 0b00101010#8) = .ok .sqrt := by decide
theorem test_decode_hypot : decode (0b0000000000000000000#19 ++ 0b00000#5 ++ 0b00101011#8) = .ok .hypot := by decide
theorem test_decode_errget : decode (0b0000000000000000000#19 ++ 0b00000#5 ++ 0b00110000#8) = .ok .errget := by decide
theorem test_decode_errset : decode (0b0000000000000000000#19 ++ 0b00000#5 ++ 0b00110001#8) = .ok .errset := by decide
theorem test_decode_shl : decode (0b0000000000000000000#19 ++ 0b11111#5 ++ 0b00000111#8) = .ok (.shl 31#5) := by decide
theorem test_decode_shr : decode (0b0000000000000000000#19 ++ 0b00001#5 ++ 0b00001000#8) = .ok (.shr 1#5) := by decide

/-! ## Legality: one ill-formed word for each check of 30_encoding.md R75 (95_test_vectors.md, the illegal words) -/

theorem test_illegal_opcode : opAssigned 0x00000000#32 = false ∧ legal 0x00000000#32 = false ∧
    decode 0x00000000#32 = .error .unassignedOp ∧ decode 0x00000032#32 = .error .unassignedOp := by decide
theorem test_illegal_reserved_bit : rsvZero 0x00002005#32 = false ∧ legal 0x00002005#32 = false ∧
    decode 0x00002005#32 = .error .reservedBits ∧ decode 0x80000007#32 = .error .reservedBits := by decide
theorem test_illegal_shift_amount : shAllowed 0x00000105#32 = false ∧ legal 0x00000105#32 = false ∧
    decode 0x00000105#32 = .error .shiftOnNonShift := by decide
theorem test_illegal_word_answered :
    seen (step (issue 0x00000105#32 1#64 2#32)) = some (0#2, 0#64, true) := by decide +kernel
theorem test_truncated_bytes : decodeBytes [0x05#8, 0x00#8, 0x00#8] = .error .truncated := by decide

/-! ## Results, from 95_test_vectors.md sections V1 to V19 -/

theorem test_fromint_drops_high_bits : seen (step (issue 0x00000001#32 0x12345678#64 0x0#32)) =
    some (0#2, 0x56780000#64, false) := by decide +kernel
theorem test_fromint_wraps : seen (step (issue 0x00000001#32 0x8000#64 0x0#32)) =
    some (0#2, 0x80000000#64, false) := by decide +kernel
theorem test_toint_half_rounds_up : seen (step (issue 0x00000002#32 0xFFFF8000#64 0x0#32)) =
    some (0#2, 0x0#64, false) := by decide +kernel
theorem test_toint_exceeds_fromint : seen (step (issue 0x00000002#32 0x7FFFFFFF#64 0x0#32)) =
    some (0#2, 0x8000#64, false) := by decide +kernel
theorem test_fromfloat_below_half_unit : seen (step (issue 0x00000003#32 0x3EDFFFFFFFFFFFFF#64 0x0#32)) =
    some (0#2, 0x1#64, false) := by decide +kernel
theorem test_fromfloat_saturates : seen (step (issue 0x00000003#32 0xC0E0000000000000#64 0x0#32)) =
    some (1#2, 0x80000001#64, false) := by decide +kernel
theorem test_tofloat_sat_pos : seen (step (issue 0x00000004#32 0x7FFFFFFF#64 0x0#32)) =
    some (0#2, 0x40DFFFFFFFC00000#64, false) := by decide +kernel
theorem test_tofloat_smallest : seen (step (issue 0x00000004#32 0x80000000#64 0x0#32)) =
    some (0#2, 0xC0E0000000000000#64, false) := by decide +kernel
theorem test_add_saturates : seen (step (issue 0x00000005#32 0x7FFF0000#64 0x10000#32)) =
    some (1#2, 0x7FFFFFFF#64, false) := by decide +kernel
theorem test_add_to_smallest : seen (step (issue 0x00000005#32 0x80000001#64 0xFFFFFFFF#32)) =
    some (0#2, 0x80000000#64, false) := by decide +kernel
theorem test_sub_zero_minus_smallest : seen (step (issue 0x00000006#32 0x0#64 0x80000000#32)) =
    some (0#2, 0x80000000#64, false) := by decide +kernel
theorem test_sub_saturates : seen (step (issue 0x00000006#32 0x80000001#64 0x2#32)) =
    some (1#2, 0x80000001#64, false) := by decide +kernel
theorem test_shl_loses_high_bits : seen (step (issue 0x00000807#32 0x12345678#64 0x0#32)) =
    some (0#2, 0x34567800#64, false) := by decide +kernel
theorem test_shl_by_31 : seen (step (issue 0x00001F07#32 0x1#64 0x0#32)) =
    some (0#2, 0x80000000#64, false) := by decide +kernel
theorem test_shr_floors : seen (step (issue 0x00000108#32 0xFFFFFFFD#64 0x0#32)) =
    some (0#2, 0xFFFFFFFE#64, false) := by decide +kernel
theorem test_shr_sign_fills : seen (step (issue 0x00001F08#32 0x80000000#64 0x0#32)) =
    some (0#2, 0xFFFFFFFF#64, false) := by decide +kernel
theorem test_mul_half_away : seen (step (issue 0x00000010#32 0xFFFFFFFF#64 0x8000#32)) =
    some (0#2, 0xFFFFFFFF#64, false) := by decide +kernel
theorem test_mul_saturates : seen (step (issue 0x00000010#32 0x7FFF0000#64 0x10001#32)) =
    some (1#2, 0x7FFFFFFF#64, false) := by decide +kernel
theorem test_div_zero_by_zero : seen (step (issue 0x00000011#32 0x0#64 0x0#32)) =
    some (1#2, 0x7FFFFFFF#64, false) := by decide +kernel
theorem test_div_half_away : seen (step (issue 0x00000011#32 0xFFFFFFFD#64 0x20000#32)) =
    some (0#2, 0xFFFFFFFE#64, false) := by decide +kernel
theorem test_cos_tie_goes_up : seen (step (issue 0x00000020#32 0x4000#64 0x0#32)) =
    some (0#2, 0xFFFB#64, false) := by decide +kernel
theorem test_cos_negative_angle : seen (step (issue 0x00000020#32 0xFFFFC000#64 0x0#32)) =
    some (0#2, 0x10000#64, false) := by decide +kernel
theorem test_sin_below_tie : seen (step (issue 0x00000021#32 0x3FBFFF#64 0x0#32)) =
    some (0#2, 0xFFFB#64, false) := by decide +kernel
theorem test_sin_wraps : seen (step (issue 0x00000021#32 0x7FFFFFFF#64 0x0#32)) =
    some (0#2, 0x0#64, false) := by decide +kernel
theorem test_tan_pole_records_nothing : seen (step (issue 0x00000022#32 0x3FC000#64 0x0#32)) =
    some (0#2, 0x7FFFFFFF#64, false) := by decide +kernel
theorem test_tan_past_pole : seen (step (issue 0x00000022#32 0x404000#64 0x0#32)) =
    some (0#2, 0xFFAE844A#64, false) := by decide +kernel
theorem test_acos_past_tie : seen (step (issue 0x00000023#32 0x81#64 0x0#32)) =
    some (0#2, 0x3FD742#64, false) := by decide +kernel
theorem test_acos_domain : seen (step (issue 0x00000023#32 0x10001#64 0x0#32)) =
    some (2#2, 0x0#64, false) := by decide +kernel
theorem test_asin_past_tie : seen (step (issue 0x00000024#32 0x81#64 0x0#32)) =
    some (0#2, 0x28BE#64, false) := by decide +kernel
theorem test_asin_minus_one : seen (step (issue 0x00000024#32 0xFFFF0000#64 0x0#32)) =
    some (0#2, 0xFFC00000#64, false) := by decide +kernel
theorem test_atan_sixty_degrees : seen (step (issue 0x00000028#32 0x1BB68#64 0x0#32)) =
    some (0#2, 0x2AAAAE#64, false) := by decide +kernel
theorem test_atan_smallest : seen (step (issue 0x00000028#32 0x80000000#64 0x0#32)) =
    some (0#2, 0xFFC00051#64, false) := by decide +kernel
theorem test_atan2_rounds_to_minus_half_turn : seen (step (issue 0x00000029#32 0xFFFFFFFF#64 0x80000001#32)) =
    some (0#2, 0xFF800000#64, false) := by decide +kernel
theorem test_atan2_second_quadrant : seen (step (issue 0x00000029#32 0x10000#64 0xFFFF0000#32)) =
    some (0#2, 0x600000#64, false) := by decide +kernel
theorem test_sqrt_sat_pos : seen (step (issue 0x0000002A#32 0x7FFFFFFF#64 0x0#32)) =
    some (0#2, 0xB504F3#64, false) := by decide +kernel
theorem test_sqrt_domain : seen (step (issue 0x0000002A#32 0xFFFFFFFF#64 0x0#32)) =
    some (2#2, 0x0#64, false) := by decide +kernel
theorem test_hypot_signs : seen (step (issue 0x0000002B#32 0xFFFD0000#64 0xFFFC0000#32)) =
    some (0#2, 0x50000#64, false) := by decide +kernel
theorem test_hypot_saturates : seen (step (issue 0x0000002B#32 0x5A820000#64 0x5A820000#32)) =
    some (1#2, 0x7FFFFFFF#64, false) := by decide +kernel
theorem test_errset_reserved_code : seen (step (issue 0x00000031#32 0x3#64 0x0#32)) =
    some (3#2, 0x0#64, false) := by decide +kernel
/-- 44_error_access.md R200: ERRGET after an ERRSET of 3 returns 3. -/
theorem test_errget_reads_back :
    seen (step { issue 0x30#32 0#64 0#32 with err := 3#2 }) = some (3#2, 3#64, false) := by decide +kernel

/-- 20_memory.md R44, the spot checks printed below the images. -/
theorem test_rom_spot_checks :
    cosImage.words[0]? = some 0x00010000#32 ∧ cosImage.words[64]? = some 0x0000B505#32 ∧ cosImage.words[128]? = some 0#32 ∧
    cosImage.words[256]? = some 0xFFFF0000#32 ∧ tanImage.words[64]? = some 0x00010000#32 ∧
    tanImage.words[127]? = some 0x00517BB6#32 ∧ tanImage.words[128]? = some 0x7FFFFFFF#32 ∧
    tanImage.words[129]? = some 0xFFAE844A#32 ∧ acosImage.words[0]? = some 0x00800000#32 ∧
    acosImage.words[128]? = some 0x00555555#32 ∧ acosImage.words[256]? = some 0x00400000#32 ∧
    acosImage.words[384]? = some 0x002AAAAB#32 ∧ acosImage.words[512]? = some 0#32 := by decide +kernel

/-- 20_memory.md R41, R43: the cosine's and the arccosine's symmetries hold of the images word for word. -/
theorem test_rom_symmetries :
    cosImage.words.drop 256 = (cosImage.words.take 256).map (fun w => -w) ∧
    List.zipWith (· + ·) acosImage.words acosImage.words.reverse = List.replicate 513 0x00800000#32 := by decide +kernel

/-- 43_computed_functions.md R180: the angle scale is finite and positive. -/
theorem test_angle_scale : b64ToBits angleScale = 0x40445F306DC9C883#64 ∧ b64Lt zero angleScale = true := by decide +kernel

/-- 30_encoding.md R78: lines of text, read as the spec writes them. -/
theorem test_parse_lines :
    parseLine ['s', 'h', 'l', ' ', '0', 'x', '1', ',', ' ', '#', '1', '6'] = some (.command (.shl 16#5) [.hex 1#32]) ∧
    parseLine ['e', 'r', 'r', 's', 'e', 't', ' ', '%', '2'] = some (.command .errset [.result 2]) ∧
    parseLine ['f', 'r', 'o', 'm', 'f', 'l', 'o', 'a', 't', ' ', '-', '1', '.', '5'] =
      some (.command .fromfloat [.float true 15 (-1)]) ∧
    parseLine ['.', 'w', 'o', 'r', 'd', ' ', '0', 'x', '1', '0', '5'] = some (.word 0x105#32) := by decide +kernel

/-- 30_encoding.md R78: `fromfloat 1.5`, and a decimal integer. -/
theorem test_assemble_literals :
    assemble [] (.command .fromfloat [.float false 15 (-1)]) = some ⟨0x03#32, 0x3FF8000000000000#64, 0#32⟩ ∧
    assemble [] (.command .toint [.dec (-1)]) = some ⟨0x02#32, 0xFFFFFFFF#64, 0#32⟩ ∧
    assemble [7#64] (.command .add [.result 1, .hex 2#32]) = some ⟨0x05#32, 7#64, 2#32⟩ := by decide +kernel

/-! ## Witnesses: each shows that a statement's hypotheses, clause by clause, are met by a concrete state -/

/-- Both sides of legality, at the edges of the opcode, reserved and shift fields. -/
theorem test_witness_IllegalWordAnswered :
    (issue 0x00001F08#32 1#64 2#32).resetLine = false ∧
    decode 0x00001F08#32 = .ok (.shr 31#5) ∧ decode 0x00001F09#32 = .error .unassignedOp ∧
    (let op := (0x00001F06#32 : Word).toNat % 256
     op = 0x06 ∧ (0x00001F06#32 : Word).toNat / 2 ^ 13 = 0 ∧ (0x00001F06#32 : Word).toNat / 2 ^ 8 % 32 = 31) ∧
    (0x00002008#32 : Word).toNat / 2 ^ 13 = 1 := by decide

theorem test_witness_LegalityDependsOnCommandWordAlone :
    ∃ s s' : State, ∃ t t' : Transaction, s.resetLine = false ∧ s'.resetLine = false ∧
    s.pending = [t] ∧ s'.pending = [t'] ∧ t.cmd = t'.cmd ∧ t ≠ t' ∧ s.err ≠ s'.err := by
  exact ⟨issue 0x05#32 1#64 2#32, { issue 0x05#32 7#64 9#32 with err := 2#2 }, ⟨0x05#32, 1#64, 2#32⟩, ⟨0x05#32, 7#64, 9#32⟩,
    rfl, rfl, rfl, rfl, rfl, by decide, by decide⟩

theorem test_witness_OperandsFormedFromPorts :
    decode 0x00001F07#32 = .ok (.shl 31#5) ∧ decode 0x00000008#32 = .ok (.shr 0#5) ∧
    operandA (ports 0x7FFFFFFF#64 0#32) = 2 ^ 31 - 1 ∧ operandA (ports 0xFFFFFFFF80000000#64 0#32) = -2 ^ 31 ∧
    operandB (ports 0#64 0x80000000#32) = -2 ^ 31 := by decide

theorem test_witness_StepRunsDecodedCommand :
    (issue 0x05#32 1#64 2#32).resetLine = false ∧
    (issue 0x05#32 1#64 2#32).pending = [⟨0x05#32, 1#64, 2#32⟩] ∧ decode 0x05#32 = .ok .add := by decide

theorem test_witness_IdleCoreWaits :
    State.reset.resetLine = false ∧ State.reset.pending = [] := by decide

theorem test_witness_ResetAssertedPerformsNothing :
    ({ issue 0x31#32 2#64 0#32 with resetLine := true } : State).resetLine = true ∧
    ({ issue 0x31#32 2#64 0#32 with resetLine := true } : State).pending ≠ [] := by decide

theorem test_witness_EngineInvariantKept :
    EngineInvariant (issue 0x05#32 0x7FFF0000#64 0x00010000#32) ∧
    ∃ t, step (issue 0x05#32 0x7FFF0000#64 0x00010000#32) = .next t ∧ t.err = 1#2 := by
  refine ⟨?_, _, rfl, rfl⟩
  unfold EngineInvariant RomsIntact
  decide +kernel

theorem test_witness_RomsNeverWritten :
    ∃ t, Sys2Proof.core.run 1 (issue 0x05#32 1#64 2#32) = .next t := ⟨_, rfl⟩

/-- An error overwrites, a success keeps, whatever ERR held (10_state.md R22). -/
theorem test_witness_ErrorSignalSticky :
    (Instr.acos ≠ .errset) ∧
    seen (exec .acos { ports 0x10001#64 0#32 with err := 1#2 }) = some (2#2, 0#64, false) ∧
    seen (exec .acos { ports 0x10000#64 0#32 with err := 1#2 }) = some (1#2, 0#64, false) ∧
    seen (exec .add { ports 0x7FFFFFFF#64 1#32 with err := 2#2 }) = some (1#2, 0x7FFFFFFF#64, false) := by decide +kernel

/-- Each row of 60_exceptions.md R220 at its bound and one past it. -/
theorem test_witness_ErrorTableComplete :
    recordedBy ⟨0x03#32, 0x40DFFFC000000000#64, 0#32⟩ = none ∧ recordedBy ⟨0x03#32, 0x7FF0000000000000#64, 0#32⟩ = some 1#2 ∧
    recordedBy ⟨0x05#32, 0x7FFFFFFF#64, 0#32⟩ = none ∧ recordedBy ⟨0x05#32, 0x7FFFFFFF#64, 1#32⟩ = some 1#2 ∧
    recordedBy ⟨0x06#32, 0#64, 0x80000000#32⟩ = none ∧ recordedBy ⟨0x06#32, 1#64, 0x80000000#32⟩ = some 1#2 ∧
    recordedBy ⟨0x10#32, 0x7FFF0000#64, 0x10000#32⟩ = none ∧ recordedBy ⟨0x10#32, 0x7FFF0000#64, 0x10001#32⟩ = some 1#2 ∧
    recordedBy ⟨0x11#32, 0x7FFF0000#64, 0x10000#32⟩ = none ∧ recordedBy ⟨0x11#32, 0#64, 0#32⟩ = some 1#2 ∧
    recordedBy ⟨0x2B#32, 0x7FFF0000#64, 0#32⟩ = none ∧ recordedBy ⟨0x2B#32, 0x7FFFFFFF#64, 0#32⟩ = some 1#2 ∧
    recordedBy ⟨0x23#32, 0x10000#64, 0#32⟩ = none ∧ recordedBy ⟨0x23#32, 0x10001#64, 0#32⟩ = some 2#2 ∧
    recordedBy ⟨0x24#32, 0xFFFF0000#64, 0#32⟩ = none ∧ recordedBy ⟨0x24#32, 0xFFFEFFFF#64, 0#32⟩ = some 2#2 ∧
    recordedBy ⟨0x2A#32, 0#64, 0#32⟩ = none ∧ recordedBy ⟨0x2A#32, 0xFFFFFFFF#64, 0#32⟩ = some 2#2 ∧
    recordedBy ⟨0x31#32, 0xFFFFFFFFFFFFFFFF#64, 0#32⟩ = some 3#2 ∧ recordedBy ⟨0x105#32, 0#64, 0#32⟩ = none := by decide +kernel

theorem test_witness_ErrorSignalFollowsIssueOrder :
    let ts : List Transaction := [⟨0x23#32, 0x10001#64, 0#32⟩, ⟨0x05#32, 0x7FFFFFFF#64, 1#32⟩, ⟨0x20#32, 0#64, 0#32⟩]
    ({ State.reset with pending := ts } : State).resetLine = false ∧
    ts.foldl (fun e t => (recordedBy t).getD e) 0#2 = 1#2 := by decide +kernel

/-- 70_reset_and_hazards.md R244 on a command that records DOMAIN. -/
theorem test_witness_CheckProtocolReportsCommand :
    let s : State := { State.reset with
      err := 3#2, pending := [⟨0x31#32, 0#64, 0#32⟩, ⟨0x2A#32, 0xFFFFFFFF#64, 0#32⟩, ⟨0x30#32, 0#64, 0#32⟩] }
    s.resetLine = false ∧ seen (Sys2Proof.core.run 3 s) = some (2#2, 2#64, false) := by decide +kernel

theorem test_witness_UnusedOperandsIgnored :
    SameUsedOperands .errget (ports 1#64 2#32) 7#64 9#32 ∧
    SameUsedOperands .errset (ports 1#64 2#32) 0xFFFFFFFFFFFFFFFD#64 9#32 ∧
    SameUsedOperands .fromfloat (ports 1#64 2#32) 1#64 9#32 ∧
    SameUsedOperands .sqrt (ports 1#64 2#32) 0xFFFFFFFF00000001#64 9#32 ∧
    SameUsedOperands .sub (ports 1#64 2#32) 0xFFFFFFFF00000001#64 2#32 := by unfold SameUsedOperands; decide

theorem test_witness_RecordedErrorsReturnSentinels :
    (ports 0x7FFFFFFF#64 1#32).err = 0#2 ∧
    seen (exec .add (ports 0x7FFFFFFF#64 1#32)) = some (1#2, 0x7FFFFFFF#64, false) ∧
    seen (exec .add (ports 0x80000000#64 0xFFFFFFFF#32)) = some (1#2, 0x80000001#64, false) ∧
    seen (exec .sqrt (ports 0x80000000#64 0#32)) = some (2#2, 0#64, false) := by decide +kernel

/-- The first binary64 values past the thresholds. -/
theorem test_witness_FromfloatSaturates :
    operandFin (ports 0x7FF8000000000000#64 0#32) = .nan ∧
    operandFin (ports 0x7FF0000000000000#64 0#32) = .inf false ∧ operandFin (ports 0xFFF0000000000000#64 0#32) = .inf true ∧
    32767 < b64Value (operandFin (ports 0x40DFFFC000000001#64 0#32)) ∧
    b64Value (operandFin (ports 0xC0DFFFC000000001#64 0#32)) < -32767 := by decide +kernel

/-- The bound, and the exception of 40_fixed_point_core.md R102 on both sides. -/
theorem test_witness_FromfloatRoundsHalfAway :
    operandFin (ports 0x40DFFFC000000000#64 0#32) = .fin false 0x1FFFC000000000 (-38) ∧
    |b64Value (operandFin (ports 0x40DFFFC000000000#64 0#32))| = 32767 ∧
    operandFin (ports 0x3EDFFFFFFFFFFFFF#64 0#32) = .fin false 0x1FFFFFFFFFFFFF (-70) ∧
    65536 * b64Value (operandFin (ports 0x3EDFFFFFFFFFFFFF#64 0#32)) = 1 / 2 - 1 / 2 ^ 54 ∧
    operandFin (ports 0xBEDFFFFFFFFFFFFF#64 0#32) = .fin true 0x1FFFFFFFFFFFFF (-70) ∧
    65536 * b64Value (operandFin (ports 0xBEDFFFFFFFFFFFFF#64 0#32)) = -(1 / 2 - 1 / 2 ^ 54) ∧
    |65536 * b64Value (operandFin (ports 0x3EE0000000000000#64 0#32))| ≠ 1 / 2 - 1 / 2 ^ 54 := by decide +kernel

theorem test_witness_TofloatExact :
    operandA (ports 0#64 0#32) = 0 := by decide

theorem test_witness_AddSaturates :
    operandA (ports 0x7FFFFFFE#64 1#32) + operandB (ports 0x7FFFFFFE#64 1#32) = 2 ^ 31 - 1 ∧
    operandA (ports 0x7FFFFFFF#64 1#32) + operandB (ports 0x7FFFFFFF#64 1#32) = 2 ^ 31 ∧
    operandA (ports 0x80000001#64 0xFFFFFFFF#32) + operandB (ports 0x80000001#64 0xFFFFFFFF#32) = -2 ^ 31 ∧
    operandA (ports 0x80000000#64 0xFFFFFFFF#32) + operandB (ports 0x80000000#64 0xFFFFFFFF#32) = -2 ^ 31 - 1 := by decide

theorem test_witness_SubSaturates :
    operandA (ports 0x7FFFFFFF#64 0#32) - operandB (ports 0x7FFFFFFF#64 0#32) = 2 ^ 31 - 1 ∧
    operandA (ports 1#64 0x80000001#32) - operandB (ports 1#64 0x80000001#32) = 2 ^ 31 ∧
    operandA (ports 0#64 0x80000000#32) - operandB (ports 0#64 0x80000000#32) = 2 ^ 31 ∧
    operandA (ports 0x80000000#64 0#32) - operandB (ports 0x80000000#64 0#32) = -2 ^ 31 ∧
    operandA (ports 0x80000000#64 1#32) - operandB (ports 0x80000000#64 1#32) = -2 ^ 31 - 1 := by decide

theorem test_witness_IntegerRoundTrip :
    operandA (ports 0xFFFF8000#64 0#32) = -32768 ∧ operandA (ports 0x7FFF#64 0#32) = 32767 := by decide

theorem test_witness_FloatRoundTrip :
    |operandA (ports 0x7FFF0000#64 0#32)| = 0x7FFF0000 ∧ |operandA (ports 0x80010000#64 0#32)| = 0x7FFF0000 ∧
    operandA (ports 0x7FFF0001#64 0#32) = 0x7FFF0000 + 1 ∧ operandA (ports 0x8000FFFF#64 0#32) = -0x7FFF0000 - 1 := by decide +kernel

theorem test_witness_MulClosedForm :
    operandA (ports 0x7FFF0000#64 0x10000#32) * operandB (ports 0x7FFF0000#64 0x10000#32) = 32767 * 2 ^ 32 ∧
    32767 * 2 ^ 32 < operandA (ports 0x7FFF0000#64 0x10001#32) * operandB (ports 0x7FFF0000#64 0x10001#32) ∧
    operandA (ports 0x80010000#64 0x10000#32) * operandB (ports 0x80010000#64 0x10000#32) = -(32767 * 2 ^ 32) ∧
    operandA (ports 0x80010000#64 0x10001#32) * operandB (ports 0x80010000#64 0x10001#32) < -(32767 * 2 ^ 32) := by decide

theorem test_witness_DivClosedForm :
    operandB (ports 0#64 0#32) = 0 ∧ operandA (ports 0#64 0#32) = 0 ∧ operandA (ports 0xFFFFFFFF#64 0#32) < 0 ∧
    ((operandA (ports 0x7FFF0000#64 0x10000#32) : ℚ) / operandB (ports 0x7FFF0000#64 0x10000#32) = 32767) ∧
    (32767 < (operandA (ports 0x7FFF0001#64 0x10000#32) : ℚ) / operandB (ports 0x7FFF0001#64 0x10000#32)) ∧
    ((operandA (ports 0x8000FFFF#64 0x10000#32) : ℚ) / operandB (ports 0x8000FFFF#64 0x10000#32) < -32767) := by decide +kernel

/-- AcosDomainOrEntry and AsinDomainOrComplement, each clause at its bound. -/
theorem test_witness_AcosAsinDomain :
    operandA (ports 0xFFFF0000#64 0#32) = -65536 ∧ operandA (ports 0x10000#64 0#32) = 65536 ∧
    operandA (ports 0xFFFEFFFF#64 0#32) < -65536 ∧ 65536 < operandA (ports 0x10001#64 0#32) := by decide

/-- ErrorSignalReadByErrgetOnly, ResultsZeroExtended, ErrorSignalSticky, MulDivNeverSmallestWord, PortSplitLittleEndian. -/
theorem test_witness_instruction_premises :
    Instr.add ≠ .errget ∧ Instr.add ≠ .tofloat ∧ Instr.add ≠ .errset ∧ (Instr.div = .mul ∨ Instr.div = .div) ∧ 7 < 8 := by decide

/-- CosNearestEntry, TanNearestEntry, AcosDomainOrEntry, AsinDomainOrComplement and AsinAcosComplementary. -/
theorem test_witness_RomsIntact :
    RomsIntact (ports 0x10000#64 0#32) ∧ -65536 ≤ operandA (ports 0x10000#64 0#32) ∧
    operandA (ports 0x10000#64 0#32) ≤ 65536 := ⟨⟨rfl, rfl, rfl⟩, by decide, by decide⟩

theorem test_witness_TanNearestEntry :
    RomsIntact (ports 0x3FC000#64 0#32) ∧ ⌊((operandA (ports 0x3FC000#64 0#32) : ℚ) + 0x4000) / 2 ^ 15⌋ % 256 = 128 := ⟨⟨rfl, rfl, rfl⟩, by decide +kernel⟩

theorem test_witness_RomWordsObservable :
    State.reset.cosRom.words[511]? = some 0x0000FFFB#32 ∧ State.reset.tanRom.words[255]? = some 0xFFFFFCDC#32 ∧
    State.reset.acosRom.words[512]? = some 0#32 := by decide +kernel

theorem test_witness_CosRomEntriesAreCosines :
    State.reset.cosRom.words[256]? = some 0xFFFF0000#32 := by decide +kernel

theorem test_witness_Atan2NearestAngle :
    (operandA (ports 0#64 0#32) = 0 ∧ operandB (ports 0#64 0#32) = 0) ∧
    ¬ (operandA (ports 0#64 0xFFFFFFFF#32) = 0 ∧ operandB (ports 0#64 0xFFFFFFFF#32) = 0) := by decide

/-- The enclosure decides the arctangent of 1.0. -/
theorem test_witness_AtanCorrectlyRounded :
    (2 ^ 52 : Nat) ≠ 0 ∧ Canonical (2 ^ 52) (-52) ∧
    roundedBelow false (2 ^ 52 * 2 ^ (-52 : Int).toNat) (2 ^ (52 : Int).toNat) false =
      roundedAbove false (2 ^ 52 * 2 ^ (-52 : Int).toNat) (2 ^ (52 : Int).toNat) false := by unfold Canonical; decide +kernel

/-- It decides the points (-1, -1), (0, 1) and (-1, 0) of atan2_cr. -/
theorem test_witness_AtanCorrectlyRounded_second :
    (Canonical (2 ^ 52) (-52) ∧ Canonical 0 (-1074)) ∧
    roundedBelow true (2 ^ 52) (2 ^ 52) true = roundedAbove true (2 ^ 52) (2 ^ 52) true ∧
    roundedBelow false (2 ^ 52 * 2 ^ (-52 - -1074 : Int).toNat) 0 false =
      roundedAbove false (2 ^ 52 * 2 ^ (-52 - -1074 : Int).toNat) 0 false ∧
    roundedBelow false 0 (2 ^ 52 * 2 ^ (-52 - -1074 : Int).toNat) true =
      roundedAbove false 0 (2 ^ 52 * 2 ^ (-52 - -1074 : Int).toNat) true := by unfold Canonical; decide +kernel

/-- 10_state.md R24: nothing holds ILL after the response. -/
theorem test_idle_step_drops_response :
    seen (Sys2Proof.core.run 2 (issue 0x105#32 1#64 2#32)) = none ∧
    seen (Sys2Proof.core.run 1 (issue 0x105#32 1#64 2#32)) = some (0#2, 0#64, true) := by decide +kernel

theorem test_witness_SqrtClosedForm :
    operandA (ports 0#64 0#32) = 0 ∧ operandA (ports 0xFFFFFFFF#64 0#32) = -1 ∧ operandA (ports 0x7FFFFFFF#64 0#32) = 2 ^ 31 - 1 := by decide

theorem test_witness_HypotPipeline :
    b64Value (hypotFloat 0x7FFF0000 0) = 32767 ∧ 32767 < b64Value (hypotFloat 0x7FFF0001 0) := by decide +kernel

/-- An integer is far from every half-integer. -/
theorem far_from_halves (n k : ℤ) : (1 : ℝ) / 2 ^ 20 < |(n : ℝ) - (k + 1 / 2)| := by
  rcases le_or_gt n k with h | h
  · have h' : (n : ℝ) ≤ k := by exact_mod_cast h
    rw [abs_of_nonpos (by linarith)]
    norm_num
    linarith
  · have h' : (k : ℝ) + 1 ≤ n := by exact_mod_cast h
    rw [abs_of_nonneg (by linarith)]
    norm_num
    linarith

/-- The triangle 3, 4, 5. -/
theorem test_witness_HypotClosedForm :
    let s := ports 0x30000#64 0x40000#32
    let h : ℝ := √((operandA s : ℝ) ^ 2 + (operandB s : ℝ) ^ 2)
    (∀ k : ℤ, 1 / 2 ^ 20 < |h - (k + 1 / 2)|) ∧ 1 / 2 ^ 20 < |h - 0x7FFF0000| ∧ h ≤ 0x7FFF0000 := by
  intro s h
  have ha : operandA s = 196608 := by decide
  have hb : operandB s = 262144 := by decide
  have hh : h = ((327680 : ℤ) : ℝ) := by
    show √((operandA s : ℝ) ^ 2 + (operandB s : ℝ) ^ 2) = _
    rw [ha, hb, Real.sqrt_eq_iff_mul_self_eq (by positivity) (by norm_num)]
    norm_num
  rw [hh]
  exact ⟨fun k => far_from_halves _ k, by rw [abs_of_nonpos] <;> norm_num, by norm_num⟩

theorem test_witness_HypotClosedForm_saturates :
    let s := ports 0x7FFFFFFF#64 0#32
    let h : ℝ := √((operandA s : ℝ) ^ 2 + (operandB s : ℝ) ^ 2)
    (∀ k : ℤ, 1 / 2 ^ 20 < |h - (k + 1 / 2)|) ∧ 1 / 2 ^ 20 < |h - 0x7FFF0000| ∧ 0x7FFF0000 < h := by
  intro s h
  have ha : operandA s = 2147483647 := by decide
  have hb : operandB s = 0 := by decide
  have hh : h = ((2147483647 : ℤ) : ℝ) := by
    show √((operandA s : ℝ) ^ 2 + (operandB s : ℝ) ^ 2) = _
    rw [ha, hb, Real.sqrt_eq_iff_mul_self_eq (by positivity) (by norm_num)]
    norm_num
  rw [hh]
  exact ⟨fun k => far_from_halves _ k, by rw [abs_of_nonneg] <;> norm_num, by norm_num⟩

theorem test_witness_HypotOfOneLeg :
    operandB (ports 0x7FFF0000#64 0#32) = 0 ∧ |operandA (ports 0x7FFF0000#64 0#32)| = 0x7FFF0000 ∧
    0x7FFF0000 < |operandA (ports 0x80000000#64 0#32)| := by decide +kernel

/-- A tie, decided by the even significand (00_scope.md R8). -/
theorem test_witness_RoundingIsNearestEven :
    flRatio false (2 ^ 53 + 1) 1 = .fin false (2 ^ 52) 1 ∧ Canonical (2 ^ 52) 1 ∧ Canonical (2 ^ 52 + 1) 1 ∧
    |((2 : ℚ) ^ 52 * 2 ^ 1 - (2 ^ 53 + 1))| = |(((2 : ℚ) ^ 52 + 1) * 2 ^ 1 - (2 ^ 53 + 1))| := by unfold Canonical; decide +kernel

/-- The fields at the ends of their ranges. -/
theorem test_witness_Binary64Layout :
    b64OfBits 0x7FF0000000000001#64 = .nan ∧ b64OfBits 0x7FF0000000000000#64 = .inf false ∧
    b64OfBits 0xFFF0000000000000#64 = .inf true ∧
    b64Value (b64OfBits 0x0000000000000001#64) = 1 / 2 ^ 1074 ∧ b64Value (b64OfBits 0x7FEFFFFFFFFFFFFF#64) = (2 ^ 53 - 1) * 2 ^ 971 ∧
    b64Value (b64OfBits 0xBFF8000000000000#64) = -3 / 2 := by decide +kernel

theorem test_witness_AssembledCommandDecodes :
    assemble [] (.command .add [.hex 1#32, .hex 2#32]) = some ⟨0x05#32, 1#64, 2#32⟩ ∧
    assemble [] (.command .errget []) = some ⟨0x30#32, 0#64, 0#32⟩ ∧
    assemble [] (.command (.shl 31#5) [.hex 1#32]) = some ⟨0x1F07#32, 1#64, 0#32⟩ ∧
    assemble [] (.command .fromfloat [.b64 0x3FF8000000000000#64]) = some ⟨0x03#32, 0x3FF8000000000000#64, 0#32⟩ := by decide +kernel

theorem test_witness_AddMulHypotCommute :
    (Instr.add = .add ∨ Instr.add = .mul ∨ Instr.add = .hypot) ∧ (Instr.hypot = .add ∨ Instr.hypot = .mul ∨ Instr.hypot = .hypot) := by decide

/-- The interface the host asks with. -/
theorem test_fetch_word_runs_next :
    seen (step (State.reset.withFetchWord 32 0x31)) = some (0#2, 0#64, false) ∧ decodeTableWord 32 0x1F07 = some (.shl 31#5) ∧ decodeTableWord 32 0x105 = none := by decide +kernel

end Sys2Proof.Tests
end

section
/-! PROOF. A recorded error comes with its value: RANGE with a sentinel, DOMAIN with 0 (spec/00_scope.md R4). -/

namespace Sys2Proof.Machine

/-- What a command with a 32-bit result may compute: any word without a code, a sentinel with RANGE, or 0 with DOMAIN. -/
inductive Fixed.ErrorSetsValue : Fixed → Prop where
  | plain (v : Word) : ErrorSetsValue (.plain v)
  | satPos : ErrorSetsValue (.range satPos)
  | satNeg : ErrorSetsValue (.range satNeg)
  | domain : ErrorSetsValue (.domain 0#32)

theorem Fixed.ErrorSetsValue.ite (c : Prop) [Decidable c] {r t : Fixed} (hr : r.ErrorSetsValue)
    (ht : t.ErrorSetsValue) : (if c then r else t).ErrorSetsValue := by
  split
  · exact hr
  · exact ht

theorem fromFloatCore_errorSetsValue (x : B64) : (fromFloatCore x).ErrorSetsValue :=
  .ite _ (.plain _) (.ite _ .satPos (.ite _ .satNeg (.ite _ (.plain _) (.plain _))))

theorem addResult_errorSetsValue (a b : Word) : (addResult a b).ErrorSetsValue :=
  .ite _ .satNeg (.ite _ .satPos (.plain _))

theorem subResult_errorSetsValue (a b : Word) : (subResult a b).ErrorSetsValue :=
  .ite _ .satNeg (.ite _ .satPos (.plain _))

theorem divResult_errorSetsValue (a b : Int) : (divResult a b).ErrorSetsValue :=
  .ite _ (.ite _ .satNeg .satPos) (fromFloatCore_errorSetsValue _)

theorem atan2Result_errorSetsValue (y x : Int) : (atan2Result y x).ErrorSetsValue :=
  .ite _ (.plain _) (fromFloatCore_errorSetsValue _)

/-- Every command but ERRSET either only responds (TOFLOAT, ERRGET), or answers a result whose code, if any, sets its
value. -/
theorem exec_responds_or_answers (i : Instr) (s : State) (hi : i ≠ .errset) :
    (∃ v, exec i s = .next (respond v s)) ∨ ∃ r : Fixed, r.ErrorSetsValue ∧ exec i s = answer r s := by
  cases i
  case errset => exact absurd rfl hi
  case tofloat => exact .inl ⟨_, rfl⟩
  case errget => exact .inl ⟨_, rfl⟩
  case fromfloat => exact .inr ⟨_, fromFloatCore_errorSetsValue _, rfl⟩
  case add => exact .inr ⟨_, addResult_errorSetsValue _ _, rfl⟩
  case sub => exact .inr ⟨_, subResult_errorSetsValue _ _, rfl⟩
  case mul => exact .inr ⟨_, fromFloatCore_errorSetsValue _, rfl⟩
  case div => exact .inr ⟨_, divResult_errorSetsValue _ _, rfl⟩
  case acos => exact .inr ⟨_, Fixed.ErrorSetsValue.ite _ (.plain _) .domain, rfl⟩
  case asin => exact .inr ⟨_, Fixed.ErrorSetsValue.ite _ (.plain _) .domain, rfl⟩
  case atan => exact .inr ⟨_, fromFloatCore_errorSetsValue _, rfl⟩
  case atan2 => exact .inr ⟨_, atan2Result_errorSetsValue _ _, rfl⟩
  case sqrt => exact .inr ⟨_, Fixed.ErrorSetsValue.ite _ .domain (fromFloatCore_errorSetsValue _), rfl⟩
  case hypot => exact .inr ⟨_, fromFloatCore_errorSetsValue _, rfl⟩
  all_goals exact .inr ⟨_, .plain _, rfl⟩

theorem answer_eq_completed (r : Fixed) (s : State) :
    answer r s = completed s (r.code.getD s.err) (r.value.setWidth 64) := by
  obtain ⟨v, _ | c⟩ := r <;> rfl

/-- Settles O22: a command either leaves ERR at 0, or answers one of the results of `Fixed.ErrorSetsValue`. -/
theorem recordedErrorsReturnSentinels : Obligations.RecordedErrorsReturnSentinels := by
  intro i s hi herr
  obtain ⟨v, h⟩ | ⟨r, hr, h⟩ := exec_responds_or_answers i s hi
  · exact ⟨s.err, v, h, by simp [herr], by simp [herr]⟩
  · refine ⟨_, _, h.trans (answer_eq_completed r s), ?_⟩
    rw [herr]
    cases hr with
    | plain v => simp [Fixed.plain]
    | satPos => decide
    | satNeg => decide
    | domain => decide

end Sys2Proof.Machine
end

section
/-! PROOF. `fl` of a ratio is the nearest binary64 value, with the even significand at a tie (spec/00_scope.md R8). -/

namespace Sys2Proof.Machine

/-! ## Nearest among the naturals -/

theorem roundHalfEven_even_of_error_half (n d : Nat) (hd : 0 < d)
    (h : |(roundHalfEven n d : ℚ) - n / d| = 1 / 2) : roundHalfEven n d % 2 = 0 := by
  refine roundHalfEven_even_of_tie n d ?_
  have hd' : (d : ℚ) ≠ 0 := by positivity
  have hodd : ∃ k, 2 * n = 2 * d * k + d := by
    rcases (abs_eq (by norm_num)).mp h with h | h <;> field_simp at h
    · have hR : 2 * (d * roundHalfEven n d) = 2 * n + d := by
        exact_mod_cast (by linarith : (2 * (d * roundHalfEven n d) : ℚ) = 2 * n + d)
      obtain ⟨k, hk⟩ : ∃ k, roundHalfEven n d = k + 1 :=
        Nat.exists_eq_add_one.mpr (Nat.pos_of_ne_zero fun h0 => by rw [h0] at hR; omega)
      exact ⟨k, by rw [hk] at hR; linarith⟩
    · have hR : 2 * (d * roundHalfEven n d) + d = 2 * n := by
        exact_mod_cast (by linarith : (2 * (d * roundHalfEven n d) + d : ℚ) = 2 * n)
      exact ⟨roundHalfEven n d, by linarith⟩
  obtain ⟨k, hk⟩ := hodd
  rw [← Nat.mul_mod_mul_left, hk, Nat.mul_add_mod, Nat.mod_eq_of_lt (by omega)]

/-- The rounded ratio is at least as near as every other natural, and even where another is as near. -/
theorem roundHalfEven_nearest (n d k : Nat) (hd : 0 < d) (hk : k ≠ roundHalfEven n d) :
    |(roundHalfEven n d : ℚ) - n / d| ≤ |(k : ℚ) - n / d| ∧
      (|(roundHalfEven n d : ℚ) - n / d| = |(k : ℚ) - n / d| → roundHalfEven n d % 2 = 0) := by
  have herr := roundHalfEven_error n d hd
  have hgap : 1 ≤ |(k : ℚ) - roundHalfEven n d| := by
    have h : (1 : ℤ) ≤ |(k : ℤ) - roundHalfEven n d| := Int.one_le_abs (by omega)
    exact_mod_cast h
  have htri := abs_sub_le (k : ℚ) (n / d) (roundHalfEven n d)
  rw [abs_sub_comm (n / d : ℚ)] at htri
  exact ⟨by linarith, fun h => roundHalfEven_even_of_error_half n d hd (by linarith)⟩

/-! ## Nearest among the binary64 values -/

theorem abs_mul_two_zpow_sub (a x : ℚ) (e : Int) : |a * 2 ^ e - x| = |a - x / 2 ^ e| * 2 ^ e := by
  have h := two_zpow_pos e
  rw [← abs_of_pos h, ← abs_mul, abs_of_pos h, sub_mul, div_mul_cancel₀ _ h.ne']

/-- The rounded ratio among the multiples of its own unit in the last place. -/
theorem roundedSignificand_nearest (p q k : Nat) (hq : 0 < q) (hk : k ≠ roundedSignificand p q) :
    |(roundedSignificand p q : ℚ) * 2 ^ roundExponent p q - p / q| ≤ |(k : ℚ) * 2 ^ roundExponent p q - p / q| ∧
      (|(roundedSignificand p q : ℚ) * 2 ^ roundExponent p q - p / q| = |(k : ℚ) * 2 ^ roundExponent p q - p / q| →
        roundedSignificand p q % 2 = 0) := by
  have h := roundHalfEven_nearest (p * 2 ^ (-roundExponent p q).toNat) (q * 2 ^ (roundExponent p q).toNat) k
    (by positivity) hk
  rw [scaled_ratio p q hq] at h
  have hpos := two_zpow_pos (roundExponent p q)
  rw [abs_mul_two_zpow_sub, abs_mul_two_zpow_sub, mul_le_mul_iff_left₀ hpos, mul_left_inj' hpos.ne']
  exact h

/-- A value with a smaller last place lies below the binade of the ratio, so it is farther from it than the binade's first
value. -/
theorem binade_start_nearer (p q : Nat) (hp : 0 < p) (hq : 0 < q) (n : Nat) (f : Int) (hn : n < 2 ^ 53) (hf : -1074 ≤ f)
    (hlt : f < roundExponent p q) :
    |((2 ^ 52 : ℕ) : ℚ) * 2 ^ roundExponent p q - p / q| < |(n : ℚ) * 2 ^ f - p / q| := by
  have hstart : ((2 ^ 52 : ℕ) : ℚ) * 2 ^ roundExponent p q ≤ p / q := by
    refine le_trans (le_of_eq ?_) (floorLog2_spec p q hp hq).1
    rw [roundExponent_eq p q (by omega), Nat.cast_pow, ← zpow_natCast, Nat.cast_ofNat, ← zpow_add₀ (by norm_num)]
    congr 1; push_cast; ring
  have hbelow : (n : ℚ) * 2 ^ f < ((2 ^ 52 : ℕ) : ℚ) * 2 ^ roundExponent p q :=
    calc (n : ℚ) * 2 ^ f < (2 ^ 53 : ℕ) * 2 ^ f := mul_lt_mul_of_pos_right (by exact_mod_cast hn) (two_zpow_pos _)
      _ = (2 ^ 52 : ℕ) * 2 ^ (f + 1) := by rw [zpow_add₀ (by norm_num)]; push_cast; ring
      _ ≤ _ := mul_le_mul_of_nonneg_left (two_zpow_le (by omega)) (by positivity)
  rw [abs_of_nonpos (sub_nonpos.mpr hstart), abs_of_neg (sub_neg.mpr (hbelow.trans_le hstart))]
  exact neg_lt_neg (sub_lt_sub_right hbelow _)

/-- The rounded ratio is at least as near as every other binary64 value, and its significand is even where another is as
near. -/
theorem flRatio_nearest (p q : Nat) (hp : 0 < p) (hq : 0 < q) (n : Nat) (f : Int) (hn : n < 2 ^ 53) (hf : -1074 ≤ f)
    (hne : (roundedSignificand p q : ℚ) * 2 ^ roundExponent p q ≠ n * 2 ^ f) :
    |(roundedSignificand p q : ℚ) * 2 ^ roundExponent p q - p / q| ≤ |(n : ℚ) * 2 ^ f - p / q| ∧
      (|(roundedSignificand p q : ℚ) * 2 ^ roundExponent p q - p / q| = |(n : ℚ) * 2 ^ f - p / q| →
        roundedSignificand p q % 2 = 0) := by
  rcases le_or_gt (roundExponent p q) f with hle | hlt
  · obtain ⟨j, hj⟩ := Int.eq_ofNat_of_zero_le (sub_nonneg.mpr hle)
    have hmul : (n : ℚ) * 2 ^ f = ((n * 2 ^ j : ℕ) : ℚ) * 2 ^ roundExponent p q := by
      rw [show f = j + roundExponent p q by omega, zpow_add₀ (by norm_num), zpow_natCast]; push_cast; ring
    rw [hmul] at hne ⊢
    exact roundedSignificand_nearest p q _ hq fun h => hne (by rw [h])
  · have hstart : |(roundedSignificand p q : ℚ) * 2 ^ roundExponent p q - p / q| ≤
        |((2 ^ 52 : ℕ) : ℚ) * 2 ^ roundExponent p q - p / q| := by
      by_cases h : 2 ^ 52 = roundedSignificand p q
      · rw [h]
      · exact (roundedSignificand_nearest p q _ hq h).1
    have hfar := hstart.trans_lt (binade_start_nearer p q hp hq n f hn hf hlt)
    exact ⟨hfar.le, fun h => absurd h hfar.ne⟩

/-- A canonical significand is even where an even one of at most `2^53`, at an exponent of the format, has the same
value. -/
theorem Canonical.even_of_value_eq {m : Nat} {e : Int} (h : Canonical m e) (n : Nat) (f : Int) (hn : n ≤ 2 ^ 53)
    (hf : -1074 ≤ f) (hv : (m : ℚ) * 2 ^ e = n * 2 ^ f) (heven : n % 2 = 0) : m % 2 = 0 := by
  obtain ⟨-, -, -, hnormal⟩ := h
  rcases le_or_gt e f with hle | hlt
  · obtain ⟨j, hj⟩ := Int.eq_ofNat_of_zero_le (sub_nonneg.mpr hle)
    have hm : m = n * 2 ^ j := by
      rw [show f = j + e by omega, zpow_add₀ (by norm_num), zpow_natCast, ← mul_assoc,
        mul_left_inj' (two_zpow_pos e).ne'] at hv
      exact_mod_cast hv
    rw [hm, Nat.mul_mod, heven, zero_mul, Nat.zero_mod]
  · obtain ⟨j, hj⟩ := Int.eq_ofNat_of_zero_le (sub_nonneg.mpr (Int.add_one_le_of_lt hlt))
    have hm : n = m * 2 ^ (j + 1) := by
      rw [show e = ((j + 1 : ℕ) : ℤ) + f by push_cast; omega, zpow_add₀ (by norm_num), zpow_natCast, ← mul_assoc,
        mul_left_inj' (two_zpow_pos f).ne'] at hv
      exact_mod_cast hv.symm
    have h52 : 2 ^ 52 ≤ m := by omega
    have hle : m * 2 ≤ 2 ^ 53 := by
      calc m * 2 ≤ m * 2 ^ (j + 1) := Nat.mul_le_mul_left m (Nat.le_self_pow (by omega) 2)
        _ ≤ 2 ^ 53 := hm ▸ hn
    omega

theorem floorLog2_le_of_ratio_le (p q : Nat) (hp : 0 < p) (hq : 0 < q) (h : (p : ℚ) / q ≤ 2 ^ 64) :
    floorLog2 p q ≤ 1022 :=
  floorLog2_le_of_lt p q hp hq 1022
    ((le_abs_self _).trans_lt (belowOverflow_of_le (by rwa [abs_of_nonneg (by positivity)])))

/-- Settles O56: the ratio rounded to its own unit in the last place, put in canonical form. -/
theorem roundingIsNearestEven : Obligations.RoundingIsNearestEven := by
  intro neg p q hq hle
  rcases Nat.eq_zero_or_pos p with rfl | hp
  · exact ⟨0, -1074, by simp [flRatio], by unfold Canonical; norm_num, fun n f _ => ⟨by simpa using @nonneg_of_representable n f, fun _ _ => rfl⟩⟩
  obtain ⟨m, e, hfl, hcan, hv⟩ := flRatio_finite neg p q hp hq (floorLog2_le_of_ratio_le p q hp hq hle)
  refine ⟨m, e, hfl, hcan, fun n f ⟨hn, hf, _, _⟩ => ?_⟩
  by_cases hne : (m : ℚ) * 2 ^ e = n * 2 ^ f
  · exact ⟨by rw [hne], fun _ h => absurd hne h⟩
  · obtain ⟨hnear, heven⟩ := flRatio_nearest p q hp hq n f hn hf (hv ▸ hne)
    rw [← hv] at hnear heven
    exact ⟨hnear, fun htie _ => hcan.even_of_value_eq _ _ (roundedSignificand_le p q hp hq) (roundExponent_ge p q) hv
      (heven htie)⟩

end Sys2Proof.Machine
end

section
/-! PROOF. The binary64 layout: what `b64OfBits` reads from the three fields of a word, and that `b64ToBits` writes them
back (spec/00_scope.md R8). -/

namespace Sys2Proof.Machine

/-! ## The fields -/

/-- The sign `d[63]`. -/
def signOf (d : DWord) : Bool := d.toNat / 2 ^ 63 == 1

/-- The biased exponent `d[62:52]`. -/
def exponentOf (d : DWord) : Nat := d.toNat / 2 ^ 52 % 2048

/-- The fraction `d[51:0]`. -/
def fractionOf (d : DWord) : Nat := d.toNat % 2 ^ 52

theorem exponentOf_lt (d : DWord) : exponentOf d < 2048 := Nat.mod_lt _ (by norm_num)

theorem fractionOf_lt (d : DWord) : fractionOf d < 2 ^ 52 := Nat.mod_lt _ (by norm_num)

theorem signBits_signOf (d : DWord) : signBits (signOf d) = d.toNat / 2 ^ 63 * 2 ^ 63 := by
  have hd := d.isLt
  unfold signBits signOf
  rcases (by omega : d.toNat / 2 ^ 63 = 0 ∨ d.toNat / 2 ^ 63 = 1) with h | h <;> rw [h] <;> rfl

/-- The three fields make up the word. -/
theorem ofNat_fields (d : DWord) : BitVec.ofNat 64 (signBits (signOf d) + exponentOf d * 2 ^ 52 + fractionOf d) = d := by
  have hsum : signBits (signOf d) + exponentOf d * 2 ^ 52 + fractionOf d = d.toNat := by
    rw [signBits_signOf, exponentOf, fractionOf]; omega
  rw [hsum, BitVec.ofNat_toNat, BitVec.setWidth_eq]

/-! ## Decoding, by the exponent field -/

theorem b64OfBits_eq_fields (d : DWord) : b64OfBits d =
    if exponentOf d = 2047 then (if fractionOf d = 0 then .inf (signOf d) else .nan)
    else if exponentOf d = 0 then .fin (signOf d) (fractionOf d) (-1074)
    else .fin (signOf d) (2 ^ 52 + fractionOf d) ((exponentOf d : Int) - 1075) := rfl

theorem b64OfBits_nan (d : DWord) (hx : exponentOf d = 2047) (hf : fractionOf d ≠ 0) : b64OfBits d = .nan := by
  rw [b64OfBits_eq_fields, if_pos hx, if_neg hf]

theorem b64OfBits_inf (d : DWord) (hx : exponentOf d = 2047) (hf : fractionOf d = 0) :
    b64OfBits d = .inf (signOf d) := by
  rw [b64OfBits_eq_fields, if_pos hx, if_pos hf]

theorem b64OfBits_subnormal (d : DWord) (hx : exponentOf d = 0) :
    b64OfBits d = .fin (signOf d) (fractionOf d) (-1074) := by
  rw [b64OfBits_eq_fields, if_neg (by omega), if_pos hx]

theorem b64OfBits_normal (d : DWord) (h0 : 0 < exponentOf d) (hx : exponentOf d < 2047) :
    b64OfBits d = .fin (signOf d) (2 ^ 52 + fractionOf d) ((exponentOf d : Int) - 1075) := by
  rw [b64OfBits_eq_fields, if_neg hx.ne, if_neg h0.ne']

/-! ## Encoding a decoded word -/

theorem b64ToBits_inf (d : DWord) (hx : exponentOf d = 2047) (hf : fractionOf d = 0) :
    b64ToBits (.inf (signOf d)) = d := by
  simpa [b64ToBits, hx, hf] using ofNat_fields d

theorem b64ToBits_subnormal (d : DWord) (hx : exponentOf d = 0) :
    b64ToBits (.fin (signOf d) (fractionOf d) (-1074)) = d := by
  have h := ofNat_fields d
  rw [hx, Nat.zero_mul, Nat.add_zero] at h
  rw [b64ToBits, if_pos (fractionOf_lt d), h]

theorem b64ToBits_normal (d : DWord) :
    b64ToBits (.fin (signOf d) (2 ^ 52 + fractionOf d) ((exponentOf d : Int) - 1075)) = d := by
  simpa [b64ToBits] using ofNat_fields d

/-- Encoding undoes decoding, but for a NaN. -/
theorem b64ToBits_b64OfBits (d : DWord) (h : b64OfBits d ≠ .nan) : b64ToBits (b64OfBits d) = d := by
  rcases (by have := exponentOf_lt d; omega :
    exponentOf d = 0 ∨ (0 < exponentOf d ∧ exponentOf d < 2047) ∨ exponentOf d = 2047) with hx | ⟨h0, hx⟩ | hx
  · rw [b64OfBits_subnormal d hx, b64ToBits_subnormal d hx]
  · rw [b64OfBits_normal d h0 hx, b64ToBits_normal]
  · have hf : fractionOf d = 0 := not_not.mp fun hf => h (b64OfBits_nan d hx hf)
    rw [b64OfBits_inf d hx hf, b64ToBits_inf d hx hf]

/-! ## The value of a decoded word -/

/-- A significand of 52 fraction bits, as a number with a binary point. -/
theorem significand_mul_two_zpow (x : ℚ) (e : Int) : x * 2 ^ e = x / 2 ^ 52 * 2 ^ (e + 52) := by
  rw [zpow_add₀ (by norm_num), mul_comm ((2 : ℚ) ^ e), ← mul_assoc]
  norm_num

theorem b64Value_subnormal (d : DWord) (hx : exponentOf d = 0) :
    b64Value (b64OfBits d) = (if signOf d then -1 else 1) * ((fractionOf d : ℚ) / 2 ^ 52) * 2 ^ (-1022 : Int) := by
  rw [b64OfBits_subnormal d hx, b64Value_fin, significand_mul_two_zpow, mul_assoc]
  norm_num

theorem b64Value_normal (d : DWord) (h0 : 0 < exponentOf d) (hx : exponentOf d < 2047) :
    b64Value (b64OfBits d) =
      (if signOf d then -1 else 1) * (1 + (fractionOf d : ℚ) / 2 ^ 52) * 2 ^ ((exponentOf d : Int) - 1023) := by
  have hone : ((2 ^ 52 + fractionOf d : ℕ) : ℚ) / 2 ^ 52 = 1 + (fractionOf d : ℚ) / 2 ^ 52 := by
    rw [Nat.cast_add, add_div]; norm_num
  rw [b64OfBits_normal d h0 hx, b64Value_fin, significand_mul_two_zpow, hone, mul_assoc]
  congr 3; ring

theorem b64OfBits_isFinite (d : DWord) (hx : exponentOf d < 2047) : IsFinite (b64OfBits d) := by
  rcases Nat.eq_zero_or_pos (exponentOf d) with h0 | h0
  · simpa [b64OfBits_subnormal d h0] using b64OfBits_cases d
  · simpa [b64OfBits_normal d h0 hx] using b64OfBits_cases d

/-- Settles O57: the fields of the statement are those read by the lemmas above. -/
theorem binary64Layout : Obligations.Binary64Layout := by
  intro d
  have hsign : (if d.toNat / 2 ^ 63 = 1 then -1 else 1 : ℚ) = if signOf d then -1 else 1 := by simp [signOf]
  dsimp only
  rw [hsign]
  exact ⟨fun ⟨hx, hf⟩ => b64OfBits_nan d hx hf, fun ⟨hx, hf⟩ => b64OfBits_inf d hx hf, b64OfBits_isFinite d,
    fun ⟨h0, hx⟩ => b64Value_normal d h0 hx, b64Value_subnormal d, b64ToBits_b64OfBits d⟩

end Sys2Proof.Machine
end

section
/-! PROOF. The opcode map reads back: a word that decodes to a command is that command's encoding (spec/30_encoding.md
R71, R74, R75). -/

namespace Sys2Proof

/-- A command named by the opcode map has that `OP`, and the given `SH` where it shifts. -/
theorem fields_of_commandOf {op : BitVec 8} {sh : BitVec 5} {i : Instr} (h : commandOf op sh = some i) :
    opcode i = op ∧ shiftAmount i = if isShiftOp op then sh else 0#5 := by
  obtain ⟨n, hn⟩ : ∃ n, op.toNat = n := ⟨_, rfl⟩
  have hop : op = BitVec.ofNat 8 n := by rw [← hn, BitVec.ofNat_toNat, BitVec.setWidth_eq]
  rw [commandOf, hn] at h
  subst hop
  split at h <;> cases h <;> exact ⟨rfl, rfl⟩

/-- What the decoder has checked of a word it accepts (R75). -/
theorem checks_of_decode {w : Word} {i : Instr} (h : decode w = .ok i) :
    commandOf (opField w) (shField w) = some i ∧ rsvField w = 0#19 ∧
      (shField w ≠ 0#5 → isShiftOp (opField w) = true) := by
  unfold decode at h
  split at h
  · cases h
  · next j hj =>
    split at h
    · cases h
    · next hrsv =>
      split at h
      · cases h
      · next hsh =>
        cases h
        exact ⟨hj, by simpa using hrsv, by simpa using hsh⟩

theorem encode_of_decode {w : Word} {i : Instr} (h : decode w = .ok i) : encode i = w := by
  obtain ⟨hcmd, hrsv, hsh⟩ := checks_of_decode h
  obtain ⟨hop, hamount⟩ := fields_of_commandOf hcmd
  have hamount' : shiftAmount i = shField w := by
    by_cases hs : shField w = 0#5
    · simp [hamount, hs]
    · simp [hamount, hsh hs]
  rw [encode, hop, hamount', ← hrsv, ← word_eq_fields]

end Sys2Proof
end

section
/-! PROOF. ERR and the engine's invariant along one step (spec/10_state.md R20 to R23, R28, spec/20_memory.md R45). -/

namespace Sys2Proof.Machine

/-! ## The step that accepts a transaction -/

theorem step_of_pending {s : State} {t : Transaction} {rest : List Transaction} (hr : s.resetLine = false)
    (hp : s.pending = t :: rest) : step s = perform (accept t rest s) := by
  simp [step, hr, hp]

theorem perform_of_decode {s : State} {i : Instr} (h : decode s.cmd = .ok i) : perform s = exec i s := by
  simp [perform, h]

/-- Settles O7: `step` accepts the transaction, and `perform` runs the command its word decodes to. -/
theorem stepRunsDecodedCommand : Obligations.StepRunsDecodedCommand := by
  intro s t rest i hr hp hd
  exact (step_of_pending hr hp).trans (perform_of_decode hd)

/-! ## How a command reads and writes ERR -/

/-- The code and the response of a command but ERRGET, as functions of the state that do not read ERR. -/
theorem exec_functions_ignore_err (i : Instr) (hi : i ≠ .errget) :
    ∃ (c : State → Option (BitVec 2)) (v : State → DWord),
      (∀ s, exec i s = .next (respond (v s) (record (c s) s))) ∧
      ∀ s e, c { s with err := e } = c s ∧ v { s with err := e } = v s := by
  cases i
  case errget => exact absurd rfl hi
  case tofloat => exact ⟨fun _ => none, _, fun _ => rfl, fun _ _ => ⟨rfl, rfl⟩⟩
  all_goals exact ⟨_, _, fun _ => rfl, fun _ _ => ⟨rfl, rfl⟩⟩

/-- A command but ERRGET records the same code and gives the same response whatever ERR holds. -/
theorem exec_shape_of_any_err (i : Instr) (s : State) (hi : i ≠ .errget) :
    ∃ c v, ∀ e, exec i { s with err := e } = .next (respond v (record c { s with err := e })) := by
  obtain ⟨c, v, hx, hcv⟩ := exec_functions_ignore_err i hi
  exact ⟨c s, v s, fun e => by rw [hx, (hcv s e).1, (hcv s e).2]⟩

/-- Settles O19: both states give the response of `exec_shape_of_any_err`. -/
theorem errorSignalReadByErrgetOnly : Obligations.ErrorSignalReadByErrgetOnly := by
  intro i s e hi
  obtain ⟨c, v, h⟩ := exec_shape_of_any_err i s hi
  exact ⟨_, _, h s.err, h e, rfl⟩

theorem Fixed.ErrorSetsValue.code_cases {r : Fixed} (h : r.ErrorSetsValue) :
    r.code = none ∨ r.code = some 1#2 ∨ r.code = some 2#2 := by
  cases h with
  | plain v => exact .inl rfl
  | satPos => exact .inr (.inl rfl)
  | satNeg => exact .inr (.inl rfl)
  | domain => exact .inr (.inr rfl)

/-- A command but ERRSET leaves ERR, or puts RANGE or DOMAIN in it. -/
theorem exec_err_cases {i : Instr} {s t : State} (hi : i ≠ .errset) (h : exec i s = .next t) :
    t.err = s.err ∨ t.err = 1#2 ∨ t.err = 2#2 := by
  obtain ⟨v, hx⟩ | ⟨r, hr, hx⟩ := exec_responds_or_answers i s hi
  · cases h.symm.trans hx
    exact .inl rfl
  · cases h.symm.trans hx
    rw [respond_err, record_err]
    rcases hr.code_cases with hc | hc | hc <;> simp [hc]

/-- A code that overwrites ERR whatever it held is RANGE or DOMAIN: it overwrites a value other than itself. -/
theorem code_cases_of_getD {c : Option (BitVec 2)} (h : ∀ e, c.getD e = e ∨ c.getD e = 1#2 ∨ c.getD e = 2#2) :
    c = none ∨ c = some 1#2 ∨ c = some 2#2 := by
  cases c with
  | none => exact .inl rfl
  | some d =>
    have hne : d ≠ ~~~d := by revert d; decide
    simpa [hne] using h (~~~d)

/-- Settles O15: ERRGET records nothing; any other command records one code whatever ERR held, and `exec_err_cases` says
which. -/
theorem errorSignalSticky : Obligations.ErrorSignalSticky := by
  intro i s hi
  by_cases hg : i = .errget
  · subst hg
    exact ⟨none, .inl rfl, fun e => ⟨_, rfl, rfl⟩⟩
  · obtain ⟨c, v, h⟩ := exec_shape_of_any_err i s hg
    have herr (e : BitVec 2) : (respond v (record c { s with err := e })).err = c.getD e := record_err c _
    exact ⟨c, code_cases_of_getD fun e => herr e ▸ exec_err_cases hi (h e), fun e => ⟨_, h e, herr e⟩⟩

/-! ## The engine's invariant -/

/-- Every step takes the oldest transaction, if there is one, off the port. -/
theorem step_pending {s t : State} (h : step s = .next t) : t.pending = s.pending.tail := by
  rcases step_cases s with ⟨-, hs⟩ | ⟨-, hp, hs⟩ | ⟨x, rest, -, hp, ⟨e, -, hs⟩ | ⟨i, -, hs⟩⟩
  · cases h.symm.trans hs
    simp
  · cases h.symm.trans hs
    simp [hp]
  · cases h.symm.trans hs
    simp [hp]
  · obtain ⟨c, v, hx⟩ := exec_shape i (accept x rest s)
    cases h.symm.trans (hs.trans hx)
    simp [hp]

theorem step_romsIntact {s t : State} (h : step s = .next t) (hs : RomsIntact s) : RomsIntact t := by
  obtain ⟨hcos, htan, hacos⟩ := hs
  obtain ⟨u, hu, hcos', htan', hacos', -⟩ := step_next s
  cases h.symm.trans hu
  exact ⟨hcos'.trans hcos, htan'.trans htan, hacos'.trans hacos⟩

/-- A transaction that does not set the reserved code does not put it in ERR. -/
theorem exec_err_ne_reserved {i : Instr} {x : Transaction} {rest : List Transaction} {s t : State}
    (hd : decode x.cmd = .ok i) (hx : setsReserved x = false) (herr : s.err ≠ 3#2)
    (h : exec i (accept x rest s) = .next t) : t.err ≠ 3#2 := by
  by_cases hi : i = .errset
  · subst hi
    have hcmd : x.cmd = 0x31#32 := (encode_of_decode hd).symm
    have hcode : x.opa.extractLsb' 0 2 ≠ 3#2 := by simpa [setsReserved, hcmd] using hx
    cases h
    exact hcode
  · rcases exec_err_cases hi h with ht | ht | ht <;> rw [ht]
    · exact herr
    · decide
    · decide

theorem step_err_ne_reserved {s t : State} (h : step s = .next t) (herr : s.err ≠ 3#2)
    (hpend : ∀ x ∈ s.pending, setsReserved x = false) : t.err ≠ 3#2 := by
  rcases step_cases s with ⟨-, hs⟩ | ⟨-, -, hs⟩ | ⟨x, rest, -, hp, ⟨e, -, hs⟩ | ⟨i, hd, hs⟩⟩
  · cases h.symm.trans hs
    simp
  · cases h.symm.trans hs
    exact herr
  · cases h.symm.trans hs
    exact herr
  · exact exec_err_ne_reserved hd (hpend x (by simp [hp])) herr (hs.symm.trans h)

/-- Settles O11: the ROMs stay, ERR takes no reserved code, and no transaction is added to those pending. -/
theorem engineInvariantKept : Obligations.EngineInvariantKept := by
  rintro s t ⟨hroms, herr, hpend⟩ h
  refine ⟨step_romsIntact h hroms, step_err_ne_reserved h herr hpend, fun x hx => hpend x ?_⟩
  exact List.mem_of_mem_tail (step_pending h ▸ hx)

end Sys2Proof.Machine
end

section
/-! PROOF. The byte order of a command word and of a 64-bit port: little-endian (spec/20_memory.md R47,
spec/30_encoding.md R77). -/

namespace Sys2Proof

/-! ## A command word -/

/-- The number of a word made of four bytes: byte `k` counts `2^(8k)`. -/
theorem wordOfBytes_toNat (b0 b1 b2 b3 : Byte) :
    (wordOfBytes b0 b1 b2 b3).toNat = b0.toNat + 2 ^ 8 * b1.toNat + 2 ^ 16 * b2.toNat + 2 ^ 24 * b3.toNat := by
  have append (n : Nat) (x : BitVec n) (y : Byte) : (x ++ y).toNat = x.toNat * 2 ^ 8 + y.toNat := by
    rw [BitVec.toNat_append, ← Nat.shiftLeft_add_eq_or_of_lt y.isLt, Nat.shiftLeft_eq]
  rw [wordOfBytes, append, append, append]
  ring

theorem wordOfBytes_eq_ofNat (b0 b1 b2 b3 : Byte) : wordOfBytes b0 b1 b2 b3 =
    BitVec.ofNat 32 (b0.toNat + 2 ^ 8 * b1.toNat + 2 ^ 16 * b2.toNat + 2 ^ 24 * b3.toNat) := by
  rw [← wordOfBytes_toNat, BitVec.ofNat_toNat, BitVec.setWidth_eq]

/-- Settles O5: the four bytes are the word of `wordOfBytes_eq_ofNat`. -/
theorem bytesDecodeLittleEndian : Obligations.BytesDecodeLittleEndian := by
  intro b0 b1 b2 b3 rest
  rw [← wordOfBytes_eq_ofNat]
  rfl

/-! ## A port -/

namespace Machine

theorem lowHalf_toNat (d : DWord) : (lowHalf d).toNat = d.toNat % 2 ^ 32 := by
  simp [lowHalf, BitVec.extractLsb'_toNat]

theorem highHalf_toNat (d : DWord) : (highHalf d).toNat = d.toNat / 2 ^ 32 := by
  have hd := d.isLt
  rw [highHalf, BitVec.extractLsb'_toNat, Nat.shiftRight_eq_div_pow, Nat.mod_eq_of_lt (by omega)]

theorem joinHalves_toNat (low high : Word) : (joinHalves low high).toNat = high.toNat * 2 ^ 32 + low.toNat := by
  rw [joinHalves, BitVec.toNat_append, ← Nat.shiftLeft_add_eq_or_of_lt low.isLt, Nat.shiftLeft_eq]

theorem joinHalves_halves (d : DWord) : joinHalves (lowHalf d) (highHalf d) = d := by
  apply BitVec.eq_of_toNat_eq
  rw [joinHalves_toNat, lowHalf_toNat, highHalf_toNat]
  omega

/-- Byte `k` of a word, as a part of its number. -/
theorem bytesOfWord_getElem? (w : Word) {k : Nat} (hk : k < 4) :
    (bytesOfWord w)[k]? = some (BitVec.ofNat 8 (w.toNat / 2 ^ (8 * k))) := by
  have byte (start : Nat) : w.extractLsb' start 8 = BitVec.ofNat 8 (w.toNat / 2 ^ start) := by
    rw [← Nat.shiftRight_eq_div_pow]
    rfl
  match k, hk with
  | 0, _ | 1, _ | 2, _ | 3, _ => exact congrArg some (byte _)

/-- A byte below bit 32 does not see the high half. -/
theorem ofNat_mod_div (n : Nat) {k : Nat} (hk : k < 4) :
    BitVec.ofNat 8 (n % 2 ^ 32 / 2 ^ (8 * k)) = BitVec.ofNat 8 (n / 2 ^ (8 * k)) := by
  apply BitVec.eq_of_toNat_eq
  rw [BitVec.toNat_ofNat, BitVec.toNat_ofNat]
  match k, hk with
  | 0, _ | 1, _ | 2, _ | 3, _ => omega

/-- The bytes of a port are those of its low half, then those of its high half. -/
theorem bytesOfPort_getElem? (d : DWord) {k : Nat} (hk : k < 8) :
    (bytesOfPort d)[k]? = some (BitVec.ofNat 8 (d.toNat / 2 ^ (8 * k))) := by
  have length : (bytesOfWord (lowHalf d)).length = 4 := rfl
  rcases Nat.lt_or_ge k 4 with h | h
  · rw [bytesOfPort, List.getElem?_append_left (by omega), bytesOfWord_getElem? _ h, lowHalf_toNat, ofNat_mod_div _ h]
  · obtain ⟨j, rfl⟩ := Nat.exists_eq_add_of_le h
    rw [bytesOfPort, List.getElem?_append_right (by omega), length, Nat.add_sub_cancel_left,
      bytesOfWord_getElem? _ (by omega), highHalf_toNat, Nat.div_div_eq_div_mul, ← pow_add, Nat.mul_add]

/-- Settles O58: the lemmas above, one for each clause. -/
theorem portSplitLittleEndian : Obligations.PortSplitLittleEndian :=
  fun d => ⟨joinHalves_halves d, lowHalf_toNat d, highHalf_toNat d, fun _ hk => bytesOfPort_getElem? d hk⟩

end Machine
end Sys2Proof
end

section
/-! PROOF. What holds along a run of any length (spec/20_memory.md R45, R50, R52). -/

namespace Sys2Proof.Machine

/-- A run starts with the step of its first state. -/
theorem core_run_succ {s u : State} (n : Nat) (h : step s = .next u) :
    Sys2Proof.core.run (n + 1) s = Sys2Proof.core.run n u := by
  have hcore : Sys2Proof.core.step s = .next u := h
  simp only [Host.Core.run, hcore]

/-- What no step changes, no run changes. -/
theorem core_run_keeps {α : Type} (f : State → α) (hstep : ∀ s u, step s = .next u → f u = f s) (n : Nat)
    {s t : State} (h : Sys2Proof.core.run n s = .next t) : f t = f s := by
  induction n generalizing s with
  | zero =>
    cases h
    rfl
  | succ n ih =>
    obtain ⟨u, hu, -⟩ := step_next s
    rw [core_run_succ n hu] at h
    exact (ih h).trans (hstep s u hu)

/-- The contents of the three ROMs. -/
def roms (s : State) : Rom 512 × Rom 256 × Rom 513 := (s.cosRom, s.tanRom, s.acosRom)

theorem roms_step (s u : State) (h : step s = .next u) : roms u = roms s := by
  obtain ⟨v, hv, hcos, htan, hacos, -⟩ := step_next s
  cases h.symm.trans hv
  rw [roms, hcos, htan, hacos, roms]

/-- Settles O13: no step changes the ROMs. -/
theorem romsNeverWritten : Obligations.RomsNeverWritten := by
  intro n s t h
  have hroms : roms t = roms s := core_run_keeps roms roms_step n h
  simpa [roms] using hroms

end Sys2Proof.Machine
end

section
/-! PROOF. The code of each command's result, under the conditions of the table of spec/60_exceptions.md R220: the
arithmetic behind the table. -/

namespace Sys2Proof.Machine

/-! ## Conversion to fixed point -/

theorem b64Value_fin_zero (s : Bool) (e : Int) : b64Value (.fin s 0 e) = 0 := by simp [b64Value_fin]

/-- A result with two saturating cases records RANGE in both. -/
theorem saturated_code (p q : Prop) [Decidable p] [Decidable q] (v w : Word) {r : Fixed} (hr : r.code = none) :
    (if p then Fixed.range v else if q then .range w else r).code = if p ∨ q then some 1#2 else none := by
  by_cases hp : p
  · rw [if_pos hp, if_pos (.inl hp)]
    rfl
  · by_cases hq : q
    · rw [if_neg hp, if_pos hq, if_pos (.inr hq)]
      rfl
    · rw [if_neg hp, if_neg hq, if_neg (not_or.mpr ⟨hp, hq⟩), hr]

theorem fromFloatCore_code (x : B64) :
    (fromFloatCore x).code = if b64Lt convLimit x || b64Lt x (b64Neg convLimit) then some 1#2 else none := by
  by_cases hnan : b64IsNan x
  · cases x with
    | nan => rfl
    | inf _ => cases hnan
    | fin _ _ _ => cases hnan
  · rw [fromFloatCore, if_neg hnan, saturated_code _ _ _ _ (by split <;> rfl)]
    simp only [Bool.or_eq_true]

/-- Converting a finite value records RANGE past the conversion limit, on either side. -/
theorem fromFloatCore_code_finite {x : B64} (hx : IsFinite x) :
    (fromFloatCore x).code = if 32767 < |b64Value x| then some 1#2 else none := by
  have habove : b64Lt convLimit x = decide (32767 < b64Value x) := by
    rw [convLimit, b64Lt_finite_right hx, ← convLimit, b64Value_convLimit]
  have hbelow : b64Lt x (b64Neg convLimit) = decide (b64Value x < -32767) := by
    rw [convLimit, b64Neg, b64Lt_finite_left hx, ← b64Neg, ← convLimit, b64Value_b64Neg, b64Value_convLimit]
  rw [fromFloatCore_code, habove, hbelow]
  simp only [Bool.or_eq_true, decide_eq_true_eq, lt_abs, lt_neg]

theorem fromFloatCore_code_none {x : B64} (hx : IsFinite x) (h : |b64Value x| ≤ 32767) :
    (fromFloatCore x).code = none := by
  rw [fromFloatCore_code_finite hx, if_neg h.not_gt]

/-- Rounding does not move a value across a binary64 value of larger magnitude. -/
theorem IsRounding.abs_value_le {r y : ℚ} {x : B64} (h : IsRounding r x) (hy : Representable y) (hr : |r| ≤ y) :
    |b64Value x| ≤ y := by
  rw [abs_le] at hr ⊢
  exact ⟨h.ge_of_ge _ hy.neg hr.1, h.le_of_le y hy hr.2⟩

/-- Nor of smaller magnitude. -/
theorem IsRounding.le_abs_value {r y : ℚ} {x : B64} (h : IsRounding r x) (hy : Representable y) (hr : y ≤ |r|) :
    y ≤ |b64Value x| := by
  rw [le_abs] at hr ⊢
  exact hr.imp (h.ge_of_ge y hy) fun hneg => le_neg_of_le_neg (h.le_of_le _ hy.neg (le_neg_of_le_neg hneg))

/-- Converting a rounded value records RANGE where the exact one is past the limit, if it is then past it by `2^-32`. -/
theorem IsRounding.fromFloatCore_code {r : ℚ} {x : B64} (h : IsRounding r x)
    (hgap : 32767 < |r| → 32767 + 1 / 2 ^ 32 ≤ |r|) :
    (fromFloatCore x).code = if 32767 < |r| then some 1#2 else none := by
  rw [fromFloatCore_code_finite h.finite]
  congr 1
  refine propext ⟨fun hx => ?_, fun hr => ?_⟩
  · by_contra hr
    exact hx.not_ge (h.abs_value_le (representable_int 32767 (by norm_num)) (not_lt.mp hr))
  · have hrep : Representable (32767 + 1 / 2 ^ 32) := by
      have := representable_mul_two_zpow (32767 * 2 ^ 32 + 1) (-32) (by norm_num) (by norm_num)
      norm_num at this ⊢
      exact this
    exact lt_of_lt_of_le (by norm_num) (h.le_abs_value hrep (hgap hr))

/-! ## Add and subtract -/

/-- A number of 33 bits, wrapped to 32. -/
theorem bmod_two_pow_32 (v : Int) (h : -2 ^ 32 ≤ v ∧ v < 2 ^ 32) :
    v.bmod (2 ^ 32) = if v < -2 ^ 31 then v + 2 ^ 32 else if 2 ^ 31 ≤ v then v - 2 ^ 32 else v := by
  rw [Int.bmod]
  omega

theorem toInt_bounds (w : Word) : -2 ^ 31 ≤ w.toInt ∧ w.toInt < 2 ^ 31 := ⟨w.le_toInt, w.toInt_lt⟩

theorem addOverflowsDown_iff (a b : Word) : addOverflowsDown a b (a + b) ↔ a.toInt + b.toInt < -2 ^ 31 := by
  have ha := toInt_bounds a
  have hb := toInt_bounds b
  simp only [addOverflowsDown, Bool.and_eq_true, decide_eq_true_eq]
  rw [BitVec.toInt_add, bmod_two_pow_32 _ (by omega)]
  omega

theorem addOverflowsUp_iff (a b : Word) : addOverflowsUp a b (a + b) ↔ 2 ^ 31 ≤ a.toInt + b.toInt := by
  have ha := toInt_bounds a
  have hb := toInt_bounds b
  simp only [addOverflowsUp, Bool.and_eq_true, decide_eq_true_eq]
  rw [BitVec.toInt_add, bmod_two_pow_32 _ (by omega)]
  omega

theorem subOverflowsDown_iff (a b : Word) : subOverflowsDown a b (a - b) ↔ a.toInt - b.toInt < -2 ^ 31 := by
  have ha := toInt_bounds a
  have hb := toInt_bounds b
  simp only [subOverflowsDown, Bool.and_eq_true, decide_eq_true_eq]
  rw [BitVec.toInt_sub, bmod_two_pow_32 _ (by omega)]
  omega

theorem subOverflowsUp_iff (a b : Word) :
    subOverflowsUp a b (a - b) ↔ 2 ^ 31 ≤ a.toInt - b.toInt ∧ a.toInt ≠ 0 := by
  have ha := toInt_bounds a
  have hb := toInt_bounds b
  simp only [subOverflowsUp, Bool.and_eq_true, decide_eq_true_eq]
  rw [BitVec.toInt_sub, bmod_two_pow_32 _ (by omega)]
  omega

theorem addResult_code (a b : Word) : (addResult a b).code =
    if 2 ^ 31 ≤ a.toInt + b.toInt ∨ a.toInt + b.toInt < -2 ^ 31 then some 1#2 else none := by
  rw [addResult, saturated_code _ _ _ _ rfl]
  congr 1
  rw [addOverflowsDown_iff, addOverflowsUp_iff, or_comm]

theorem subResult_code (a b : Word) : (subResult a b).code =
    if (2 ^ 31 ≤ a.toInt - b.toInt ∨ a.toInt - b.toInt < -2 ^ 31) ∧ a.toInt ≠ 0 then some 1#2 else none := by
  have hb := toInt_bounds b
  rw [subResult, saturated_code _ _ _ _ rfl]
  congr 1
  rw [subOverflowsDown_iff, subOverflowsUp_iff]
  refine propext ⟨fun h => ?_, fun h => ?_⟩ <;> omega

/-! ## Multiply and divide -/

theorem ratio_past_limit_iff (n d : Int) (hd : d ≠ 0) : 32767 < |(n : ℚ) / d| ↔ 32767 * |d| < |n| := by
  rw [abs_div, lt_div_iff₀ (by positivity)]
  exact_mod_cast Iff.rfl

/-- A rounded ratio of integers records RANGE exactly where the ratio is past the limit. -/
theorem code_of_rounded_ratio {n d : Int} {x : B64} (hd : d ≠ 0) (hle : |d| ≤ 2 ^ 32)
    (h : IsRounding ((n : ℚ) / d) x) : (fromFloatCore x).code = if 32767 * |d| < |n| then some 1#2 else none := by
  have hgap (hlt : 32767 < |(n : ℚ) / d|) : 32767 + 1 / 2 ^ 32 ≤ |(n : ℚ) / d| := by
    have hnext : 32767 * |d| + 1 ≤ |n| := (ratio_past_limit_iff n d hd).mp hlt
    have hnext' : 32767 * |(d : ℚ)| + 1 ≤ |(n : ℚ)| := by exact_mod_cast hnext
    have hle' : |(d : ℚ)| ≤ 2 ^ 32 := by exact_mod_cast hle
    rw [abs_div, le_div_iff₀ (by positivity)]
    linarith
  simp only [h.fromFloatCore_code hgap, ratio_past_limit_iff n d hd]

theorem abs_toInt_le (w : Word) : |w.toInt| ≤ 2 ^ 31 := abs_le.mpr ⟨w.le_toInt, w.toInt_lt.le⟩

/-- What a word converts to. -/
theorem toFloatCore_fin (w : Word) :
    ∃ s m e, toFloatCore w.toInt = .fin s m e ∧ b64Value (.fin s m e) = w.toInt / 65536 := by
  obtain ⟨⟨s, m, e, h, -⟩, hv⟩ := toFloatCore_word w
  exact ⟨s, m, e, h, h ▸ hv⟩

theorem isRounding_mul_words (a b : Word) :
    IsRounding (((a.toInt * b.toInt : Int) : ℚ) / (2 ^ 32 : Int))
      (b64Mul (toFloatCore a.toInt) (toFloatCore b.toInt)) := by
  obtain ⟨s, m, e, hx, hxv⟩ := toFloatCore_fin a
  obtain ⟨t, n, f, hy, hyv⟩ := toFloatCore_fin b
  have hprod : ((a.toInt * b.toInt : Int) : ℚ) / (2 ^ 32 : Int) = b64Value (.fin s m e) * b64Value (.fin t n f) := by
    rw [hxv, hyv]
    push_cast
    ring
  have hbound : |((a.toInt * b.toInt : Int) : ℚ) / (2 ^ 32 : Int)| ≤ 2 ^ 64 := by
    have hab : |a.toInt * b.toInt| ≤ 2 ^ 31 * 2 ^ 31 := by
      rw [abs_mul]
      exact mul_le_mul (abs_toInt_le a) (abs_toInt_le b) (abs_nonneg _) (by norm_num)
    have hab' : |((a.toInt * b.toInt : Int) : ℚ)| ≤ 2 ^ 31 * 2 ^ 31 := by exact_mod_cast hab
    rw [abs_div]
    refine (div_le_self (abs_nonneg _) (by norm_num)).trans (hab'.trans (by norm_num))
  rw [hprod] at hbound ⊢
  rw [hx, hy]
  exact isRounding_mul s t m n e f (belowOverflow_of_le hbound)

theorem isRounding_div_words (a b : Word) (hb : b.toInt ≠ 0) :
    IsRounding ((a.toInt : ℚ) / b.toInt) (b64Div (toFloatCore a.toInt) (toFloatCore b.toInt)) := by
  obtain ⟨s, m, e, hx, hxv⟩ := toFloatCore_fin a
  obtain ⟨t, n, f, hy, hyv⟩ := toFloatCore_fin b
  have hquot : (a.toInt : ℚ) / b.toInt = b64Value (.fin s m e) / b64Value (.fin t n f) := by
    rw [hxv, hyv, div_div_div_cancel_right₀ (by norm_num)]
  have hn : n ≠ 0 := by
    rintro rfl
    rw [b64Value_fin_zero] at hyv
    exact div_ne_zero (Int.cast_ne_zero.mpr hb) (by norm_num) hyv.symm
  have hbound : |(a.toInt : ℚ) / b.toInt| ≤ 2 ^ 64 := by
    have ha' : |(a.toInt : ℚ)| ≤ 2 ^ 31 := by exact_mod_cast abs_toInt_le a
    have hb' : (1 : ℚ) ≤ |(b.toInt : ℚ)| := by exact_mod_cast Int.one_le_abs hb
    rw [abs_div]
    exact (div_le_self (abs_nonneg _) hb').trans (ha'.trans (by norm_num))
  rw [hquot] at hbound ⊢
  rw [hx, hy]
  exact isRounding_div s t m n e f hn (belowOverflow_of_le hbound)

theorem mul_code (a b : Word) : (fromFloatCore (b64Mul (toFloatCore a.toInt) (toFloatCore b.toInt))).code =
    if 32767 * 2 ^ 32 < a.toInt * b.toInt ∨ a.toInt * b.toInt < -(32767 * 2 ^ 32) then some 1#2 else none := by
  rw [code_of_rounded_ratio (by norm_num) (by norm_num) (isRounding_mul_words a b)]
  simp only [lt_abs, lt_neg]
  norm_num

theorem divResult_code (a b : Word) : (divResult a.toInt b.toInt).code =
    if b.toInt = 0 ∨ 32767 * |b.toInt| < |a.toInt| then some 1#2 else none := by
  by_cases hb : b.toInt = 0
  · rw [divResult, if_pos hb, apply_ite Fixed.code, if_pos (Or.inl hb)]
    exact ite_self _
  · have hle : |b.toInt| ≤ 2 ^ 32 := (abs_toInt_le b).trans (by norm_num)
    rw [divResult, if_neg hb, code_of_rounded_ratio hb hle (isRounding_div_words a b hb)]
    simp only [hb, false_or]

/-! ## Square root and hypotenuse -/

theorem sqrt_code_none (w : Word) (h : 0 ≤ w.toInt) : (fromFloatCore (b64Sqrt (toFloatCore w.toInt))).code = none := by
  obtain ⟨⟨s, m, e, hx, hcan⟩, hv⟩ := toFloatCore_word w
  rw [hx] at hv ⊢
  have hw : (0 : ℚ) ≤ w.toInt := by exact_mod_cast h
  cases s with
  | false =>
    have hroot := isSqrtRounding_sqrt m e hcan
    have hle : |(w.toInt : ℚ)| ≤ 2 ^ 31 := by exact_mod_cast abs_toInt_le w
    rw [abs_of_nonneg hw] at hle
    refine fromFloatCore_code_none hroot.finite ?_
    rw [abs_of_nonneg hroot.nonneg]
    refine hroot.le_of_le 32767 (representable_int 32767 (by norm_num)) (by norm_num) ?_
    rw [hv]
    linarith
  | true =>
    have hm : m = 0 := by
      have hpos := two_zpow_pos e
      rw [b64Value_neg] at hv
      by_contra hm
      have hm' : (0 : ℚ) < m := by positivity
      have := mul_pos hm' hpos
      linarith
    subst hm
    refine fromFloatCore_code_none (x := .fin true 0 e) ⟨_, _, _, rfl, hcan⟩ ?_
    simp

theorem fin_not_below {s : Bool} {m : Nat} {e : Int} (h : 0 ≤ b64Value (.fin s m e)) :
    b64Lt (.fin s m e) (b64Neg convLimit) = false := by
  have hlimit : b64Value (.fin true 32767 0) = -32767 := by simp
  rw [convLimit, b64Neg, b64Lt_fin, Bool.not_false, hlimit]
  exact decide_eq_false (by linarith)

theorem finishRound_not_below (m : Nat) (e : Int) : b64Lt (finishRound false m e) (b64Neg convLimit) = false := by
  unfold finishRound
  split_ifs
  · rfl
  · exact fin_not_below nonneg_of_representable
  · rfl
  · exact fin_not_below nonneg_of_representable

/-- No square root lies below the conversion limits. -/
theorem b64Sqrt_not_below (x : B64) : b64Lt (b64Sqrt x) (b64Neg convLimit) = false := by
  cases x with
  | nan => rfl
  | inf s => cases s <;> rfl
  | fin s m e =>
    by_cases hm : m = 0
    · subst hm
      exact fin_not_below (b64Value_fin_zero s e).ge
    · cases s with
      | true => simp [b64Sqrt, hm, b64Lt]
      | false =>
        simp only [b64Sqrt, if_neg hm]
        exact finishRound_not_below _ _

theorem hypotResult_code (x y : Int) :
    (hypotResult x y).code = if b64Lt convLimit (hypotFloat x y) then some 1#2 else none := by
  rw [hypotResult, fromFloatCore_code, b64Sqrt_not_below, Bool.or_false, hypotFloat]

/-! ## Arctangents -/

/-- An angle the enclosure of a point other than the origin contains. -/
theorem encloseQuadrant_angle (p q P : Nat) (h : p ≠ 0 ∨ q ≠ 0) :
    ∃ θ : ℝ, 0 ≤ θ ∧ θ ≤ Real.pi ∧ (encloseQuadrant p q P).Contains (2 ^ P * θ) := by
  have hpi := Real.pi_pos
  rcases Nat.eq_zero_or_pos q with rfl | hq
  · exact ⟨Real.pi / 2, by positivity, by linarith, encloseQuadrant_vertical p P (by omega)⟩
  · have hlt := Real.arctan_lt_pi_div_two ((p : ℝ) / q)
    exact ⟨_, arctan_cast_nonneg p q, by linarith, encloseQuadrant_contains p q P hq⟩

theorem encloseAngle_angle (p q P : Nat) (obtuse : Bool) (h : p ≠ 0 ∨ q ≠ 0) :
    ∃ θ : ℝ, 0 ≤ θ ∧ θ ≤ Real.pi ∧ (encloseAngle p q P obtuse).Contains (2 ^ P * θ) := by
  obtain ⟨θ, h0, h1, hc⟩ := encloseQuadrant_angle p q P h
  cases obtuse with
  | false => exact ⟨θ, h0, h1, hc⟩
  | true => exact ⟨Real.pi - θ, by linarith, by linarith, encloseAngle_obtuse p q P θ h1 hc⟩

/-- A finite angle of at most 4 radians. -/
def IsAngle (θ : B64) : Prop := IsFinite θ ∧ |b64Value θ| ≤ 4

theorem isAngle_zero (s : Bool) {e : Int} (hcan : Canonical 0 e) : IsAngle (.fin s 0 e) :=
  ⟨⟨s, 0, e, rfl, hcan⟩, by norm_num [b64Value_fin_zero]⟩

theorem roundAngle_isAngle (neg : Bool) (p q : Nat) (obtuse : Bool) (h : p ≠ 0 ∨ q ≠ 0) :
    IsAngle (roundAngle neg p q obtuse) := by
  obtain ⟨θ, h0, h1, hc⟩ := encloseAngle_angle p q (anglePrecision p q) obtuse h
  obtain ⟨n, hn, hclose⟩ := roundAngle_close neg p q obtuse θ hc
  generalize anglePrecision p q = P at hn hclose
  have hle : (n : ℚ) / (2 ^ P : ℕ) ≤ 4 := by
    have hreal : (n : ℝ) / 2 ^ P ≤ 4 := by
      have hpi : Real.pi < 3.15 := Real.pi_lt_d2
      have hn : (n : ℝ) / 2 ^ P - θ ≤ 1 / 2 ^ 248 := (abs_le.mp hclose).2
      have hsmall : (1 : ℝ) / 2 ^ 248 ≤ 1 / 2 := by norm_num
      linarith
    have hcast : (((n : ℚ) / (2 ^ P : ℕ) : ℚ) : ℝ) ≤ (4 : ℚ) := by
      push_cast
      exact hreal
    exact Rat.cast_le.mp hcast
  have habs : |(n : ℚ) / (2 ^ P : ℕ)| ≤ 4 := by rwa [abs_of_nonneg (by positivity)]
  have hround := isRounding_flRatio neg n (2 ^ P) (by positivity) (belowOverflow_of_le (habs.trans (by norm_num)))
  rw [hn]
  refine ⟨hround.finite, hround.abs_value_le (by exact_mod_cast representable_int 4 (by norm_num)) ?_⟩
  cases neg <;> simpa using habs

theorem atanCr_isAngle {x : B64} (hx : IsFinite x) : IsAngle (atanCr x) := by
  obtain ⟨s, m, e, rfl, hcan⟩ := hx
  by_cases hm : m = 0
  · subst hm
    exact isAngle_zero s hcan
  · simp only [atanCr, if_neg hm]
    exact roundAngle_isAngle _ _ _ _ (.inr (by positivity))

theorem atan2Cr_isAngle {y x : B64} (hy : IsFinite y) (hx : IsFinite x) (h : b64Value y ≠ 0 ∨ b64Value x ≠ 0) :
    IsAngle (atan2Cr y x) := by
  obtain ⟨s, m, e, rfl, hcan⟩ := hy
  obtain ⟨t, n, f, rfl, -⟩ := hx
  have hmn : m ≠ 0 ∨ n ≠ 0 :=
    h.imp (fun hv hm => hv (hm ▸ b64Value_fin_zero s e)) fun hv hn => hv (hn ▸ b64Value_fin_zero t f)
  by_cases hm : m = 0 ∧ t = false
  · simp only [atan2Cr, if_pos hm]
    exact isAngle_zero s (by unfold Canonical; norm_num)
  · simp only [atan2Cr, if_neg hm]
    exact roundAngle_isAngle _ _ _ _ (hmn.imp (fun hm => by positivity) fun hn => by positivity)

theorem toAngle_code_none {θ : B64} (h : IsAngle θ) : (toAngle θ).code = none := by
  obtain ⟨⟨s, m, e, rfl, -⟩, hle⟩ := h
  have hscale : angleScale = .fin false 0x145F306DC9C883 (-47) := by decide +kernel
  have hv : |b64Value angleScale| ≤ 64 := by
    rw [hscale]
    norm_num [abs_le]
  have hprod : |b64Value (.fin s m e) * b64Value angleScale| ≤ 4 * 64 := by
    rw [abs_mul]
    exact mul_le_mul hle hv (abs_nonneg _) (by norm_num)
  have hround := isRounding_mul s false m _ e _ (hscale ▸ belowOverflow_of_le (hprod.trans (by norm_num)))
  rw [← hscale] at hround
  exact fromFloatCore_code_none hround.finite
    (hround.abs_value_le (representable_int 32767 (by norm_num)) (hprod.trans (by norm_num)))

theorem atan_code_none (w : Word) : (toAngle (atanCr (toFloatCore w.toInt))).code = none :=
  toAngle_code_none (atanCr_isAngle (toFloatCore_word w).1)

theorem atan2Result_code_none (y x : Word) : (atan2Result y.toInt x.toInt).code = none := by
  by_cases h : y.toInt = 0 ∧ x.toInt = 0
  · rw [atan2Result, if_pos h]
    rfl
  · rw [atan2Result, if_neg h]
    obtain ⟨hyf, hyv⟩ := toFloatCore_word y
    obtain ⟨hxf, hxv⟩ := toFloatCore_word x
    refine toAngle_code_none (atan2Cr_isAngle hyf hxf ?_)
    rw [hyv, hxv]
    simpa [← not_and_or] using h

/-! ## The domain checks -/

theorem acosResult_code (x : Int) (v : Word) : (if acosValid x then Fixed.plain v else .domain 0#32).code =
    if x < -65536 ∨ 65536 < x then some 2#2 else none := by
  have hvalid : acosValid x ↔ ¬(x < -65536 ∨ 65536 < x) := by simp [acosValid]
  by_cases h : x < -65536 ∨ 65536 < x
  · rw [if_neg (mt hvalid.mp (not_not.mpr h)), if_pos h]
    rfl
  · rw [if_pos (hvalid.mpr h), if_neg h]
    rfl

theorem sqrtResult_code (w : Word) :
    (if w.toInt < 0 then Fixed.domain 0#32 else fromFloatCore (b64Sqrt (toFloatCore w.toInt))).code =
      if w.toInt < 0 then some 2#2 else none := by
  split_ifs with h
  · rfl
  · exact sqrt_code_none w (not_lt.mp h)

end Sys2Proof.Machine
end

section
/-! PROOF. ERR over a sequence of transactions: each step records the code of the table of spec/60_exceptions.md R220
(spec/20_memory.md R50, spec/70_reset_and_hazards.md R243). -/

namespace Sys2Proof.Machine

/-- A command that answers a result records the result's code. -/
theorem records_of_answer {i : Instr} {s : State} {r : Fixed} {c : Option (BitVec 2)} (h : exec i s = answer r s)
    (hc : r.code = c) : ∃ v, exec i s = .next (respond v (record c s)) :=
  ⟨_, by rw [h, ← hc]; rfl⟩

/-- The command of an accepted transaction records the code of the table, and responds. -/
theorem exec_accept_records {t : Transaction} {i : Instr} (hd : decode t.cmd = .ok i) (rest : List Transaction)
    (s : State) : ∃ v, exec i (accept t rest s) = .next (respond v (record (recordedBy t) (accept t rest s))) := by
  simp only [recordedBy, hd]
  cases i
  case tofloat => exact ⟨_, rfl⟩
  case errget => exact ⟨_, rfl⟩
  case errset => exact ⟨_, rfl⟩
  case fromfloat => exact records_of_answer rfl (fromFloatCore_code _)
  case add => exact records_of_answer rfl (addResult_code _ _)
  case sub => exact records_of_answer rfl (subResult_code _ _)
  case mul => exact records_of_answer rfl (mul_code _ _)
  case div => exact records_of_answer rfl (divResult_code _ _)
  case acos => exact records_of_answer rfl (acosResult_code _ _)
  case asin => exact records_of_answer rfl (acosResult_code _ _)
  case atan => exact records_of_answer rfl (atan_code_none _)
  case atan2 => exact records_of_answer rfl (atan2Result_code_none _ _)
  case sqrt => exact records_of_answer rfl (sqrtResult_code _)
  case hypot => exact records_of_answer rfl (hypotResult_code _ _)
  all_goals exact records_of_answer rfl rfl

/-- A step that accepts a transaction leaves the rest pending, and in ERR the code the transaction records, if any. -/
theorem step_records {s : State} {t : Transaction} {rest : List Transaction} (hr : s.resetLine = false)
    (hp : s.pending = t :: rest) :
    ∃ u, step s = .next u ∧ u.resetLine = false ∧ u.pending = rest ∧ u.err = (recordedBy t).getD s.err := by
  rw [step_of_pending hr hp]
  cases hd : decode t.cmd with
  | error e => exact ⟨answerIllegal (accept t rest s), by simp [perform, hd], hr, rfl, by simp [recordedBy, hd]⟩
  | ok i =>
    obtain ⟨v, hx⟩ := exec_accept_records hd rest s
    exact ⟨_, (perform_of_decode hd).trans hx, by simp [hr], by simp, record_err _ _⟩

/-- Settles O17, by induction on the pending transactions: each step accepts the oldest of them. -/
theorem errorSignalFollowsIssueOrder : Obligations.ErrorSignalFollowsIssueOrder := by
  intro ts
  induction ts with
  | nil => exact fun s _ hp => ⟨s, rfl, hp, rfl⟩
  | cons t rest ih =>
    intro s hr hp
    obtain ⟨u, hu, hur, hup, herr⟩ := step_records hr hp
    obtain ⟨w, hw, hwp, hwerr⟩ := ih u hur hup
    exact ⟨w, (core_run_succ rest.length hu).trans hw, hwp, by rw [hwerr, herr, List.foldl_cons]⟩

end Sys2Proof.Machine
end

section
/-! PROOF. The entries of COS_ROM are rounded cosines (spec/20_memory.md R41). The cosines of the multiples of a small
angle are the real parts of the powers of one unit complex number. A Gaussian integer stands for that number, and its exact
powers are followed beside the entries. -/

namespace Sys2Proof.Machine

/-! ## The entries beside the powers of a Gaussian integer -/

/-- `2^40` times `exp(iπ/256)`, both parts rounded down. -/
def rotor : GaussianInt := ⟨1099428836572, 13492699035⟩

/-- The entry is within 499/1000 of 65536 times the real part of `power / scale`. -/
def isNear (w : Word) (power : GaussianInt) (scale : Int) : Bool :=
  decide (1000 * |w.toInt * scale - 65536 * power.re| ≤ 499 * scale)

/-- The entries are near the successive powers of the rotor, the first of them near `power`. -/
def followsRotor : List Word → GaussianInt → Int → Bool
  | [], _, _ => true
  | w :: ws, power, scale => isNear w power scale && followsRotor ws (power * rotor) (scale * 2 ^ 40)

theorem isNear_of_followsRotor {ws : List Word} {power : GaussianInt} {scale : Int} (h : followsRotor ws power scale)
    {i : Nat} {w : Word} (hw : ws[i]? = some w) : isNear w (power * rotor ^ i) (scale * (2 ^ 40) ^ i) := by
  induction ws generalizing power scale i with
  | nil => cases hw
  | cons v ws ih =>
    obtain ⟨hv, hws⟩ := Bool.and_eq_true_iff.mp h
    cases i with
    | zero =>
      cases hw
      simpa using hv
    | succ i =>
      rw [pow_succ', pow_succ', ← mul_assoc, ← mul_assoc]
      exact ih hws hw

theorem cosList_followsRotor : followsRotor cosList 1 1 := by decide +kernel

theorem isNear_cosList {i : Nat} {w : Word} (hw : cosList[i]? = some w) : isNear w (rotor ^ i) ((2 ^ 40) ^ i) := by
  simpa using isNear_of_followsRotor cosList_followsRotor hw

/-! ## The rotor beside the unit complex number -/

open Complex (I)

/-- The unit complex number of the angle between two entries. -/
noncomputable def unitRotor : ℂ := Complex.exp ((Real.pi / 256 : ℝ) * I)

/-- The rotor as a complex number. -/
noncomputable def scaledRotor : ℂ := (rotor : ℂ) / (2 ^ 40 : ℝ)

theorem unitRotor_pow_re (i : Nat) : (unitRotor ^ i).re = Real.cos (2 * Real.pi * i / 512) := by
  rw [unitRotor, ← Complex.exp_nat_mul, ← mul_assoc, ← Complex.ofReal_natCast, ← Complex.ofReal_mul,
    Complex.exp_ofReal_mul_I_re]
  congr 1
  ring

theorem scaledRotor_pow_re (i : Nat) : (scaledRotor ^ i).re = ((rotor ^ i).re : ℝ) / (2 ^ 40) ^ i := by
  rw [scaledRotor, div_pow, ← map_pow, GaussianInt.intCast_re, ← Complex.div_ofReal_re]
  push_cast
  rfl

theorem norm_unitRotor : ‖unitRotor‖ = 1 := Complex.norm_exp_ofReal_mul_I _

theorem norm_scaledRotor_le : ‖scaledRotor‖ ≤ 1 := by
  have hnorm : rotor.norm ≤ (2 ^ 40) ^ 2 := by decide +kernel
  have hsq : ‖(rotor : ℂ)‖ ^ 2 ≤ (2 ^ 40) ^ 2 := by
    rw [← Complex.normSq_eq_norm_sq, ← GaussianInt.intCast_real_norm]
    exact_mod_cast hnorm
  rw [scaledRotor, norm_div, div_le_one (by simp)]
  simpa using (sq_le_sq₀ (norm_nonneg _) (by positivity)).mp hsq

/-- A rational angle near the one between two entries, from `π ≈ 3.1415926536`. -/
noncomputable def rationalAngle : ℝ := 3.1415926536 / 256

theorem unitRotor_near_rationalAngle : ‖unitRotor - Complex.exp (rationalAngle * I)‖ ≤ 1 / 2 ^ 40 := by
  have hdist : ‖Real.pi / 256 - rationalAngle‖ ≤ 1 / 2 ^ 40 := by
    have hlo := Real.pi_gt_d20
    have hhi := Real.pi_lt_d20
    rw [rationalAngle, Real.norm_eq_abs, abs_le]
    constructor <;> linarith
  have hturn : unitRotor - Complex.exp (rationalAngle * I) =
      Complex.exp (rationalAngle * I) * (Complex.exp (I * (Real.pi / 256 - rationalAngle : ℝ)) - 1) := by
    rw [unitRotor, mul_sub, ← Complex.exp_add, mul_one]
    congr 2
    push_cast
    ring
  rw [hturn, norm_mul, Complex.norm_exp_ofReal_mul_I, one_mul]
  exact Real.norm_exp_I_mul_ofReal_sub_one_le.trans hdist

/-- The first six terms of the exponential's series at an imaginary argument. -/
noncomputable def expSeries (θ : ℝ) : ℂ := ∑ m ∈ Finset.range 6, (θ * I) ^ m / (m.factorial : ℂ)

theorem expSeries_eq (θ : ℝ) : expSeries θ = ⟨1 - θ ^ 2 / 2 + θ ^ 4 / 24, θ - θ ^ 3 / 6 + θ ^ 5 / 120⟩ := by
  apply Complex.ext <;> simp [expSeries, Finset.sum_range_succ, Nat.factorial, pow_succ] <;> ring

theorem exp_near_expSeries {θ : ℝ} (h0 : 0 ≤ θ) (h1 : θ ≤ 1) : ‖Complex.exp (θ * I) - expSeries θ‖ ≤ θ ^ 6 := by
  have hnorm : ‖(θ : ℂ) * I‖ = θ := by rw [norm_mul, Complex.norm_I, mul_one, Complex.norm_of_nonneg h0]
  have hexp := Complex.exp_bound (hnorm.trans_le h1) (n := 6) (by norm_num)
  rw [hnorm] at hexp
  exact hexp.trans (mul_le_of_le_one_right (by positivity) (by norm_num [Nat.factorial]))

theorem scaledRotor_eq : scaledRotor = ⟨rotor.re / 2 ^ 40, rotor.im / 2 ^ 40⟩ := by
  apply Complex.ext
  · rw [scaledRotor, Complex.div_ofReal_re, GaussianInt.intCast_re]
  · rw [scaledRotor, Complex.div_ofReal_im, GaussianInt.intCast_im]

theorem expSeries_near_scaledRotor : ‖expSeries rationalAngle - scaledRotor‖ ≤ 1 / 2 ^ 39 := by
  rw [expSeries_eq, scaledRotor_eq]
  refine (Complex.norm_le_abs_re_add_abs_im _).trans ?_
  norm_num [rationalAngle, rotor, abs_le]

theorem scaledRotor_near_unitRotor : ‖scaledRotor - unitRotor‖ ≤ 1 / 2 ^ 37 := by
  have hangle := unitRotor_near_rationalAngle
  have hexp : ‖Complex.exp (rationalAngle * I) - expSeries rationalAngle‖ ≤ 1 / 2 ^ 38 :=
    (exp_near_expSeries (by norm_num [rationalAngle]) (by norm_num [rationalAngle])).trans (by norm_num [rationalAngle])
  have hseries := expSeries_near_scaledRotor
  calc ‖scaledRotor - unitRotor‖ = ‖unitRotor - scaledRotor‖ := norm_sub_rev _ _
    _ ≤ ‖unitRotor - expSeries rationalAngle‖ + ‖expSeries rationalAngle - scaledRotor‖ :=
      norm_sub_le_norm_sub_add_norm_sub _ _ _
    _ ≤ ‖unitRotor - Complex.exp (rationalAngle * I)‖ + ‖Complex.exp (rationalAngle * I) - expSeries rationalAngle‖ +
        ‖expSeries rationalAngle - scaledRotor‖ := by
      gcongr
      exact norm_sub_le_norm_sub_add_norm_sub _ _ _
    _ ≤ 1 / 2 ^ 40 + 1 / 2 ^ 38 + 1 / 2 ^ 39 := by gcongr
    _ ≤ 1 / 2 ^ 37 := by norm_num

/-- Powers in the unit disc are as near as the numbers, times the exponent. -/
theorem norm_pow_sub_pow_le {z u : ℂ} (hz : ‖z‖ ≤ 1) (hu : ‖u‖ ≤ 1) (n : Nat) : ‖z ^ n - u ^ n‖ ≤ n * ‖z - u‖ := by
  induction n with
  | zero => simp
  | succ n ih =>
    have hsplit : z ^ (n + 1) - u ^ (n + 1) = z ^ n * (z - u) + (z ^ n - u ^ n) * u := by ring
    have hfirst : ‖z ^ n * (z - u)‖ ≤ ‖z - u‖ := by
      rw [norm_mul, norm_pow]
      exact mul_le_of_le_one_left (norm_nonneg _) (pow_le_one₀ (norm_nonneg _) hz)
    have hsecond : ‖(z ^ n - u ^ n) * u‖ ≤ n * ‖z - u‖ := by
      rw [norm_mul]
      exact (mul_le_of_le_one_right (norm_nonneg _) hu).trans ih
    calc ‖z ^ (n + 1) - u ^ (n + 1)‖ ≤ ‖z - u‖ + n * ‖z - u‖ := hsplit ▸ norm_add_le_of_le hfirst hsecond
      _ = (n + 1 : ℕ) * ‖z - u‖ := by push_cast; ring

/-! ## The entries beside the cosines -/

theorem rotor_pow_near_cos {i : Nat} (hi : i < 512) :
    |((rotor ^ i).re : ℝ) / (2 ^ 40) ^ i - Real.cos (2 * Real.pi * i / 512)| ≤ 1 / 2 ^ 28 := by
  rw [← scaledRotor_pow_re, ← unitRotor_pow_re, ← Complex.sub_re]
  calc |(scaledRotor ^ i - unitRotor ^ i).re| ≤ ‖scaledRotor ^ i - unitRotor ^ i‖ := Complex.abs_re_le_norm _
    _ ≤ i * ‖scaledRotor - unitRotor‖ := norm_pow_sub_pow_le norm_scaledRotor_le norm_unitRotor.le i
    _ ≤ 512 * (1 / 2 ^ 37) := by
      gcongr
      · exact_mod_cast hi.le
      · exact scaledRotor_near_unitRotor
    _ = 1 / 2 ^ 28 := by norm_num

theorem abs_sub_le_of_isNear {w : Word} {power : GaussianInt} {scale : Int} (hs : 0 < scale) (h : isNear w power scale) :
    |(w.toInt : ℝ) - 65536 * ((power.re : ℝ) / scale)| ≤ 499 / 1000 := by
  have hs' : (0 : ℝ) < scale := by exact_mod_cast hs
  have hint : 1000 * |(w.toInt : ℝ) * scale - 65536 * power.re| ≤ 499 * scale := by exact_mod_cast of_decide_eq_true h
  have hscaled : |(w.toInt : ℝ) - 65536 * (power.re / scale)| * scale = |(w.toInt : ℝ) * scale - 65536 * power.re| := by
    rw [← abs_of_pos hs', ← abs_mul, abs_of_pos hs']
    congr 1
    field_simp
  refine le_of_mul_le_mul_right ?_ hs'
  linarith

/-- Settles O40: an entry is near 65536 times the real part of a power of the rotor, and that power is near the unit
complex number of the entry's angle. -/
theorem cosRomEntriesAreCosines : Obligations.CosRomEntriesAreCosines := by
  refine ⟨State.reset.cosRom.size, fun i w hw => ?_⟩
  have hi : i < 512 := (List.getElem?_eq_some_iff.mp hw).1.trans_eq cosImage.size
  have hentry := abs_sub_le_of_isNear (by positivity) (isNear_cosList hw)
  have hpower := rotor_pow_near_cos hi
  push_cast at hentry
  rw [abs_le] at hentry hpower
  rw [abs_lt]
  norm_num at hentry hpower ⊢
  constructor <;> linarith
end Sys2Proof.Machine
end

section
/-! PROOF. The decoder accepts exactly the encoded words, which are the legal ones; what the core answers to a word by its
legality; the operands it forms (spec/30_encoding.md R71, R72, R74 to R77). -/

namespace Sys2Proof

/-! ## Decode and encode -/

theorem commandOf_opcode (i : Instr) : commandOf (opcode i) (shiftAmount i) = some i := by cases i <;> rfl

theorem isShiftOp_of_shiftAmount_ne_zero {i : Instr} (h : shiftAmount i ≠ 0#5) : isShiftOp (opcode i) = true := by
  cases i
  case shl sh => rfl
  case shr sh => rfl
  all_goals exact absurd rfl h

/-- The decoder accepts a word exactly where its checks pass (R75). -/
theorem decode_eq_ok_iff {w : Word} {i : Instr} : decode w = .ok i ↔
    commandOf (opField w) (shField w) = some i ∧ rsvField w = 0#19 ∧
      (shField w ≠ 0#5 → isShiftOp (opField w) = true) := by
  refine ⟨checks_of_decode, fun ⟨hcmd, hrsv, hsh⟩ => ?_⟩
  simpa [decode, hcmd, hrsv] using hsh

@[simp] theorem decode_encode (i : Instr) : decode (encode i) = .ok i := by
  refine decode_eq_ok_iff.mpr ⟨?_, rsvField_encode i, ?_⟩ <;> rw [opField_encode, shField_encode]
  · exact commandOf_opcode i
  · exact isShiftOp_of_shiftAmount_ne_zero

/-- Settles O2: each direction is one of the two round trips. -/
theorem decodeEncodeAgree : Obligations.DecodeEncodeAgree := fun _ i =>
  ⟨encode_of_decode, fun h => h ▸ decode_encode i⟩

/-- Settles O1: each word is the encoding of its command, by computation. -/
theorem opcodeTableWords : Obligations.OpcodeTableWords := by
  unfold Obligations.OpcodeTableWords
  decide

/-! ## Legality -/

theorem opcode_mem_assignedOpcodes (i : Instr) : (opcode i).toNat ∈ assignedOpcodes := by
  cases i <;> simp [opcode, assignedOpcodes]

/-- The opcode map names a command for the assigned opcodes and for no other (R75, condition 1). -/
theorem exists_commandOf_iff {op : BitVec 8} {sh : BitVec 5} :
    (∃ i, commandOf op sh = some i) ↔ op.toNat ∈ assignedOpcodes := by
  constructor
  · rintro ⟨i, hi⟩
    obtain ⟨hop, -⟩ := fields_of_commandOf hi
    exact hop ▸ opcode_mem_assignedOpcodes i
  · intro h
    have named : ∀ n ∈ assignedOpcodes, ∃ i, commandOf (BitVec.ofNat 8 n) sh = some i := by
      simp [assignedOpcodes, commandOf]
    simpa using named _ h

theorem isShiftOp_iff {op : BitVec 8} : isShiftOp op = true ↔ op.toNat = 0x07 ∨ op.toNat = 0x08 := by
  simp [isShiftOp, ← BitVec.toNat_inj]

/-- The three conditions of R75, on the number of the word. -/
theorem legal_iff {w : Word} : legal w = true ↔
    w.toNat % 256 ∈ assignedOpcodes ∧ w.toNat / 8192 = 0 ∧
      (w.toNat / 256 % 32 = 0 ∨ w.toNat % 256 = 0x07 ∨ w.toNat % 256 = 0x08) := by
  simp [legal, opAssigned, rsvZero, shAllowed, and_assoc, or_assoc]

/-- The legal words are those that decode to a command: the decoder's checks are the conditions of R75. -/
theorem exists_decode_iff_legal {w : Word} : (∃ i, decode w = .ok i) ↔ legal w = true := by
  have hrsv : rsvField w = 0#19 ↔ w.toNat / 8192 = 0 := by rw [← rsvField_toNat, ← BitVec.toNat_inj]; rfl
  have hsh : shField w = 0#5 ↔ w.toNat / 256 % 32 = 0 := by rw [← shField_toNat, ← BitVec.toNat_inj]; rfl
  simp only [decode_eq_ok_iff, exists_and_right, exists_commandOf_iff, isShiftOp_iff, opField_toNat, hrsv, hsh,
    legal_iff, ne_eq, or_iff_not_imp_left]

/-! ## Operands -/

theorem shiftAmount_of_decode {w : Word} {i : Instr} (h : decode w = .ok i) :
    (shiftAmount i).toNat = w.toNat / 256 % 32 := by
  rw [← shField_encode, encode_of_decode h, shField_toNat]

namespace Machine

theorem word_toInt (w : Word) :
    w.toInt = if w.toNat < 2 ^ 31 then (w.toNat : Int) else (w.toNat : Int) - 2 ^ 32 := by
  rw [BitVec.toInt_eq_toNat_cond]
  split <;> split <;> omega

theorem wordA_toNat (s : State) : (wordA s).toNat = s.opa.toNat % 2 ^ 32 := by
  simp [wordA, BitVec.extractLsb'_toNat]

theorem operandCode_toNat (s : State) : (operandCode s).toNat = s.opa.toNat % 4 := by
  simp [operandCode, BitVec.extractLsb'_toNat]

/-- Settles O6: the signed reading of the operand words, and the `SH` field of a decoded word. -/
theorem operandsFormedFromPorts : Obligations.OperandsFormedFromPorts := by
  refine ⟨fun s => ⟨?_, word_toInt s.opb, rfl, operandCode_toNat s⟩, fun w sh h => ?_⟩
  · rw [← wordA_toNat]
    exact word_toInt (wordA s)
  · rcases h with h | h <;> exact shiftAmount_of_decode h

/-! ## The answer to a word, by its legality -/

theorem perform_of_not_legal {s : State} (h : legal s.cmd = false) : perform s = .next (answerIllegal s) := by
  cases hd : decode s.cmd with
  | error e => simp [perform, hd]
  | ok i => simp [exists_decode_iff_legal.mp ⟨i, hd⟩] at h

/-- Settles O3: the words that decode are the legal ones, and `perform` answers the others. -/
theorem illegalWordAnswered : Obligations.IllegalWordAnswered := by
  intro s t rest hr hp op isLegal
  have hlegal : isLegal ↔ legal t.cmd = true := legal_iff.symm
  refine ⟨fun h => exists_decode_iff_legal.mpr (hlegal.mp h), fun h => ?_⟩
  have hcmd : legal (accept t rest s).cmd = false := by simpa [hlegal] using h
  exact (step_of_pending hr hp).trans (perform_of_not_legal hcmd)

/-- The step that accepts a transaction responds, with ILL = 1 exactly where the word is not legal. -/
theorem step_ill {s : State} {t : Transaction} {rest : List Transaction} (hr : s.resetLine = false)
    (hp : s.pending = t :: rest) : ∃ u v, step s = .next u ∧ u.response = some ⟨v, !legal t.cmd⟩ := by
  rw [step_of_pending hr hp]
  cases hl : legal t.cmd with
  | false => exact ⟨_, _, perform_of_not_legal hl, rfl⟩
  | true =>
    obtain ⟨i, hi⟩ := exists_decode_iff_legal.mpr hl
    obtain ⟨c, v, hx⟩ := exec_shape i (accept t rest s)
    exact ⟨_, v, (perform_of_decode hi).trans hx, rfl⟩

/-- Settles O4: `step_ill` gives ILL as a function of the command word. -/
theorem legalityDependsOnCommandWordAlone : Obligations.LegalityDependsOnCommandWordAlone := by
  intro s s' t t' rest rest' hr hr' hp hp' hcmd
  obtain ⟨u, v, hu, hresp⟩ := step_ill hr hp
  obtain ⟨u', v', hu', hresp'⟩ := step_ill hr' hp'
  exact ⟨u, u', _, _, hu, hu', hresp, hresp', by rw [hcmd]⟩

end Machine
end Sys2Proof
end

section
/-! PROOF. Which operand bits a command reads, and the width of its result (spec/30_encoding.md R72, R73, R76). -/

namespace Sys2Proof.Machine

theorem toNat_setWidth_lt {n : Nat} (x : BitVec n) (hn : n ≤ 32) : (x.setWidth 64).toNat < 2 ^ 32 := by
  rw [BitVec.toNat_setWidth_of_le (by omega)]
  exact x.isLt.trans_le (Nat.pow_le_pow_right (by decide) hn)

/-- Settles O21: ERRGET returns a code, ERRSET returns 0, and the others return a zero-extended word. -/
theorem resultsZeroExtended : Obligations.ResultsZeroExtended := by
  intro i s hi
  cases i
  case tofloat => exact absurd rfl hi
  case errget => exact ⟨s.err, _, rfl, toNat_setWidth_lt s.err (by decide)⟩
  case errset => exact ⟨operandCode s, 0#64, rfl, by decide⟩
  all_goals exact ⟨_, _, answer_eq_completed _ s, toNat_setWidth_lt _ (by decide)⟩

/-- Two states in which a command answers one result, with the same ERR before it, complete alike. -/
theorem completed_alike_of_answer {i : Instr} {s t : State} {r : Fixed} (hs : exec i s = answer r s)
    (ht : exec i t = answer r t) (herr : t.err = s.err) :
    ∃ e v, exec i s = completed s e v ∧ exec i t = completed t e v :=
  ⟨_, _, hs.trans (answer_eq_completed r s), herr ▸ ht.trans (answer_eq_completed r t)⟩

/-- Settles O20: the used operand bits are the same, and a command reads the ports through those alone. -/
theorem unusedOperandsIgnored : Obligations.UnusedOperandsIgnored := by
  intro i s a b h
  let t : State := { s with opa := a, opb := b }
  change ∃ e r, exec i s = completed s e r ∧ exec i t = completed t e r
  cases i
  case errget => exact ⟨_, _, rfl, rfl⟩
  case errset =>
    have hcode : operandCode t = operandCode s := h
    exact ⟨_, _, rfl, by rw [← hcode]; rfl⟩
  case fromfloat =>
    have hfin : operandFin t = operandFin s := congrArg b64OfBits h
    exact completed_alike_of_answer rfl (by rw [← hfin]; rfl) rfl
  case tofloat =>
    have hA : operandA t = operandA s := congrArg BitVec.toInt h
    exact ⟨_, _, rfl, by rw [← hA]; rfl⟩
  case fromint | toint | shl | shr =>
    have hA : wordA t = wordA s := h
    exact completed_alike_of_answer rfl (by rw [← hA]; rfl) rfl
  case cos | sin | tan | acos | asin | atan | sqrt =>
    have hA : operandA t = operandA s := congrArg BitVec.toInt h
    exact completed_alike_of_answer rfl (by rw [← hA]; rfl) rfl
  case add | sub =>
    obtain ⟨hA, hB⟩ : wordA t = wordA s ∧ wordB t = wordB s := h
    exact completed_alike_of_answer rfl (by rw [← hA, ← hB]; rfl) rfl
  case mul | div | atan2 | hypot =>
    obtain ⟨hA, hB⟩ : operandA t = operandA s ∧ operandB t = operandB s :=
      h.imp (congrArg BitVec.toInt) (congrArg BitVec.toInt)
    exact completed_alike_of_answer rfl (by rw [← hA, ← hB]; rfl) rfl

end Sys2Proof.Machine
end

section
/-! PROOF. The transaction of an assembled line: its command word, and its operands on the ports (spec/30_encoding.md R78,
R79). -/

namespace Sys2Proof.Machine

section
variable {results : List DWord} {i : Instr} {a b : AsmOperand} {opa : DWord} {opb : Word}

theorem asmPorts_nil (h : asmPorts results i [] = some (opa, opb)) : opa = 0#64 ∧ opb = 0#32 := by
  cases i
  case errget => cases h; exact ⟨rfl, rfl⟩
  all_goals cases h

theorem asmPorts_fromfloat (h : asmPorts results .fromfloat [a] = some (opa, opb)) :
    floatOperand results a = some opa ∧ opb = 0#32 := by
  obtain ⟨d, hd, hports⟩ := Option.map_eq_some_iff.mp h
  cases hports
  exact ⟨hd, rfl⟩

theorem asmPorts_single (hi : i ≠ .fromfloat) (h : asmPorts results i [a] = some (opa, opb)) :
    (∃ x, wordOperand results a = some x ∧ opa = x.setWidth 64) ∧ opb = 0#32 := by
  have hports : (wordOperand results a).map (fun w => (w.setWidth 64, 0#32)) = some (opa, opb) := by
    cases i
    case fromfloat => exact absurd rfl hi
    case errget | add | sub | mul | div | atan2 | hypot => cases h
    all_goals exact h
  obtain ⟨x, hx, hxy⟩ := Option.map_eq_some_iff.mp hports
  cases hxy
  exact ⟨⟨x, hx, rfl⟩, rfl⟩

theorem asmPorts_pair (h : asmPorts results i [a, b] = some (opa, opb)) :
    i ≠ .fromfloat ∧ (∃ x, wordOperand results a = some x ∧ opa = x.setWidth 64) ∧
      wordOperand results b = some opb := by
  cases i
  case add | sub | mul | div | atan2 | hypot =>
    simp only [asmPorts] at h
    split at h
    · next x y hx hy =>
      cases h
      exact ⟨nofun, ⟨x, hx, rfl⟩, hy⟩
    · cases h
  all_goals cases h

theorem asmPorts_three (c : AsmOperand) (rest : List AsmOperand) :
    asmPorts results i (a :: b :: c :: rest) = none := by
  cases i <;> rfl

end

/-- Settles O59, by the number of operands. -/
theorem assembledCommandDecodes : Obligations.AssembledCommandDecodes := by
  intro results i operands t h
  obtain ⟨⟨opa, opb⟩, hports, rfl⟩ := Option.map_eq_some_iff.mp h
  refine ⟨decode_encode i, ?_⟩
  match operands with
  | [] =>
    obtain ⟨rfl, rfl⟩ := asmPorts_nil hports
    simp
  | [a] =>
    by_cases hi : i = .fromfloat
    · subst hi
      obtain ⟨ha, rfl⟩ := asmPorts_fromfloat hports
      simp [ha]
    · obtain ⟨ha, rfl⟩ := asmPorts_single hi hports
      simp [hi, ha]
  | [a, b] =>
    obtain ⟨hi, ha, hb⟩ := asmPorts_pair hports
    refine ⟨by simp, by simp, by simp [hi], by simp [ha], ?_⟩
    rintro _ _ _ ⟨⟩
    exact hb
  | a :: b :: c :: rest => cases (asmPorts_three c rest).symm.trans hports

/-- Settles O60: each expansion assembles to its transaction by computation. -/
theorem pseudoInstructionsExpand : Obligations.PseudoInstructionsExpand :=
  ⟨rfl, fun _ _ _ _ => ⟨rfl, rfl, rfl, rfl, rfl, rfl, rfl, rfl, rfl, rfl⟩⟩

end Sys2Proof.Machine
end

section
/-! PROOF. The commands on words: integer conversions, saturating add and subtract, shifts (spec/40_fixed_point_core.md
R103, R104, R107 to R111). -/

namespace Sys2Proof.Machine

/-! ## What an answered result completes -/

theorem answer_plain (v : Word) (s : State) : answer (.plain v) s = completed s s.err (v.setWidth 64) := rfl

theorem answer_ofInt (v : Int) (s : State) : answer (.plain (BitVec.ofInt 32 v)) s = completedInt s s.err v := rfl

theorem answer_satPos (s : State) : answer (.range satPos) s = completed s 1#2 0x7FFFFFFF#64 := rfl

theorem answer_satNeg (s : State) : answer (.range satNeg) s = completed s 1#2 0x80000001#64 := rfl

/-! ## Operands presented by the host -/

/-- A 32-bit result, zero-extended and passed back as operand A, is read as it was. -/
@[simp] theorem wordA_setWidth (s : State) (w : Word) : wordA { s with opa := w.setWidth 64 } = w := by
  apply BitVec.eq_of_toNat_eq
  rw [wordA_toNat, BitVec.toNat_setWidth_of_le (by omega), Nat.mod_eq_of_lt w.isLt]

theorem operandA_ofInt (s : State) {v : Int} (h : -2 ^ 31 ≤ v ∧ v < 2 ^ 31) :
    operandA { s with opa := (BitVec.ofInt 32 v).setWidth 64 } = v := by
  rw [operandA, wordA_setWidth, BitVec.toInt_ofInt, bmod_two_pow_32 v (by omega), if_neg (by omega), if_neg (by omega)]

theorem operandA_bounds (s : State) : -2 ^ 31 ≤ operandA s ∧ operandA s < 2 ^ 31 := toInt_bounds (wordA s)

/-! ## Word operations on signed operands -/

theorem ofInt_operandA (s : State) : BitVec.ofInt 32 (operandA s) = wordA s := BitVec.ofInt_toInt

theorem ofInt_operandB (s : State) : BitVec.ofInt 32 (operandB s) = wordB s := BitVec.ofInt_toInt

theorem shiftLeft_eq_ofInt (s : State) (n : Nat) : wordA s <<< n = BitVec.ofInt 32 (operandA s * 2 ^ n) := by
  rw [BitVec.shiftLeft_eq_mul_twoPow, BitVec.ofInt_mul, ofInt_operandA]
  congr 1
  apply BitVec.eq_of_toNat_eq
  rw [BitVec.toNat_twoPow, BitVec.toNat_ofInt]
  norm_cast

theorem sshiftRight_eq_ofInt (s : State) (n : Nat) :
    (wordA s).sshiftRight n = BitVec.ofInt 32 (operandA s / 2 ^ n) := by
  rw [← BitVec.ofInt_toInt (x := (wordA s).sshiftRight n), BitVec.toInt_sshiftRight, Int.shiftRight_eq_div_pow]
  norm_cast

theorem add_eq_ofInt (s : State) : wordA s + wordB s = BitVec.ofInt 32 (operandA s + operandB s) := by
  rw [BitVec.ofInt_add, ofInt_operandA, ofInt_operandB]

theorem sub_eq_ofInt (s : State) : wordA s - wordB s = BitVec.ofInt 32 (operandA s - operandB s) := by
  apply BitVec.eq_of_toInt_eq
  rw [BitVec.toInt_sub, BitVec.toInt_ofInt, operandA, operandB]

/-! ## Integer conversions -/

theorem exec_fromint (s : State) : exec .fromint s = completedInt s s.err (operandA s * 2 ^ 16) := by
  rw [← answer_ofInt, ← shiftLeft_eq_ofInt]
  rfl

/-- Settles O25: the shift multiplies, and what it shifts out is the operand's upper half. -/
theorem fromintShiftsAndWraps : Obligations.FromintShiftsAndWraps := by
  refine ⟨by decide, fun s => ⟨exec_fromint s, ?_⟩⟩
  have hconcat : wordA s <<< 16 = s.opa.extractLsb' 0 16 ++ 0#16 := by
    apply BitVec.eq_of_toNat_eq
    simp only [BitVec.toNat_shiftLeft, wordA_toNat, BitVec.toNat_append, BitVec.extractLsb'_toNat, BitVec.toNat_ofNat,
      Nat.shiftLeft_eq, Nat.shiftRight_zero, Nat.zero_mod, Nat.or_zero]
    omega
  rw [← answer_plain, ← hconcat]
  rfl

/-- Bit 15 of operand A, the bit that TOINT adds to the shifted word. -/
theorem bit15_toNat (s : State) : (s.opa.getLsbD 15).toNat = (wordA s).toNat / 2 ^ 15 % 2 := by
  rw [← BitVec.testBit_toNat, Nat.toNat_testBit, wordA_toNat]
  omega

theorem bit15_eq (s : State) : (if s.opa.getLsbD 15 then 1 else 0 : Int) = operandA s / 2 ^ 15 % 2 := by
  have hbit : (if s.opa.getLsbD 15 then 1 else 0 : Int) = ((s.opa.getLsbD 15).toNat : Int) := by
    cases s.opa.getLsbD 15 <;> rfl
  rw [hbit, bit15_toNat, operandA, word_toInt]
  split <;> omega

theorem extract_bit15 (s : State) :
    ((wordA s).extractLsb' 15 1).setWidth 32 = BitVec.ofInt 32 (if s.opa.getLsbD 15 then 1 else 0) := by
  have hbit : ((wordA s).extractLsb' 15 1).setWidth 32 = BitVec.ofNat 32 (s.opa.getLsbD 15).toNat := by
    apply BitVec.eq_of_toNat_eq
    simp only [BitVec.toNat_setWidth, BitVec.extractLsb'_toNat, BitVec.toNat_ofNat, Nat.shiftRight_eq_div_pow,
      bit15_toNat, pow_one]
  rw [hbit]
  cases s.opa.getLsbD 15 <;> rfl

theorem toint_eq_floor (s : State) : operandA s / 2 ^ 16 + (if s.opa.getLsbD 15 then 1 else 0) =
    ⌊(operandA s : ℚ) / 2 ^ 16 + 1 / 2⌋ := by
  have hfloor : ⌊(operandA s : ℚ) / 2 ^ 16 + 1 / 2⌋ = (operandA s + 2 ^ 15) / 2 ^ 16 := by
    have h := Rat.floor_intCast_div_natCast (operandA s + 2 ^ 15) (2 ^ 16)
    push_cast at h ⊢
    rw [← h]
    congr 1
    ring
  rw [hfloor, bit15_eq]
  omega

theorem exec_toint (s : State) : exec .toint s = completedInt s s.err ⌊(operandA s : ℚ) / 2 ^ 16 + 1 / 2⌋ := by
  rw [← toint_eq_floor, ← answer_ofInt, BitVec.ofInt_add, ← extract_bit15, ← sshiftRight_eq_ofInt]
  rfl

/-- Settles O26: adding the dropped half bit rounds to nearest, and the quotient is far inside the word's range. -/
theorem tointRoundsHalvesUp : Obligations.TointRoundsHalvesUp := by
  refine ⟨by decide, fun s => ⟨?_, toint_eq_floor s, ?_⟩⟩
  · rw [toint_eq_floor]
    exact exec_toint s
  · have h := operandA_bounds s
    rw [bit15_eq]
    omega

/-- Settles O34: the product by `2^16` fits in a word, so TOINT reads it back and rounds an integer. -/
theorem integerRoundTrip : Obligations.IntegerRoundTrip := by
  intro s hlo hhi
  refine ⟨_, _, exec_fromint s, rfl, ?_⟩
  rw [exec_toint, operandA_ofInt _ (by omega)]
  congr 1
  rw [Int.floor_eq_iff]
  push_cast
  constructor <;> linarith

/-! ## Add and subtract -/

theorem addResult_eq (a b : Word) : addResult a b =
    if a.toInt + b.toInt < -2 ^ 31 then .range satNeg
    else if 2 ^ 31 ≤ a.toInt + b.toInt then .range satPos
    else .plain (a + b) :=
  if_congr (addOverflowsDown_iff a b) rfl (if_congr (addOverflowsUp_iff a b) rfl rfl)

theorem subResult_eq (a b : Word) : subResult a b =
    if a.toInt - b.toInt < -2 ^ 31 then .range satNeg
    else if 2 ^ 31 ≤ a.toInt - b.toInt ∧ a.toInt ≠ 0 then .range satPos
    else .plain (a - b) :=
  if_congr (subOverflowsDown_iff a b) rfl (if_congr (subOverflowsUp_iff a b) rfl rfl)

theorem exec_add (s : State) : exec .add s =
    if operandA s + operandB s < -2 ^ 31 then completed s 1#2 0x80000001#64
    else if 2 ^ 31 ≤ operandA s + operandB s then completed s 1#2 0x7FFFFFFF#64
    else completedInt s s.err (operandA s + operandB s) := by
  change answer (addResult (wordA s) (wordB s)) s = _
  rw [addResult_eq, add_eq_ofInt, apply_ite (answer · s), apply_ite (answer · s)]
  rfl

theorem exec_sub (s : State) : exec .sub s =
    if operandA s - operandB s < -2 ^ 31 then completed s 1#2 0x80000001#64
    else if 2 ^ 31 ≤ operandA s - operandB s ∧ operandA s ≠ 0 then completed s 1#2 0x7FFFFFFF#64
    else completedInt s s.err (operandA s - operandB s) := by
  change answer (subResult (wordA s) (wordB s)) s = _
  rw [subResult_eq, sub_eq_ofInt, apply_ite (answer · s), apply_ite (answer · s)]
  rfl

/-- Settles O30: `exec_add` gives the results, and the sign tests are those of `addResult`. -/
theorem addSaturates : Obligations.AddSaturates := by
  refine ⟨by decide, fun s => ?_⟩
  have hdown := addOverflowsDown_iff (wordA s) (wordB s)
  have hup := addOverflowsUp_iff (wordA s) (wordB s)
  rw [add_eq_ofInt] at hdown hup
  simp only [addOverflowsDown, addOverflowsUp, Bool.and_eq_true, decide_eq_true_eq, and_assoc] at hdown hup
  refine ⟨fun h => ?_, fun h => ?_, fun h => ?_, hdown, hup⟩ <;> rw [exec_add]
  · rw [if_neg (by omega), if_neg (by omega)]
  · rw [if_neg (by omega), if_pos h]
  · rw [if_pos h]

/-- Settles O31: as for ADD, but `0 - 0x80000000` fires neither sign test and wraps. -/
theorem subSaturates : Obligations.SubSaturates := by
  refine ⟨by decide, fun s => ?_⟩
  have hdown := subOverflowsDown_iff (wordA s) (wordB s)
  have hup := subOverflowsUp_iff (wordA s) (wordB s)
  rw [sub_eq_ofInt] at hdown hup
  simp only [subOverflowsDown, subOverflowsUp, Bool.and_eq_true, decide_eq_true_eq, and_assoc] at hdown hup
  refine ⟨fun h => ?_, fun h => ?_, fun h => ?_, fun h => ?_, hdown, hup⟩ <;> rw [exec_sub]
  · rw [if_neg (by omega), if_neg (by omega)]
  · rw [if_neg (by omega), if_pos h]
  · have hB : -2 ^ 31 ≤ operandB s := (toInt_bounds (wordB s)).1
    rw [if_neg (by omega), if_neg (by omega), show operandA s - operandB s = 2 ^ 31 by omega]
    rfl
  · rw [if_pos h]

/-! ## Shifts -/

/-- Settles O32: the word for each of the 32 amounts, and the wrapped product. -/
theorem shlWraps : Obligations.ShlWraps := by
  refine fun sh => ⟨by revert sh; decide, fun s => ?_⟩
  rw [← answer_ofInt, ← shiftLeft_eq_ofInt]
  rfl

/-- Settles O33: the word for each of the 32 amounts, and the quotient rounded down. -/
theorem shrFloors : Obligations.ShrFloors := by
  refine fun sh => ⟨by revert sh; decide, fun s => ?_⟩
  have hfloor := Rat.floor_intCast_div_natCast (operandA s) (2 ^ sh.toNat)
  push_cast at hfloor
  rw [hfloor, ← answer_ofInt, ← sshiftRight_eq_ofInt]
  rfl

end Sys2Proof.Machine
end

section
/-! PROOF. Conversion from binary64: saturation, and the one rounding that departs from half away from zero
(spec/40_fixed_point_core.md R100, R102, R105). -/

namespace Sys2Proof.Machine

/-! ## Representable numbers -/

theorem two_zpow_eq_mul (b : Int) (n : Nat) : (2 : ℚ) ^ b = 2 ^ n * 2 ^ (b - n) := by
  rw [← zpow_natCast, ← zpow_add₀ (by norm_num)]
  congr 1
  ring

/-- A representable number is a multiple of the last place of each binade that starts at or below it. -/
theorem Representable.multiple {r : ℚ} (hr : Representable r) (b : Int) (h : (2 : ℚ) ^ b ≤ r) :
    ∃ n : Int, r = n * 2 ^ (b - 52) := by
  obtain ⟨n, f, hn, hf, rfl | rfl⟩ := hr
  · rcases le_or_gt (b - 52) f with hle | hlt
    · obtain ⟨j, hj⟩ := Int.eq_ofNat_of_zero_le (sub_nonneg.mpr hle)
      refine ⟨n * 2 ^ j, ?_⟩
      rw [show f = j + (b - 52) by omega, zpow_add₀ (by norm_num), zpow_natCast]
      push_cast
      ring
    · have hle : (n : ℚ) * 2 ^ f ≤ 2 ^ 53 * 2 ^ (b - 53) :=
        mul_le_mul (by exact_mod_cast hn) (two_zpow_le (by omega)) (two_zpow_pos f).le (by norm_num)
      have heq : (n : ℚ) * 2 ^ f = 2 ^ b := le_antisymm (hle.trans_eq (two_zpow_eq_mul b 53).symm) h
      exact ⟨2 ^ 52, by rw [heq]; exact_mod_cast two_zpow_eq_mul b 52⟩
  · have hpos := two_zpow_pos b
    have hnonneg := @nonneg_of_representable n f
    linarith

/-- A multiple of the last place of a binade, up to the binade's end, is representable. -/
theorem representable_of_multiple {n b : Int} (hb : -1022 ≤ b) (h0 : (0 : ℚ) ≤ n * 2 ^ (b - 52))
    (hle : (n : ℚ) * 2 ^ (b - 52) ≤ 2 ^ (b + 1)) : Representable (n * 2 ^ (b - 52)) := by
  have hpos := two_zpow_pos (b - 52)
  have hend : (2 : ℚ) ^ (b + 1) = 2 ^ 53 * 2 ^ (b - 52) := by
    rw [two_zpow_eq_mul (b + 1) 53]
    congr 2
    push_cast
    ring
  rw [hend, mul_le_mul_iff_left₀ hpos] at hle
  have hn0 : 0 ≤ n := by exact_mod_cast nonneg_of_mul_nonneg_left h0 hpos
  have hn : n ≤ 2 ^ 53 := by exact_mod_cast hle
  exact representable_mul_two_zpow n _ (by omega) (by omega)

/-- A canonical form is determined by its value. -/
theorem Canonical.eq_of_value_eq {m n : Nat} {e f : Int} (hm : Canonical m e) (hn : Canonical n f)
    (h : (m : ℚ) * 2 ^ e = n * 2 ^ f) : m = n ∧ e = f := by
  wlog hle : e ≤ f generalizing m n e f
  · have := this hn hm h.symm (by omega)
    omega
  obtain ⟨hm53, he, -, -⟩ := hm
  obtain ⟨-, -, -, hnormal⟩ := hn
  obtain ⟨j, hj⟩ := Int.eq_ofNat_of_zero_le (sub_nonneg.mpr hle)
  have hmn : m = n * 2 ^ j := by
    rw [show f = j + e by omega, zpow_add₀ (by norm_num), zpow_natCast, ← mul_assoc,
      mul_left_inj' (two_zpow_pos e).ne'] at h
    exact_mod_cast h
  cases j with
  | zero => exact ⟨by simpa using hmn, by omega⟩
  | succ j =>
    have hlarge : 2 ^ 52 * 2 ≤ n * 2 ^ (j + 1) :=
      Nat.mul_le_mul (hnormal.resolve_right (by omega)) (Nat.le_self_pow (by omega) 2)
    omega

/-! ## Adding a half and rounding -/

theorem IsRounding.neg {r : ℚ} {x : B64} (h : IsRounding r x) : IsRounding (-r) (b64Neg x) := by
  obtain ⟨⟨s, m, e, rfl, hcan⟩, hle, hge, herr⟩ := h
  refine ⟨⟨!s, m, e, rfl, hcan⟩, ?_, ?_, ?_⟩ <;> rw [b64Value_b64Neg]
  · intro y hy hr
    exact neg_le.mp (hge _ hy.neg (neg_le.mp hr))
  · intro y hy hr
    exact le_neg.mp (hle _ hy.neg (le_neg.mp hr))
  · intro k hk hr
    rw [abs_neg] at hr
    rw [← neg_sub', abs_neg]
    exact herr k hk hr

/-- Below one half, the largest representable number but one is `1/2 - 2^-53`. -/
theorem Representable.le_of_lt_half {r : ℚ} (hr : Representable r) (h : r < 1 / 2) (hne : r ≠ 1 / 2 - 1 / 2 ^ 54) :
    r ≤ 1 / 2 - 1 / 2 ^ 53 := by
  rcases lt_or_ge r (1 / 4) with hsmall | hlarge
  · exact hsmall.le.trans (by norm_num)
  · obtain ⟨n, rfl⟩ := hr.multiple (-2) (by norm_num; linarith)
    norm_num at h hne ⊢
    have hlt : n < 2 ^ 53 := by
      have : (n : ℚ) < 2 ^ 53 := by linarith
      exact_mod_cast this
    have hneq : n ≠ 2 ^ 53 - 1 := by
      rintro rfl
      norm_num at hne
    have hle : (n : ℚ) ≤ 2 ^ 53 - 2 := by exact_mod_cast (by omega : n ≤ 2 ^ 53 - 2)
    linarith

/-- From one on, adding a half to a representable number that lies at or above the nearest integer is exact. -/
theorem Representable.add_half {r : ℚ} (hr : Representable r) {k : Nat} (hk : 1 ≤ k) (hkr : k ≤ r)
    (hrk : r + 1 / 2 < k + 1) (hlim : r < 2 ^ 31) : Representable (r + 1 / 2) := by
  have hstart : ((2 ^ Nat.log 2 k : ℕ) : ℚ) ≤ k := by exact_mod_cast Nat.pow_log_le_self 2 (by omega)
  have hend : (k : ℚ) + 1 ≤ ((2 ^ (Nat.log 2 k + 1) : ℕ) : ℚ) := by
    exact_mod_cast Nat.lt_pow_succ_log_self (by norm_num) k
  have hlog : Nat.log 2 k < 31 := by
    have hk31 : k < 2 ^ 31 := by exact_mod_cast hkr.trans_lt hlim
    exact Nat.log_lt_of_lt_pow (by omega) hk31
  generalize Nat.log 2 k = b at hstart hend hlog
  obtain ⟨i, hi⟩ := Nat.exists_eq_add_of_lt (hlog.trans (by norm_num : 31 < 52))
  obtain ⟨n, hn⟩ := hr.multiple b (by rw [zpow_natCast]; push_cast at hstart; linarith)
  have hhalf : (1 / 2 : ℚ) = 2 ^ i * 2 ^ ((b : ℤ) - 52) := by
    rw [show ((b : ℤ) - 52) = -1 - i by omega, ← two_zpow_eq_mul]
    norm_num
  have hsum : r + 1 / 2 = ((n + 2 ^ i : Int) : ℚ) * 2 ^ ((b : ℤ) - 52) := by
    rw [hn, hhalf]
    push_cast
    ring
  have hnonneg : (0 : ℚ) ≤ r + 1 / 2 := by
    have : (0 : ℚ) ≤ k := by positivity
    linarith
  have hle : r + 1 / 2 ≤ 2 ^ ((b : ℤ) + 1) := hrk.le.trans (by exact_mod_cast hend)
  rw [hsum] at hnonneg hle ⊢
  exact representable_of_multiple (by omega) hnonneg hle

/-- From the sum of a number and a half up to the next integer above it there is a representable number, which rounding
does not pass, but for the number `1/2 - 2^-54`. -/
theorem exists_representable_below_next {r : ℚ} (hr : Representable r) (h0 : 0 ≤ r) (hlim : r < 2 ^ 31)
    (hne : r ≠ 1 / 2 - 1 / 2 ^ 54) : ∃ y, Representable y ∧ r + 1 / 2 ≤ y ∧ y < ⌊r + 1 / 2⌋ + 1 := by
  obtain ⟨k, hk⟩ := Int.eq_ofNat_of_zero_le (Int.floor_nonneg.mpr (by linarith : 0 ≤ r + 1 / 2))
  obtain ⟨hkr, hrk⟩ := Int.floor_eq_iff.mp hk
  rw [Int.cast_natCast] at hkr hrk
  rw [hk, Int.cast_natCast]
  rcases Nat.eq_zero_or_pos k with rfl | hpos
  · have hrep : Representable (1 - 1 / 2 ^ 53) := by
      have := representable_mul_two_zpow (2 ^ 53 - 1) (-53) (by norm_num) (by norm_num)
      norm_num at this ⊢
      exact this
    have hle := hr.le_of_lt_half (by push_cast at hrk; linarith) hne
    exact ⟨_, hrep, by linarith, by norm_num⟩
  · rcases lt_or_ge r k with hlt | hge
    · have hk53 : 2 * k + 1 ≤ 2 ^ 53 := by exact_mod_cast (by linarith : 2 * (k : ℚ) + 1 ≤ 2 ^ 53)
      have hrep : Representable (k + 1 / 2) := by
        have := representable_mul_two_zpow (2 * k + 1) (-1) (by omega) (by norm_num)
        convert this using 1
        push_cast
        ring
      exact ⟨_, hrep, by linarith, by linarith⟩
    · exact ⟨_, hr.add_half hpos hge hrk hlim, le_rfl, hrk⟩

theorem floor_rounding_half {r : ℚ} {u : B64} (hr : Representable r) (h0 : 0 ≤ r) (hlim : r < 2 ^ 31)
    (hne : r ≠ 1 / 2 - 1 / 2 ^ 54) (hu : IsRounding (r + 1 / 2) u) : ⌊b64Value u⌋ = ⌊r + 1 / 2⌋ := by
  obtain ⟨y, hy, hle, hlt⟩ := exists_representable_below_next hr h0 hlim hne
  have hfloor0 : 0 ≤ ⌊r + 1 / 2⌋ := Int.floor_nonneg.mpr (by linarith)
  have hfloor : ⌊r + 1 / 2⌋ < 2 ^ 32 := Int.floor_lt.mpr (by push_cast; linarith)
  rw [Int.floor_eq_iff]
  exact ⟨hu.ge_of_ge _ (representable_int _ (by omega)) (Int.floor_le _), (hu.le_of_le y hy hle).trans_lt hlt⟩

/-! ## Conversion to fixed point -/

/-- A finite value within the conversion limit, scaled. -/
theorem IsFinite.scaled {x : B64} (hx : IsFinite x) (h : |b64Value x| ≤ 32767) :
    Representable (65536 * b64Value x) ∧ |65536 * b64Value x| < 2 ^ 31 := by
  obtain ⟨hf, hv⟩ := mul_scaleFactor hx h
  rw [mul_comm, ← hv]
  refine ⟨hf.representable, ?_⟩
  rw [hv, abs_mul]
  norm_num
  linarith

theorem rha_of_nonneg {r : ℚ} (h : 0 ≤ r) : rha r = ⌊r + 1 / 2⌋ := if_neg h.not_gt

theorem rha_of_neg {r : ℚ} (h : r < 0) : rha r = -⌊-r + 1 / 2⌋ := if_pos h

/-- `FromFloatCore` within the limits rounds half away from zero, but for the two values of R102's exception. -/
theorem fromFloatCore_eq_rha {x : B64} (hx : IsFinite x) (h : |b64Value x| ≤ 32767)
    (hne : |65536 * b64Value x| ≠ 1 / 2 - 1 / 2 ^ 54) :
    fromFloatCore x = .plain (BitVec.ofInt 32 (rha (65536 * b64Value x))) := by
  obtain ⟨hrep, hlim⟩ := hx.scaled h
  obtain ⟨hlo, hhi⟩ := abs_le.mp h
  rcases le_or_gt 0 (b64Value x) with h0 | h0
  · obtain ⟨u, hu, -, heq⟩ := fromFloatCore_nonneg hx h0 hhi
    have hr0 : 0 ≤ 65536 * b64Value x := by linarith
    rw [abs_of_nonneg hr0] at hlim hne
    rw [mul_comm (b64Value x)] at hu
    rw [heq, floor_rounding_half hrep hr0 hlim hne hu, rha_of_nonneg hr0]
  · obtain ⟨u, hu, -, heq⟩ := fromFloatCore_neg hx h0 hlo
    have hr0 : 65536 * b64Value x < 0 := by linarith
    rw [abs_of_neg hr0] at hlim hne
    have hu' : IsRounding (-(65536 * b64Value x) + 1 / 2) (b64Neg u) := by
      convert hu.neg using 1
      ring
    rw [heq, ← b64Value_b64Neg, floor_rounding_half hrep.neg (by linarith) hlim hne hu', rha_of_neg hr0]

/-- Equal signed magnitudes, not zero, have one sign and one magnitude. -/
theorem eq_of_signed_eq {s t : Bool} {a b : ℚ} (ha : 0 ≤ a) (hb : 0 < b)
    (h : (if s then -1 else 1) * a = (if t then -1 else 1) * b) : s = t ∧ a = b := by
  cases s <;> cases t <;> norm_num at h ⊢
  · exact h
  · linarith
  · linarith
  · exact h

/-- The value of R102's exception has one canonical form on each side of zero. -/
theorem IsFinite.eq_of_exception {x : B64} (hx : IsFinite x) (neg : Bool)
    (h : 65536 * b64Value x = (if neg then -1 else 1) * (1 / 2 - 1 / 2 ^ 54)) : x = .fin neg (2 ^ 53 - 1) (-70) := by
  obtain ⟨s, m, e, rfl, hcan⟩ := hx
  rw [b64Value_fin, mul_left_comm] at h
  obtain ⟨rfl, hmag⟩ := eq_of_signed_eq (mul_nonneg (by norm_num) nonneg_of_representable) (by norm_num) h
  have hval : (m : ℚ) * 2 ^ e = ((2 ^ 53 - 1 : ℕ) : ℚ) * 2 ^ (-70 : ℤ) := by
    norm_num at hmag ⊢
    linarith
  obtain ⟨rfl, rfl⟩ := hcan.eq_of_value_eq (by unfold Canonical; norm_num) hval
  rfl

/-- There the sum with a half is a tie, and rounds to one: R102's exception. -/
theorem fromFloatCore_exception (neg : Bool) :
    fromFloatCore (.fin neg (2 ^ 53 - 1) (-70)) = .plain (BitVec.ofInt 32 (if neg then -1 else 1)) := by
  revert neg
  decide +kernel

theorem rha_eq_zero {r : ℚ} (h : |r| < 1 / 2) : rha r = 0 := by
  obtain ⟨hlo, hhi⟩ := abs_lt.mp h
  rcases le_or_gt 0 r with h0 | h0
  · rw [rha_of_nonneg h0, Int.floor_eq_zero_iff]
    constructor <;> linarith
  · rw [rha_of_neg h0, neg_eq_zero, Int.floor_eq_zero_iff]
    constructor <;> linarith

/-! ## FROMFLOAT -/

theorem operandFin_isFinite_of_value_ne_zero {s : State} (h : b64Value (operandFin s) ≠ 0) : IsFinite (operandFin s) := by
  rcases b64OfBits_cases s.opa with hnan | ⟨neg, hinf⟩ | hfin
  · exact absurd (by rw [operandFin, hnan]; rfl) h
  · exact absurd (by rw [operandFin, hinf]; rfl) h
  · exact hfin

theorem exec_fromfloat {s : State} {r : Fixed} (h : fromFloatCore (operandFin s) = r) : exec .fromfloat s = answer r s := by
  rw [← h]
  rfl

/-- Settles O27: NaN and infinities are the first cases of `FromFloatCore`, and a value past a limit is finite. -/
theorem fromfloatSaturates : Obligations.FromfloatSaturates := by
  refine ⟨by decide, fun s => ⟨fun hnan => ?_, fun h => ?_, fun h => ?_⟩⟩
  · exact exec_fromfloat (by rw [hnan, fromFloatCore_nan])
  · refine (exec_fromfloat ?_).trans (answer_satPos s)
    rcases h with hinf | hval
    · rw [hinf]; rfl
    · exact fromFloatCore_above (operandFin_isFinite_of_value_ne_zero (by linarith)) hval
  · refine (exec_fromfloat ?_).trans (answer_satNeg s)
    rcases h with hinf | hval
    · rw [hinf]; rfl
    · exact fromFloatCore_below (operandFin_isFinite_of_value_ne_zero (by linarith)) hval

/-- Settles O28: a word encodes a finite value in canonical form, which `fromFloatCore_eq_rha` and
`fromFloatCore_exception` convert. -/
theorem fromfloatRoundsHalfAway : Obligations.FromfloatRoundsHalfAway := by
  intro s neg m e hfin hle r
  have hx : IsFinite (operandFin s) := by
    rcases b64OfBits_cases s.opa with h | ⟨_, h⟩ | h
    · exact absurd (hfin.symm.trans h) nofun
    · exact absurd (hfin.symm.trans h) nofun
    · exact h
  refine ⟨fun hne => ?_, fun hr => ⟨?_, ?_⟩, fun hr => ⟨?_, ?_⟩⟩
  · exact exec_fromfloat (fromFloatCore_eq_rha hx hle hne)
  · rw [← answer_ofInt]
    exact exec_fromfloat (by rw [hx.eq_of_exception false (by simpa using hr)]; exact fromFloatCore_exception false)
  · exact rha_eq_zero (by rw [hr]; norm_num [abs_lt])
  · rw [← answer_ofInt]
    exact exec_fromfloat (by rw [hx.eq_of_exception true (by simpa using hr)]; exact fromFloatCore_exception true)
  · exact rha_eq_zero (by rw [hr]; norm_num [abs_lt])

end Sys2Proof.Machine
end

section
/-! PROOF. Conversion to binary64 is exact, and FROMFLOAT reads it back (spec/40_fixed_point_core.md R101, R106, R111). -/

namespace Sys2Proof.Machine

/-! ## Decoding an encoded value -/

/-- The word put together from three fields decodes by those fields. -/
theorem fields_of_ofNat (neg : Bool) {x f : Nat} (hx : x < 2048) (hf : f < 2 ^ 52) :
    signOf (BitVec.ofNat 64 (signBits neg + x * 2 ^ 52 + f)) = neg ∧
      exponentOf (BitVec.ofNat 64 (signBits neg + x * 2 ^ 52 + f)) = x ∧
      fractionOf (BitVec.ofNat 64 (signBits neg + x * 2 ^ 52 + f)) = f := by
  have hsign : signBits neg = neg.toNat * 2 ^ 63 := by cases neg <;> rfl
  have hle := neg.toNat_le
  have hword : (BitVec.ofNat 64 (signBits neg + x * 2 ^ 52 + f)).toNat = neg.toNat * 2 ^ 63 + x * 2 ^ 52 + f := by
    rw [BitVec.toNat_ofNat, hsign, Nat.mod_eq_of_lt (by omega)]
  simp only [signOf, exponentOf, fractionOf, hword]
  refine ⟨?_, by omega, by omega⟩
  rw [show (neg.toNat * 2 ^ 63 + x * 2 ^ 52 + f) / 2 ^ 63 = neg.toNat by omega]
  cases neg <;> rfl

/-- Decoding undoes encoding, on canonical finite values. -/
theorem b64OfBits_b64ToBits {y : B64} (hy : IsFinite y) : b64OfBits (b64ToBits y) = y := by
  obtain ⟨neg, m, e, rfl, hm53, helo, hehi, hnormal⟩ := hy
  rcases lt_or_ge m (2 ^ 52) with hm | hm
  · obtain ⟨hs, hx, hf⟩ := fields_of_ofNat neg (by norm_num : 0 < 2048) hm
    rw [Nat.zero_mul, Nat.add_zero] at hs hx hf
    have he : e = -1074 := hnormal.resolve_left hm.not_ge
    rw [b64ToBits, if_pos hm, b64OfBits_subnormal _ hx, hs, hf, he]
  · obtain ⟨hs, hx, hf⟩ := fields_of_ofNat neg (by omega : (e + 1075).toNat < 2048) (by omega : m - 2 ^ 52 < 2 ^ 52)
    rw [b64ToBits, if_neg hm.not_gt, b64OfBits_normal _ (by omega) (by omega), hs, hx, hf,
      Nat.add_sub_cancel' hm, show ((e + 1075).toNat : Int) - 1075 = e by omega]

/-! ## TOFLOAT -/

theorem exec_tofloat (s : State) : exec .tofloat s = completed s s.err (b64ToBits (toFloatCore (operandA s))) := rfl

/-- Settles O29: the encoded value is the exact one of `toFloatCore_word`, and zero is encoded with a zero significand. -/
theorem tofloatExact : Obligations.TofloatExact := by
  refine ⟨by decide, fun s => ⟨_, exec_tofloat s, ?_⟩⟩
  obtain ⟨hfin, hval⟩ := toFloatCore_word (wordA s)
  rw [operandA, b64OfBits_b64ToBits hfin]
  refine ⟨?_, by rw [hval]; norm_num, fun h => by rw [h]; decide⟩
  obtain ⟨neg, m, e, h, -⟩ := hfin
  exact ⟨neg, m, e, h⟩

/-! ## The round trip -/

theorem rha_intCast (v : Int) : rha v = v := by
  rcases le_or_gt 0 v with h | h
  · rw [rha_of_nonneg (by exact_mod_cast h), Int.floor_intCast_add]
    norm_num
  · rw [rha_of_neg (by exact_mod_cast h), ← Int.cast_neg, Int.floor_intCast_add]
    norm_num

/-- An integer is not one of the values of R102's exception. -/
theorem abs_intCast_ne_exception (v : Int) : |(v : ℚ)| ≠ 1 / 2 - 1 / 2 ^ 54 := by
  intro h
  have hlo : (0 : ℚ) < (|v| : Int) := by rw [Int.cast_abs, h]; norm_num
  have hhi : ((|v| : Int) : ℚ) < 1 := by rw [Int.cast_abs, h]; norm_num
  have hlo' : 0 < |v| := by exact_mod_cast hlo
  have hhi' : |v| < 1 := by exact_mod_cast hhi
  omega

/-- The exact value of a word compares with the conversion limit as the word does with `0x7FFF0000`, and scaled by 65536
it is an integer, which needs no rounding. -/
theorem fromFloatCore_toFloatCore (w : Word) : fromFloatCore (toFloatCore w.toInt) =
    if 0x7FFF0000 < w.toInt then .range satPos else if w.toInt < -0x7FFF0000 then .range satNeg else .plain w := by
  obtain ⟨hfin, hval⟩ := toFloatCore_word w
  split_ifs with habove hbelow
  · have habove' : (0x7FFF0000 : ℚ) < w.toInt := by exact_mod_cast habove
    exact fromFloatCore_above hfin (by linarith)
  · have hbelow' : (w.toInt : ℚ) < -0x7FFF0000 := by exact_mod_cast hbelow
    exact fromFloatCore_below hfin (by linarith)
  · have habove' : (w.toInt : ℚ) ≤ 0x7FFF0000 := by exact_mod_cast not_lt.mp habove
    have hbelow' : (-0x7FFF0000 : ℚ) ≤ w.toInt := by exact_mod_cast not_lt.mp hbelow
    have hlimit : |b64Value (toFloatCore w.toInt)| ≤ 32767 := abs_le.mpr ⟨by linarith, by linarith⟩
    have hscaled : 65536 * b64Value (toFloatCore w.toInt) = w.toInt := by linarith
    have hne : |65536 * b64Value (toFloatCore w.toInt)| ≠ 1 / 2 - 1 / 2 ^ 54 := by
      rw [hscaled]
      exact abs_intCast_ne_exception _
    rw [fromFloatCore_eq_rha hfin hlimit hne, hscaled, rha_intCast, BitVec.ofInt_toInt]

/-- FROMFLOAT, given what TOFLOAT of `w` returned. -/
theorem exec_fromfloat_of_encoded {s : State} {w : Word} (h : s.opa = b64ToBits (toFloatCore w.toInt)) :
    exec .fromfloat s = answer (fromFloatCore (toFloatCore w.toInt)) s := by
  refine exec_fromfloat ?_
  rw [operandFin, h, b64OfBits_b64ToBits (toFloatCore_word w).1]

/-- Settles O35: FROMFLOAT reads the exact value, whose conversion `fromFloatCore_toFloatCore` gives. -/
theorem floatRoundTrip : Obligations.FloatRoundTrip := by
  intro s
  refine ⟨_, _, exec_tofloat s, rfl, fun h => ?_, fun h => ?_, fun h => ?_⟩ <;>
    rw [exec_fromfloat_of_encoded (w := wordA s) rfl, fromFloatCore_toFloatCore, ← operandA]
  · obtain ⟨hlo, hhi⟩ := abs_le.mp h
    rw [if_neg hhi.not_gt, if_neg hlo.not_gt, ← ofInt_operandA, answer_ofInt]
  · rw [if_pos h, answer_satPos]
  · rw [if_neg (by omega), if_pos h, answer_satNeg]

end Sys2Proof.Machine
end

section
/-! PROOF. ADD, MUL and HYPOT are symmetric in their operands (spec/40_fixed_point_core.md R111,
spec/41_multiplicative_core.md R134, spec/43_computed_functions.md R186). -/

namespace Sys2Proof.Machine

/-! ## Binary64 -/

theorem b64Mul_comm (x y : B64) : b64Mul x y = b64Mul y x := by
  cases x with
  | nan => cases y <;> rfl
  | inf s => cases y with
    | nan => rfl
    | inf t => simp [b64Mul, bne_comm]
    | fin t n f => simp [b64Mul, bne_comm]
  | fin s m e => cases y with
    | nan => rfl
    | inf t => simp [b64Mul, bne_comm]
    | fin t n f => rw [b64Mul, b64Mul, bne_comm, Nat.mul_comm, Int.add_comm]

theorem minExponent_comm (e f : Int) : minExponent e f = minExponent f e := by
  unfold minExponent
  split <;> split <;> omega

theorem exactSum_comm (s : Bool) (m : Nat) (e : Int) (t : Bool) (n : Nat) (f : Int) :
    exactSum s m e t n f = exactSum t n f s m e := by
  rw [exactSum, exactSum, minExponent_comm, Int.add_comm]

theorem b64Add_comm (x y : B64) : b64Add x y = b64Add y x := by
  cases x with
  | nan => cases y <;> rfl
  | inf s => cases y with
    | nan => rfl
    | inf t => cases s <;> cases t <;> rfl
    | fin t n f => rfl
  | fin s m e => cases y with
    | nan => rfl
    | inf t => rfl
    | fin t n f => simp only [b64Add, exactSum_comm s m e t n f, minExponent_comm e f, Bool.and_comm s t]

/-! ## The results -/

theorem addResult_comm (a b : Word) : addResult a b = addResult b a := by
  rw [addResult_eq, addResult_eq, Int.add_comm, BitVec.add_comm]

theorem hypotResult_comm (x y : Int) : hypotResult x y = hypotResult y x := by
  rw [hypotResult, hypotResult, b64Add_comm]

/-- Settles O38: each of the three answers a symmetric function of its operand words. -/
theorem addMulHypotCommute : Obligations.AddMulHypotCommute := by
  intro i s a b hi
  let s₁ : State := { s with opa := a.setWidth 64, opb := b }
  let s₂ : State := { s with opa := b.setWidth 64, opb := a }
  have hA₁ : wordA s₁ = a := wordA_setWidth { s with opb := b } a
  have hA₂ : wordA s₂ = b := wordA_setWidth { s with opb := a } b
  change ∃ e r, exec i s₁ = completed s₁ e r ∧ exec i s₂ = completed s₂ e r
  rcases hi with rfl | rfl | rfl
  · refine completed_alike_of_answer (r := addResult a b) ?_ ?_ rfl
    · rw [← hA₁]; rfl
    · rw [addResult_comm, ← hA₂]; rfl
  · refine completed_alike_of_answer (r := fromFloatCore (b64Mul (toFloatCore a.toInt) (toFloatCore b.toInt))) ?_ ?_ rfl
    · rw [← hA₁]; rfl
    · rw [b64Mul_comm, ← hA₂]; rfl
  · refine completed_alike_of_answer (r := hypotResult a.toInt b.toInt) ?_ ?_ rfl
    · rw [← hA₁]; rfl
    · rw [hypotResult_comm, ← hA₂]; rfl

end Sys2Proof.Machine
end

section
/-! PROOF. MUL and DIV: the binary64 pipelines give the closed forms in integers (spec/41_multiplicative_core.md R130 to
R134). -/

namespace Sys2Proof.Machine

/-! ## Converting a rounded ratio of integers -/

theorem representable_div_two_pow (n : Int) (k : Nat) (hn : n.natAbs ≤ 2 ^ 53) (hk : k ≤ 1074) :
    Representable (n / 2 ^ k) := by
  have hrep := representable_mul_two_zpow n (-k) hn (by omega)
  rwa [zpow_neg, zpow_natCast, ← div_eq_mul_inv] at hrep

section Ratio

variable {n d : Int} {x : B64} (hd : d ≠ 0) (hle : |d| ≤ 2 ^ 32) (h : IsRounding ((n : ℚ) / d) x)
include hd hle h

theorem abs_value_past_limit_of_ratio (hlim : 32767 < |(n : ℚ) / d|) : 32767 < |b64Value x| := by
  have hcode := code_of_rounded_ratio hd hle h
  rw [if_pos ((ratio_past_limit_iff n d hd).mp hlim), fromFloatCore_code_finite h.finite] at hcode
  by_contra hx
  rw [if_neg hx] at hcode
  cases hcode

theorem fromFloatCore_ratio_above (hlim : 32767 < (n : ℚ) / d) : fromFloatCore x = .range satPos := by
  have hpast := abs_value_past_limit_of_ratio hd hle h (hlim.trans_le (le_abs_self _))
  have hsign := h.ge_of_ge 32767 (representable_int 32767 (by norm_num)) hlim.le
  rw [abs_of_nonneg (by linarith)] at hpast
  exact fromFloatCore_above h.finite hpast

theorem fromFloatCore_ratio_below (hlim : (n : ℚ) / d < -32767) : fromFloatCore x = .range satNeg := by
  have hpast := abs_value_past_limit_of_ratio hd hle h ((lt_neg.mp hlim).trans_le (neg_le_abs _))
  have hsign := h.le_of_le _ (representable_int 32767 (by norm_num)).neg hlim.le
  rw [Int.cast_ofNat] at hsign
  rw [abs_of_nonpos (by linarith)] at hpast
  exact fromFloatCore_below h.finite (by linarith)

/-- A ratio below `2^-17` is below it by at least `2^-49`, too far to round to a value of R102's exception. -/
theorem scaled_ratio_ne_exception : |65536 * b64Value x| ≠ 1 / 2 - 1 / 2 ^ 54 := by
  have hd0 : (0 : ℚ) < |(d : ℚ)| := by positivity
  have hle' : |(d : ℚ)| ≤ 2 ^ 32 := by exact_mod_cast hle
  rw [abs_mul, abs_of_pos (by norm_num : (0 : ℚ) < 65536)]
  rcases le_or_gt |d| (2 ^ 17 * |n|) with hlarge | hsmall
  · have hrep : Representable (1 / 2 ^ 17) := by
      simpa using representable_div_two_pow 1 17 (by norm_num) (by norm_num)
    have hlarge' : |(d : ℚ)| ≤ 2 ^ 17 * |(n : ℚ)| := by exact_mod_cast hlarge
    have hx := h.le_abs_value hrep (by rw [abs_div, le_div_iff₀ hd0]; linarith)
    exact (by norm_num at hx ⊢; linarith : 1 / 2 - 1 / 2 ^ 54 < 65536 * |b64Value x|).ne'
  · have hrep : Representable (1 / 2 ^ 17 - 1 / 2 ^ 49) := by
      convert representable_div_two_pow (2 ^ 32 - 1) 49 (by norm_num) (by norm_num) using 1
      norm_num
    have hsmall' : 2 ^ 17 * |(n : ℚ)| + 1 ≤ |(d : ℚ)| := by exact_mod_cast hsmall
    have hx := h.abs_value_le hrep (by rw [abs_div, div_le_iff₀ hd0]; linarith)
    exact (by norm_num at hx ⊢; linarith : 65536 * |b64Value x| < 1 / 2 - 1 / 2 ^ 54).ne

/-- Within the limits the conversion rounds the ratio half away from zero, where the rounding to binary64 does not move
it across a half. -/
theorem fromFloatCore_ratio_within (hlim : |(n : ℚ) / d| ≤ 32767)
    (hrha : rha (65536 * b64Value x) = rha (65536 * ((n : ℚ) / d))) :
    fromFloatCore x = .plain (BitVec.ofInt 32 (rha (65536 * ((n : ℚ) / d)))) := by
  rw [← hrha]
  exact fromFloatCore_eq_rha h.finite (h.abs_value_le (representable_int 32767 (by norm_num)) hlim)
    (scaled_ratio_ne_exception hd hle h)

end Ratio

/-! ## MUL -/

theorem exec_mul (s : State) :
    exec .mul s = answer (fromFloatCore (b64Mul (toFloatCore (operandA s)) (toFloatCore (operandB s)))) s := rfl

/-- A product within the limits has at most 47 bits, and binary64 holds it exactly. -/
theorem IsRounding.exact_of_product {p : Int} {x : B64} (h : IsRounding ((p : ℚ) / (2 ^ 32 : Int)) x)
    (hp : |p| ≤ 32767 * 2 ^ 32) : b64Value x = (p : ℚ) / (2 ^ 32 : Int) := by
  refine h.exact ?_
  obtain ⟨hlo, hhi⟩ := abs_le.mp hp
  exact_mod_cast representable_div_two_pow p 32 (by omega) (by norm_num)

theorem isRounding_product (s : State) : IsRounding (((operandA s * operandB s : Int) : ℚ) / (2 ^ 32 : Int))
    (b64Mul (toFloatCore (operandA s)) (toFloatCore (operandB s))) :=
  isRounding_mul_words (wordA s) (wordB s)

/-- Settles O36: the conversion of the rounded product `P / 2^32`, which within the limits is exact. -/
theorem mulClosedForm : Obligations.MulClosedForm := by
  refine ⟨by decide, fun s => ?_⟩
  have hround := isRounding_product s
  rw [exec_mul]
  generalize operandA s * operandB s = p at hround
  have hscale : ((2 ^ 32 : Int) : ℚ) = 2 ^ 32 := by norm_num
  refine ⟨fun h => ?_, fun h => ?_, fun h => ?_⟩
  · have h' : (32767 * 2 ^ 32 : ℚ) < p := by exact_mod_cast h
    rw [fromFloatCore_ratio_above (by norm_num) (by norm_num) hround (by rwa [hscale, lt_div_iff₀ (by norm_num)]),
      answer_satPos]
  · have h' : (p : ℚ) < -(32767 * 2 ^ 32) := by exact_mod_cast h
    rw [fromFloatCore_ratio_below (by norm_num) (by norm_num) hround (by rwa [hscale, div_lt_iff₀ (by norm_num), neg_mul]),
      answer_satNeg]
  · have h' : |(p : ℚ)| ≤ 32767 * 2 ^ 32 := by exact_mod_cast h
    have hlim : |(p : ℚ) / (2 ^ 32 : Int)| ≤ 32767 := by
      rwa [hscale, abs_div, abs_of_pos (by norm_num : (0 : ℚ) < 2 ^ 32), div_le_iff₀ (by norm_num)]
    have hp : (p : ℚ) / 2 ^ 16 = 65536 * (p / (2 ^ 32 : Int)) := by
      rw [hscale]
      ring
    rw [fromFloatCore_ratio_within (by norm_num) (by norm_num) hround hlim (by rw [hround.exact_of_product h]), hp,
      answer_ofInt]

/-! ## The rounded quotient of two words -/

/-- Between a quotient and a multiple of `2^-17` above it there is a representable number. -/
theorem exists_representable_above_quotient {p q k : Nat} (hq : 0 < q) (hkq : k * q ≤ 2 ^ 52)
    (hlt : 2 ^ 17 * p < k * q) : ∃ y, Representable y ∧ (p : ℚ) / q ≤ y ∧ y < k / 2 ^ 17 := by
  have hk : 0 < k := Nat.pos_of_mul_pos_right (Nat.zero_lt_of_lt hlt)
  have hlow := Nat.pow_log_le_self 2 hq.ne'
  have hhigh := Nat.lt_pow_succ_log_self (by norm_num : 1 < 2) q
  generalize Nat.log 2 q = m at hlow hhigh
  have hm : m ≤ 52 :=
    (Nat.pow_le_pow_iff_right (by norm_num)).mp (hlow.trans ((Nat.le_mul_of_pos_left q hk).trans hkq))
  have hsig : k * 2 ^ (m + 1) ≤ 2 ^ 53 := by
    have := Nat.mul_le_mul_left k hlow
    rw [pow_succ, ← mul_assoc]
    omega
  have hpos : 0 < k * 2 ^ (m + 1) := by positivity
  have hrep := representable_div_two_pow ((k * 2 ^ (m + 1) : Nat) - 1) (17 + (m + 1)) (by omega) (by omega)
  push_cast at hrep
  rw [pow_add 2 17] at hrep
  have hhigh' : (q : ℚ) ≤ 2 ^ (m + 1) := by exact_mod_cast hhigh.le
  have hlt' : (2 ^ 17 * p + 1 : ℚ) ≤ k * q := by exact_mod_cast hlt
  have hscaled := mul_le_mul_of_nonneg_right hlt' (by positivity : (0 : ℚ) ≤ 2 ^ (m + 1))
  refine ⟨_, hrep, ?_, ?_⟩
  · rw [div_le_div_iff₀ (by exact_mod_cast hq) (by positivity)]
    linarith
  · rw [div_lt_div_iff₀ (by positivity) (by norm_num)]
    linarith

/-- Rounding a quotient of naturals of at most 32 bits to binary64 does not move it across a half of `2^-16`. -/
theorem IsRounding.floor_quotient {p q : Nat} {x : B64} (h : IsRounding ((p : ℚ) / q) x) (hp : p ≤ 2 ^ 31) (hq : 0 < q)
    (hq31 : q ≤ 2 ^ 31) : ⌊65536 * b64Value x + 1 / 2⌋ = ⌊65536 * ((p : ℚ) / q) + 1 / 2⌋ := by
  have hq0 : (0 : ℚ) < q := by exact_mod_cast hq
  obtain ⟨k, hk⟩ := Int.eq_ofNat_of_zero_le (Int.floor_nonneg.mpr (by positivity : 0 ≤ 65536 * ((p : ℚ) / q) + 1 / 2))
  obtain ⟨hlo, hhi⟩ := Int.floor_eq_iff.mp hk
  rw [Int.cast_natCast] at hlo hhi
  have hge : (2 * (k : ℚ) - 1) / 2 ^ 17 ≤ p / q := by linarith
  have hlt : (p : ℚ) / q < (2 * k + 1) / 2 ^ 17 := by linarith
  have hkq : (2 * k + 1) * q ≤ 2 ^ 52 := by
    have hp' : (p : ℚ) ≤ 2 ^ 31 := by exact_mod_cast hp
    have hq' : (q : ℚ) ≤ 2 ^ 31 := by exact_mod_cast hq31
    rw [div_le_div_iff₀ (by norm_num) hq0] at hge
    exact_mod_cast (by linarith : (2 * (k : ℚ) + 1) * q ≤ 2 ^ 52)
  have hlt' : 2 ^ 17 * p < (2 * k + 1) * q := by
    rw [div_lt_div_iff₀ hq0 (by norm_num), mul_comm] at hlt
    exact_mod_cast hlt
  obtain ⟨y, hy, hylo, hyhi⟩ := exists_representable_above_quotient hq hkq hlt'
  have hbelow := h.le_of_le y hy hylo
  have habove : (2 * (k : ℚ) - 1) / 2 ^ 17 ≤ b64Value x := by
    have hk52 : 2 * k + 1 ≤ 2 ^ 52 := (Nat.le_mul_of_pos_right _ hq).trans hkq
    have hrep := representable_div_two_pow (2 * k - 1) 17 (by omega) (by norm_num)
    push_cast at hrep
    exact h.ge_of_ge _ hrep hge
  rw [hk, Int.floor_eq_iff, Int.cast_natCast]
  push_cast at hyhi
  constructor <;> linarith

theorem rha_neg (r : ℚ) : rha (-r) = -rha r := by
  rcases lt_trichotomy r 0 with h | rfl | h
  · rw [rha_of_neg h, rha_of_nonneg (by linarith), neg_neg]
  · rw [neg_zero, rha_of_nonneg le_rfl]
    norm_num
  · rw [rha_of_nonneg h.le, rha_of_neg (by linarith), neg_neg]

theorem IsRounding.rha_quotient_of_nonneg {p q : Nat} {x : B64} (h : IsRounding ((p : ℚ) / q) x) (hp : p ≤ 2 ^ 31)
    (hq : 0 < q) (hq31 : q ≤ 2 ^ 31) : rha (65536 * b64Value x) = rha (65536 * ((p : ℚ) / q)) := by
  have hsign := h.ge_of_ge 0 (by simpa using representable_int 0 (by norm_num)) (by positivity)
  rw [rha_of_nonneg (by positivity), rha_of_nonneg (by positivity), h.floor_quotient hp hq hq31]

theorem natAbs_toInt_le (w : Word) : w.toInt.natAbs ≤ 2 ^ 31 := by
  have := toInt_bounds w
  omega

/-- The quotient of two words rounds to the same integer before and after it is rounded to binary64. -/
theorem IsRounding.rha_quotient {a b : Word} {x : B64} (h : IsRounding ((a.toInt : ℚ) / b.toInt) x) (hb : b.toInt ≠ 0) :
    rha (65536 * b64Value x) = rha (65536 * ((a.toInt : ℚ) / b.toInt)) := by
  have habs : |(a.toInt : ℚ) / b.toInt| = (a.toInt.natAbs : ℚ) / b.toInt.natAbs := by
    rw [abs_div, Nat.cast_natAbs, Nat.cast_natAbs, Int.cast_abs, Int.cast_abs]
  rcases le_total 0 ((a.toInt : ℚ) / b.toInt) with hr | hr
  · rw [abs_of_nonneg hr] at habs
    rw [habs] at h ⊢
    exact h.rha_quotient_of_nonneg (natAbs_toInt_le a) (Int.natAbs_pos.mpr hb) (natAbs_toInt_le b)
  · rw [abs_of_nonpos hr] at habs
    have hneg := h.neg
    rw [habs] at hneg
    have hrha := hneg.rha_quotient_of_nonneg (natAbs_toInt_le a) (Int.natAbs_pos.mpr hb) (natAbs_toInt_le b)
    rwa [b64Value_b64Neg, ← habs, mul_neg, mul_neg, rha_neg, rha_neg, neg_inj] at hrha

/-! ## DIV -/

theorem exec_div (s : State) : exec .div s = answer (divResult (operandA s) (operandB s)) s := rfl

/-- Settles O37: the zero cases of `divResult`, and the conversion of the rounded quotient. -/
theorem divClosedForm : Obligations.DivClosedForm := by
  refine ⟨by decide, fun s => ?_⟩
  have hle : |operandB s| ≤ 2 ^ 32 := (abs_toInt_le (wordB s)).trans (by norm_num)
  have hround (hb : operandB s ≠ 0) : IsRounding ((operandA s : ℚ) / operandB s)
      (b64Div (toFloatCore (operandA s)) (toFloatCore (operandB s))) := isRounding_div_words (wordA s) (wordB s) hb
  rw [exec_div, divResult]
  refine ⟨fun ⟨hb, ha⟩ => ?_, fun ⟨hb, ha⟩ => ?_, fun hb => ?_, fun ⟨hb, hq⟩ => ?_, fun ⟨hb, hq⟩ => ?_, fun ⟨hb, hq⟩ => ?_⟩
  · rw [if_pos hb, if_pos ha, answer_satNeg]
  · rw [if_pos hb, if_neg ha.not_gt, answer_satPos]
  · rw [if_neg hb]
  · rw [if_neg hb, fromFloatCore_ratio_above hb hle (hround hb) hq, answer_satPos]
  · rw [if_neg hb, fromFloatCore_ratio_below hb hle (hround hb) hq, answer_satNeg]
  · rw [if_neg hb, fromFloatCore_ratio_within hb hle (hround hb) hq ((hround hb).rha_quotient hb), answer_ofInt]

/-! ## The smallest word -/

/-- The word of an integer between the sentinels, or equal to one, is not `0x80000000`. -/
theorem ofInt_ne_smallest {v : Int} (h : |v| < 2 ^ 31) : BitVec.ofInt 32 v ≠ 0x80000000#32 := by
  obtain ⟨hlo, hhi⟩ := abs_lt.mp h
  intro heq
  have hv := congrArg BitVec.toInt heq
  rw [BitVec.toInt_ofInt, bmod_two_pow_32 v (by omega), if_neg (by omega), if_neg (by omega)] at hv
  exact absurd (hv ▸ hlo) (by decide)

theorem fromFloatCore_ne_smallest {x : B64} (hx : IsFinite x) : (fromFloatCore x).value ≠ 0x80000000#32 := by
  have hrep : Representable (32767 * 65536 + 1 / 2) := by
    convert representable_div_two_pow (2 * (32767 * 65536) + 1) 1 (by norm_num) (by norm_num) using 1
    norm_num
  have hfloor {r : ℚ} (h0 : 0 ≤ r) (hle : r ≤ 32767 * 65536 + 1 / 2) : |⌊r⌋| < 2 ^ 31 := by
    rw [abs_of_nonneg (Int.floor_nonneg.mpr h0), Int.floor_lt]
    norm_num at hle ⊢
    linarith
  rcases lt_or_ge 32767 (b64Value x) with habove | hhi
  · rw [fromFloatCore_above hx habove]
    decide
  rcases lt_or_ge (b64Value x) (-32767) with hbelow | hlo
  · rw [fromFloatCore_below hx hbelow]
    decide
  rcases le_or_gt 0 (b64Value x) with hsign | hsign
  · obtain ⟨u, hu, hu0, heq⟩ := fromFloatCore_nonneg hx hsign hhi
    rw [heq]
    exact ofInt_ne_smallest (hfloor hu0 (hu.le_of_le _ hrep (by linarith)))
  · obtain ⟨u, hu, hu0, heq⟩ := fromFloatCore_neg hx hsign hlo
    have hge := hu.ge_of_ge _ hrep.neg (by linarith)
    rw [heq]
    refine ofInt_ne_smallest ?_
    rw [abs_neg]
    exact hfloor (by linarith) (by linarith)

theorem divResult_ne_smallest (a b : Word) : (divResult a.toInt b.toInt).value ≠ 0x80000000#32 := by
  rw [divResult]
  split_ifs with hb ha
  · decide
  · decide
  · exact fromFloatCore_ne_smallest (isRounding_div_words a b hb).finite

/-- A result other than `0x80000000` is so zero-extended as well. -/
theorem completed_ne_smallest_of_answer {i : Instr} {s : State} {r : Fixed} (h : exec i s = answer r s)
    (hr : r.value ≠ 0x80000000#32) : ∃ e v, exec i s = completed s e v ∧ v ≠ 0x80000000#64 := by
  refine ⟨_, _, h.trans (answer_eq_completed r s), fun heq => hr ?_⟩
  have hback := congrArg (BitVec.setWidth 32) heq
  rwa [BitVec.setWidth_setWidth_of_le _ (by norm_num), BitVec.setWidth_eq] at hback

/-- Settles O39: a converted finite value is a sentinel or within `32767 * 65536` of zero. -/
theorem mulDivNeverSmallestWord : Obligations.MulDivNeverSmallestWord := by
  rintro i s (rfl | rfl)
  · exact completed_ne_smallest_of_answer (exec_mul s) (fromFloatCore_ne_smallest (isRounding_product s).finite)
  · exact completed_ne_smallest_of_answer (exec_div s) (divResult_ne_smallest (wordA s) (wordB s))

end Sys2Proof.Machine
end

section
/-! PROOF. The table functions: the entry each index names, the angle wrapped to 32 bits, and the domain check of ACOS and
ASIN (spec/42_table_functions.md R150 to R157). -/

namespace Sys2Proof.Machine

/-! ## Entries of a ROM -/

theorem Rom.words_read {n : Nat} (r : Rom n) (i : Fin n) : r.words[i.val]? = some (r.read i) :=
  List.getElem?_eq_getElem _

theorem Rom.read_mem_of_eq {n : Nat} {r image : Rom n} (h : r = image) (i : Fin n) : r.read i ∈ image.words :=
  h ▸ List.getElem_mem _

theorem Rom.lt_of_words {n i : Nat} {r : Rom n} {w : Word} (h : r.words[i]? = some w) : i < n := by
  obtain ⟨hi, -⟩ := List.getElem?_eq_some_iff.mp h
  exact r.size ▸ hi

theorem Rom.read_of_words {n k : Nat} {r : Rom n} {i : Fin n} {w : Word} (h : r.words[k]? = some w) (hi : i.val = k) :
    r.read i = w := by
  subst hi
  exact Option.some_inj.mp ((r.words_read i).symm.trans h)

/-! ## The images -/

/-- The word's signed value lies between two bounds. -/
def isWithin (lo hi : Int) (w : Word) : Bool := decide (lo ≤ w.toInt) && decide (w.toInt ≤ hi)

theorem cosList_all_isWithin : cosList.all (isWithin (-65536) 65536) := by decide +kernel

theorem acosList_all_isWithin : acosList.all (isWithin 0 0x00800000) := by decide +kernel

theorem satNeg_notMem_tanList : satNeg ∉ tanList := by decide +kernel

theorem tanImage_read_quarterTurn : tanImage.read 128 = satPos := by decide +kernel

theorem bounds_of_all_isWithin {lo hi : Int} {ws : List Word} (h : ws.all (isWithin lo hi)) {w : Word} (hw : w ∈ ws) :
    lo ≤ w.toInt ∧ w.toInt ≤ hi := by
  simpa [isWithin] using List.all_eq_true.mp h w hw

section Intact

variable {s : State} (h : RomsIntact s)
include h

theorem readCos_bounds (i : Fin 512) : -65536 ≤ (readCos s i).toInt ∧ (readCos s i).toInt ≤ 65536 := by
  obtain ⟨hcos, -, -⟩ := h
  exact bounds_of_all_isWithin cosList_all_isWithin (Rom.read_mem_of_eq hcos i)

theorem readTan_ne_satNeg (i : Fin 256) : readTan s i ≠ satNeg := by
  obtain ⟨-, htan, -⟩ := h
  exact ne_of_mem_of_not_mem (Rom.read_mem_of_eq htan i) satNeg_notMem_tanList

theorem readTan_quarterTurn : readTan s 128 = satPos := by
  obtain ⟨-, htan, -⟩ := h
  rw [readTan, htan, tanImage_read_quarterTurn]

theorem readAcos_bounds (i : Fin 513) : 0 ≤ (readAcos s i).toInt ∧ (readAcos s i).toInt ≤ 0x00800000 := by
  obtain ⟨-, -, hacos⟩ := h
  exact bounds_of_all_isWithin acosList_all_isWithin (Rom.read_mem_of_eq hacos i)

end Intact

/-! ## Indices -/

theorem cosIndex_val (x : Int) : ((cosIndex x).val : Int) = (x + 0x4000) / 2 ^ 15 % 512 := by
  simp only [cosIndex, Fin.ofNat]
  omega

theorem tanIndex_val (x : Int) : ((tanIndex x).val : Int) = (x + 0x4000) / 2 ^ 15 % 256 := by
  simp only [tanIndex, Fin.ofNat]
  omega

theorem acosIndex_val {x : Int} (h : -65536 ≤ x ∧ x ≤ 65536) :
    ((acosIndex x).val : Int) = (x + 65536 + 127) / 2 ^ 8 := by
  simp only [acosIndex, Fin.ofNat]
  omega

/-- COS has the full turn as a period. -/
theorem cosIndex_congr {x y : Int} (h : 2 ^ 24 ∣ x - y) : cosIndex x = cosIndex y := by
  have hx := cosIndex_val x
  have hy := cosIndex_val y
  omega

/-- TAN has the half turn as a period. -/
theorem tanIndex_congr {x y : Int} (h : 2 ^ 23 ∣ x - y) : tanIndex x = tanIndex y := by
  have hx := tanIndex_val x
  have hy := tanIndex_val y
  omega

/-- Wrapping an angle to 32 bits changes it by whole turns (R150). -/
theorem cosIndex_bmod (x : Int) : cosIndex (x.bmod (2 ^ 32)) = cosIndex x :=
  cosIndex_congr (.trans (by norm_num) Int.dvd_bmod_sub_self)

theorem tanIndex_bmod (x : Int) : tanIndex (x.bmod (2 ^ 32)) = tanIndex x :=
  tanIndex_congr (.trans (by norm_num) Int.dvd_bmod_sub_self)

theorem cosIndex_sub_quarterTurn (w : Word) : cosIndex (w - 0x00400000#32).toInt = cosIndex (w.toInt - quarterTurn) := by
  rw [BitVec.toInt_sub, cosIndex_bmod]
  rfl

theorem cosIndex_add_fullTurn (w : Word) : cosIndex (w + 0x01000000#32).toInt = cosIndex w.toInt := by
  rw [BitVec.toInt_add, cosIndex_bmod]
  exact cosIndex_congr (by rw [add_sub_cancel_left]; decide)

theorem tanIndex_add_halfTurn (w : Word) : tanIndex (w + 0x00800000#32).toInt = tanIndex w.toInt := by
  rw [BitVec.toInt_add, tanIndex_bmod]
  exact tanIndex_congr (by rw [add_sub_cancel_left]; decide)

theorem floor_halfStep (x : Int) : ⌊((x : ℚ) + 0x4000) / 2 ^ 15⌋ = (x + 0x4000) / 2 ^ 15 := by
  exact_mod_cast Rat.floor_intCast_div_natCast (x + 0x4000) (2 ^ 15)

theorem floor_acosStep (x : Int) : ⌊((x : ℚ) + 65536 + 127) / 2 ^ 8⌋ = (x + 65536 + 127) / 2 ^ 8 := by
  exact_mod_cast Rat.floor_intCast_div_natCast (x + 65536 + 127) (2 ^ 8)

theorem cosRom_entry (s : State) (x : Int) :
    s.cosRom.words[(⌊((x : ℚ) + 0x4000) / 2 ^ 15⌋ % 512).toNat]? = some (readCos s (cosIndex x)) := by
  rw [floor_halfStep, ← cosIndex_val]
  exact s.cosRom.words_read _

theorem tanRom_entry (s : State) (x : Int) :
    s.tanRom.words[(⌊((x : ℚ) + 0x4000) / 2 ^ 15⌋ % 256).toNat]? = some (readTan s (tanIndex x)) := by
  rw [floor_halfStep, ← tanIndex_val]
  exact s.tanRom.words_read _

theorem acosRom_entry (s : State) {x : Int} (h : -65536 ≤ x ∧ x ≤ 65536) :
    s.acosRom.words[⌊((x : ℚ) + 65536 + 127) / 2 ^ 8⌋.toNat]? = some (readAcos s (acosIndex x)) := by
  rw [floor_acosStep, ← acosIndex_val h]
  exact s.acosRom.words_read _

/-! ## The commands -/

theorem exec_cos (s : State) :
    exec .cos s = completed s s.err ((readCos s (cosIndex (operandA s))).setWidth 64) := rfl

theorem exec_sin (s : State) :
    exec .sin s = completed s s.err ((readCos s (cosIndex (operandA s - quarterTurn))).setWidth 64) := rfl

theorem exec_tan (s : State) :
    exec .tan s = completed s s.err ((readTan s (tanIndex (operandA s))).setWidth 64) := rfl

theorem acosValid_iff {x : Int} : acosValid x = true ↔ -65536 ≤ x ∧ x ≤ 65536 := by simp [acosValid]

theorem acosValid_of_outside {x : Int} (h : x < -65536 ∨ 65536 < x) : ¬ acosValid x = true := by
  rw [acosValid_iff]
  omega

theorem exec_acos_of_valid {s : State} (h : -65536 ≤ operandA s ∧ operandA s ≤ 65536) :
    exec .acos s = completed s s.err ((readAcos s (acosIndex (operandA s))).setWidth 64) :=
  congrArg (answer · s) (if_pos (acosValid_iff.mpr h))

theorem exec_acos_of_outside {s : State} (h : operandA s < -65536 ∨ 65536 < operandA s) :
    exec .acos s = completed s 2#2 0#64 :=
  congrArg (answer · s) (if_neg (acosValid_of_outside h))

theorem exec_asin_of_valid {s : State} (h : -65536 ≤ operandA s ∧ operandA s ≤ 65536) :
    exec .asin s = completedInt s s.err (0x00400000 - (readAcos s (acosIndex (operandA s))).toInt) :=
  congrArg (answer · s) (if_pos (acosValid_iff.mpr h))

theorem exec_asin_of_outside {s : State} (h : operandA s < -65536 ∨ 65536 < operandA s) :
    exec .asin s = completed s 2#2 0#64 :=
  congrArg (answer · s) (if_neg (acosValid_of_outside h))

/-! ## An operand presented by the host -/

/-- The host presents the word `w` as operand A. -/
def State.withA (s : State) (w : Word) : State := { s with opa := w.setWidth 64 }

theorem operandA_withA (s : State) (w : Word) : operandA (s.withA w) = w.toInt :=
  congrArg BitVec.toInt (wordA_setWidth s w)

theorem exec_cos_withA (s : State) (w : Word) :
    exec .cos (s.withA w) = completed (s.withA w) s.err ((readCos s (cosIndex w.toInt)).setWidth 64) := by
  rw [exec_cos, operandA_withA]
  rfl

theorem exec_sin_withA (s : State) (w : Word) : exec .sin (s.withA w) =
    completed (s.withA w) s.err ((readCos s (cosIndex (w.toInt - quarterTurn))).setWidth 64) := by
  rw [exec_sin, operandA_withA]
  rfl

theorem exec_tan_withA (s : State) (w : Word) :
    exec .tan (s.withA w) = completed (s.withA w) s.err ((readTan s (tanIndex w.toInt)).setWidth 64) := by
  rw [exec_tan, operandA_withA]
  rfl

theorem exec_cos_quarterTurn_back (s : State) (w : Word) : exec .cos (s.withA (w - 0x00400000#32)) =
    completed (s.withA (w - 0x00400000#32)) s.err ((readCos s (cosIndex (w.toInt - quarterTurn))).setWidth 64) := by
  rw [exec_cos_withA, cosIndex_sub_quarterTurn]

/-! ## COS, SIN and TAN -/

/-- Settles O41: the entry at `CosIndex(A)`, within the bounds of the whole image. -/
theorem cosNearestEntry : Obligations.CosNearestEntry :=
  ⟨by decide, fun s => ⟨_, cosRom_entry s (operandA s), exec_cos s, fun h => readCos_bounds h _⟩⟩

/-- Settles O42: wrapping the angle a quarter turn back to 32 bits leaves its index. -/
theorem sinNearestEntry : Obligations.SinNearestEntry := by
  refine ⟨by decide, fun s => ⟨_, ?_, exec_sin s, exec_cos_quarterTurn_back s (wordA s)⟩⟩
  simpa [quarterTurn] using cosRom_entry s (operandA s - quarterTurn)

/-- Settles O43: the entry at `TanIndex(A)`; the image holds `SAT_POS` at index 128 and `SAT_NEG` nowhere. -/
theorem tanNearestEntry : Obligations.TanNearestEntry := by
  refine ⟨by decide, fun s => ⟨_, tanRom_entry s _, exec_tan s, fun h => ⟨readTan_ne_satNeg h _, fun hi => ?_⟩⟩⟩
  have hidx : tanIndex (operandA s) = 128 := by
    rw [floor_halfStep, ← tanIndex_val] at hi
    omega
  rw [hidx, readTan_quarterTurn h]
  rfl

/-! ## ACOS and ASIN -/

/-- Settles O44: the domain check of R154, then the entry at `AcosIndex(A)`. -/
theorem acosDomainOrEntry : Obligations.AcosDomainOrEntry :=
  ⟨by decide, fun _ => ⟨exec_acos_of_outside, fun hx =>
    ⟨_, acosRom_entry _ hx, exec_acos_of_valid hx, fun h => readAcos_bounds h _⟩⟩⟩

/-- Settles O45: the domain check of R154, then the quarter turn less the entry. -/
theorem asinDomainOrComplement : Obligations.AsinDomainOrComplement := by
  refine ⟨by decide, fun s => ⟨exec_asin_of_outside, fun hx =>
    ⟨_, acosRom_entry s hx, exec_asin_of_valid hx, fun h => ?_⟩⟩⟩
  have hw := readAcos_bounds h (acosIndex (operandA s))
  omega

/-- Settles O46: the entries are at most a half turn, so ASIN's subtraction does not wrap. -/
theorem asinAcosComplementary : Obligations.AsinAcosComplementary := by
  intro s h hlo hhi
  have hw := readAcos_bounds h (acosIndex (operandA s))
  refine ⟨_, _, exec_acos_of_valid ⟨hlo, hhi⟩, exec_asin_of_valid ⟨hlo, hhi⟩, ?_⟩
  rw [BitVec.toInt_ofInt_eq_self (by norm_num) (by omega) (by omega)]
  omega

/-! ## The laws of the family -/

/-- Settles O47: both angles of each equation have one index. -/
theorem angleShiftLaws : Obligations.AngleShiftLaws := by
  intro s x
  have hfull := exec_cos_withA s (x + 0x01000000#32)
  have hhalf := exec_tan_withA s (x + 0x00800000#32)
  rw [cosIndex_add_fullTurn] at hfull
  rw [tanIndex_add_halfTurn] at hhalf
  exact ⟨⟨_, exec_sin_withA s x, exec_cos_quarterTurn_back s x⟩, ⟨_, exec_cos_withA s x, hfull⟩,
    ⟨_, exec_tan_withA s x, hhalf⟩⟩

theorem exec_cos_at_entry {s : State} {i : Nat} {w : Word} (h : s.cosRom.words[i]? = some w) :
    exec .cos (s.withA (BitVec.ofInt 32 (i * 0x8000))) =
      completed (s.withA (BitVec.ofInt 32 (i * 0x8000))) s.err (w.setWidth 64) := by
  have hidx : (cosIndex (i * 0x8000)).val = i := by
    have hi := Rom.lt_of_words h
    have hval := cosIndex_val (i * 0x8000)
    omega
  rw [exec_cos_withA, BitVec.toInt_ofInt, cosIndex_bmod, readCos, Rom.read_of_words h hidx]

theorem exec_tan_at_entry {s : State} {i : Nat} {w : Word} (h : s.tanRom.words[i]? = some w) :
    exec .tan (s.withA (BitVec.ofInt 32 (i * 0x8000))) =
      completed (s.withA (BitVec.ofInt 32 (i * 0x8000))) s.err (w.setWidth 64) := by
  have hidx : (tanIndex (i * 0x8000)).val = i := by
    have hi := Rom.lt_of_words h
    have hval := tanIndex_val (i * 0x8000)
    omega
  rw [exec_tan_withA, BitVec.toInt_ofInt, tanIndex_bmod, readTan, Rom.read_of_words h hidx]

theorem exec_acos_at_entry {s : State} {i : Nat} {w : Word} (h : s.acosRom.words[i]? = some w) :
    exec .acos (s.withA (BitVec.ofInt 32 (256 * i - 65536))) =
      completed (s.withA (BitVec.ofInt 32 (256 * i - 65536))) s.err (w.setWidth 64) := by
  have hi := Rom.lt_of_words h
  have hA : operandA (s.withA (BitVec.ofInt 32 (256 * i - 65536))) = 256 * i - 65536 := operandA_ofInt s (by omega)
  have hidx : (acosIndex (256 * i - 65536)).val = i := by
    have hval := acosIndex_val (x := 256 * i - 65536) (by omega)
    omega
  rw [exec_acos_of_valid (s := s.withA _) (by omega), hA]
  exact congrArg (fun v : Word => completed _ s.err (v.setWidth 64)) (Rom.read_of_words h hidx)

/-- Settles O48: the angle or value that names an index reads the entry there. -/
theorem romWordsObservable : Obligations.RomWordsObservable :=
  fun _ _ _ => ⟨exec_cos_at_entry, exec_tan_at_entry, exec_acos_at_entry⟩

end Sys2Proof.Machine
end

section
/-! PROOF. SQRT: converting a value near a known real number, and the pipeline of R184 beside the closed form of R185
(spec/43_computed_functions.md). -/

namespace Sys2Proof.Machine

/-! ## Converting a value near a real number -/

theorem abs_rha_sub_le (r : ℚ) : |(rha r : ℚ) - r| ≤ 1 / 2 := by
  rcases le_or_gt 0 r with h | h
  · have hlo := Int.floor_le (r + 1 / 2)
    have hhi := Int.lt_floor_add_one (r + 1 / 2)
    rw [rha_of_nonneg h, abs_le]
    constructor <;> linarith
  · have hlo := Int.floor_le (-r + 1 / 2)
    have hhi := Int.lt_floor_add_one (-r + 1 / 2)
    rw [rha_of_neg h, Int.cast_neg, abs_le]
    constructor <;> linarith

theorem toInt_ofInt_of_abs_lt {v : Int} (h : |v| < 2 ^ 31) : (BitVec.ofInt 32 v).toInt = v := by
  obtain ⟨hlo, hhi⟩ := abs_lt.mp h
  rw [BitVec.toInt_ofInt, bmod_two_pow_32 v (by omega), if_neg (by omega), if_neg (by omega)]

/-- `FromFloatCore` within the limits gives an integer nearest to the scaled value, but for R102's exception, which is
`2^-54` farther from its result. -/
theorem exists_fromFloatCore_near {x : B64} (hx : IsFinite x) (h : |b64Value x| ≤ 32767) :
    ∃ w : Word, fromFloatCore x = .plain w ∧ |(w.toInt : ℝ) - 65536 * (b64Value x : ℝ)| ≤ 1 / 2 + 1 / 2 ^ 54 := by
  suffices hv : ∃ v : Int, fromFloatCore x = .plain (BitVec.ofInt 32 v) ∧
      |(v : ℚ) - 65536 * b64Value x| ≤ 1 / 2 + 1 / 2 ^ 54 by
    obtain ⟨v, heq, hnear⟩ := hv
    have hv31 : |v| < 2 ^ 31 := by
      obtain ⟨hlo, hhi⟩ := abs_le.mp h
      obtain ⟨hlo', hhi'⟩ := abs_le.mp hnear
      have hq : |(v : ℚ)| < 2 ^ 31 := abs_lt.mpr ⟨by linarith, by linarith⟩
      exact_mod_cast hq
    refine ⟨_, heq, ?_⟩
    rw [toInt_ofInt_of_abs_lt hv31]
    have hreal := (Rat.cast_le (K := ℝ)).mpr hnear
    rw [Rat.cast_abs] at hreal
    push_cast at hreal
    exact hreal
  by_cases hne : |65536 * b64Value x| = 1 / 2 - 1 / 2 ^ 54
  · obtain ⟨neg, hneg⟩ : ∃ neg : Bool, 65536 * b64Value x = (if neg then -1 else 1) * (1 / 2 - 1 / 2 ^ 54) := by
      rcases eq_or_eq_neg_of_abs_eq hne with hpos | hneg
      · exact ⟨false, by rw [hpos]; norm_num⟩
      · exact ⟨true, by rw [hneg]; norm_num⟩
    refine ⟨if neg then -1 else 1, by rw [hx.eq_of_exception neg hneg, fromFloatCore_exception], ?_⟩
    rw [hneg]
    cases neg <;> norm_num [abs_le]
  · exact ⟨_, fromFloatCore_eq_rha hx h hne, (abs_rha_sub_le _).trans (by norm_num)⟩

/-- A value clearly nearest to one integer converts to that integer. -/
theorem fromFloatCore_of_near {x : B64} (hx : IsFinite x) (h : |b64Value x| ≤ 32767) {v : Int}
    (hv : |65536 * (b64Value x : ℝ) - v| ≤ 1 / 2 - 1 / 2 ^ 53) : fromFloatCore x = .plain (BitVec.ofInt 32 v) := by
  obtain ⟨w, hw, hnear⟩ := exists_fromFloatCore_near hx h
  have hlt : |((w.toInt - v : Int) : ℝ)| < 1 := by
    have htri := abs_sub_le (w.toInt : ℝ) (65536 * (b64Value x : ℝ)) v
    push_cast
    linarith
  have heq : w.toInt - v = 0 := Int.abs_lt_one_iff.mp (by exact_mod_cast hlt)
  rw [hw, ← sub_eq_zero.mp heq, BitVec.ofInt_toInt]

/-! ## The square root -/

/-- The binary64 root of a finite value that is not negative; for a negative zero it is that zero. -/
theorem isSqrtRounding_of_nonneg {x : B64} (hx : IsFinite x) (h : 0 ≤ b64Value x) :
    IsSqrtRounding (b64Value x) (b64Sqrt x) := by
  obtain ⟨s, m, e, rfl, hcan⟩ := hx
  cases s with
  | false => exact isSqrtRounding_sqrt m e hcan
  | true =>
    have hm : m = 0 := by
      by_contra hm
      have hpos := mul_pos (by positivity : (0 : ℚ) < m) (two_zpow_pos e)
      rw [b64Value_neg] at h
      linarith
    subst hm
    have hroot := isSqrtRounding_sqrt 0 e hcan
    have hsqrt (s : Bool) : b64Sqrt (.fin s 0 e) = .fin s 0 e := by simp [b64Sqrt]
    have hval : b64Value (.fin true 0 e) = b64Value (.fin false 0 e) := by simp
    rw [hsqrt] at hroot ⊢
    rw [hval]
    exact ⟨⟨_, _, _, rfl, hcan⟩, hval ▸ hroot.nonneg, hval ▸ hroot.le_of_le, hval ▸ hroot.ge_of_ge, hval ▸ hroot.error⟩

/-- Half the root of an even number, rounded as R185 does, lies strictly between the odd squares around the number. -/
theorem odd_squares_around {n v : Nat} (hn : n % 2 = 0) (hv : v = (Nat.sqrt n + 1) / 2) :
    n + 1 ≤ (2 * v + 1) ^ 2 ∧ (v = 0 ∨ ∃ u, v = u + 1 ∧ (2 * u + 1) ^ 2 + 1 ≤ n) := by
  have hle := Nat.sqrt_le' n
  have hlt := Nat.lt_succ_sqrt' n
  refine ⟨hlt.trans_le (Nat.pow_le_pow_left (by omega) 2), ?_⟩
  rcases v with _ | u
  · exact .inl rfl
  · refine .inr ⟨u, rfl, ?_⟩
    have hu : (2 * u + 1) ^ 2 ≤ n := (Nat.pow_le_pow_left (by omega) 2).trans hle
    have hodd : (2 * u + 1) ^ 2 = 2 * (2 * u * u + 2 * u) + 1 := by ring
    omega

/-- Half the root lies closer than one half to the rounded one, with a margin (R185). -/
theorem half_sqrt_near {n v : Nat} (hn : n % 2 = 0) (hv : v = (Nat.sqrt n + 1) / 2) (hlim : v ≤ 2 ^ 24 - 1) :
    |√(n : ℝ) / 2 - v| ≤ 1 / 2 - 1 / 2 ^ 27 := by
  obtain ⟨hhi, hlo⟩ := odd_squares_around hn hv
  have hlim' : (v : ℝ) ≤ 2 ^ 24 - 1 := by
    have : ((v + 1 : Nat) : ℝ) ≤ (2 ^ 24 : Nat) := by exact_mod_cast (by omega : v + 1 ≤ 2 ^ 24)
    push_cast at this
    linarith
  have hv0 : (0 : ℝ) ≤ v := by positivity
  have hupper : √(n : ℝ) ≤ 2 * v + 1 - 1 / 2 ^ 26 := by
    have hhi' : (n : ℝ) + 1 ≤ (2 * v + 1) ^ 2 := by exact_mod_cast hhi
    refine Real.sqrt_le_iff.mpr ⟨by linarith, ?_⟩
    linarith
  have hlower : 2 * v - 1 + 1 / 2 ^ 26 ≤ √(n : ℝ) := by
    rcases hlo with rfl | ⟨u, rfl, hlo⟩
    · refine le_trans ?_ (Real.sqrt_nonneg _)
      norm_num
    · have hlo' : (2 * (u : ℝ) + 1) ^ 2 + 1 ≤ n := by exact_mod_cast hlo
      push_cast at hlim' ⊢
      refine Real.le_sqrt_of_sq_le ?_
      linarith
  rw [abs_le]
  constructor <;> linarith

theorem exec_sqrt (s : State) : exec .sqrt s =
    answer (if operandA s < 0 then .domain 0#32 else fromFloatCore (b64Sqrt (toFloatCore (operandA s)))) s := rfl

/-- The pipeline of R184 gives the closed form of R185: rounding the root to binary64 moves it by less than its distance
to a half. -/
theorem fromFloatCore_sqrt (a : Word) (ha : 0 ≤ a.toInt) {n : Nat} (hn : (n : ℝ) = 2 ^ 18 * a.toInt) {v : Nat}
    (hnear : |√(n : ℝ) / 2 - v| ≤ 1 / 2 - 1 / 2 ^ 27) :
    fromFloatCore (b64Sqrt (toFloatCore a.toInt)) = .plain (BitVec.ofInt 32 v) := by
  obtain ⟨hfin, hval⟩ := toFloatCore_word a
  have ha0 : (0 : ℚ) ≤ a.toInt := by exact_mod_cast ha
  have ha31 : (a.toInt : ℝ) ≤ 2 ^ 31 := by exact_mod_cast (toInt_bounds a).2.le
  have hroot := isSqrtRounding_of_nonneg hfin (by rw [hval]; positivity)
  rw [hval] at hroot
  have hlim : |b64Value (b64Sqrt (toFloatCore a.toInt))| ≤ 32767 := by
    rw [abs_of_nonneg hroot.nonneg]
    refine hroot.le_of_le _ (representable_int 32767 (by norm_num)) (by norm_num) ?_
    have : (a.toInt : ℚ) ≤ 2 ^ 31 := by exact_mod_cast (toInt_bounds a).2.le
    norm_num
    linarith
  have hexact : √(((a.toInt : ℚ) / 65536 : ℚ) : ℝ) = √(n : ℝ) / 2 / 65536 := by
    have hsq : (((a.toInt : ℚ) / 65536 : ℚ) : ℝ) = (n : ℝ) / (2 * 65536) ^ 2 := by
      push_cast
      rw [hn]
      ring
    rw [hsq, Real.sqrt_div (by positivity), Real.sqrt_sq (by norm_num), div_div]
  have herr := hroot.error 7 (by push_cast; norm_num; linarith)
  rw [hexact] at herr
  refine fromFloatCore_of_near hroot.finite hlim ?_
  rw [abs_le] at herr hnear ⊢
  obtain ⟨hlo, hhi⟩ := herr
  obtain ⟨hlo', hhi'⟩ := hnear
  norm_num at hlo hhi hlo' hhi' ⊢
  constructor <;> linarith

/-- Settles O52: `fromFloatCore_sqrt`, with the margin of `half_sqrt_near`. -/
theorem sqrtClosedForm : Obligations.SqrtClosedForm := by
  refine ⟨by decide, fun s => ⟨fun h => ?_, fun h => ?_⟩⟩
  · rw [exec_sqrt, if_pos h]
    rfl
  intro v
  have hpipe : exec .sqrt s = answer (fromFloatCore (b64Sqrt (toFloatCore (operandA s)))) s := by
    rw [exec_sqrt, if_neg h.not_gt]
  have hv : v ≤ 0x00B504F3 := by
    have hsqrt : Nat.sqrt (2 ^ 18 * (operandA s).toNat) < 23726567 :=
      Nat.sqrt_lt.mpr (by have := operandA_bounds s; omega)
    omega
  have hn : ((2 ^ 18 * (operandA s).toNat : Nat) : ℝ) = 2 ^ 18 * operandA s := by
    have hcast : ((operandA s).toNat : ℝ) = operandA s := by exact_mod_cast Int.toNat_of_nonneg h
    rw [Nat.cast_mul, hcast]
    norm_num
  have hnear : |√((2 ^ 18 * (operandA s).toNat : Nat) : ℝ) / 2 - v| ≤ 1 / 2 - 1 / 2 ^ 27 :=
    half_sqrt_near (by omega) rfl (by omega)
  refine ⟨hpipe, ?_, hv, ?_⟩
  · rw [hpipe, ← answer_ofInt]
    exact congrArg (answer · s) (fromFloatCore_sqrt (wordA s) h hn hnear)
  · have hroot : √(2 ^ 18 * (operandA s : ℝ)) / 2 = 256 * √(operandA s : ℝ) := by
      rw [show (2 : ℝ) ^ 18 = (2 ^ 9) ^ 2 by norm_num, Real.sqrt_mul (by positivity), Real.sqrt_sq (by norm_num)]
      ring
    rw [hn, hroot] at hnear
    rw [abs_sub_comm]
    exact hnear.trans_lt (by norm_num)

end Sys2Proof.Machine
end

section
/-! PROOF. HYPOT: the binary64 pipeline of R186, and how far it is from the real hypotenuse (spec/43_computed_functions.md
R186, R187). -/

namespace Sys2Proof.Machine

/-! ## Relative errors -/

theorem representable_zero : Representable 0 := by simpa using representable_int 0 (by norm_num)

/-- Rounding a number far above the subnormals, or zero, moves it by at most `2^-53` of itself. -/
theorem IsRounding.relative_error {r : ℚ} {x : B64} (h : IsRounding r x) (hr : r = 0 ∨ 1 / 2 ^ 64 ≤ r) :
    r * (1 - 1 / 2 ^ 53) ≤ b64Value x ∧ b64Value x ≤ r * (1 + 1 / 2 ^ 53) := by
  rcases hr with rfl | hr
  · have hzero : b64Value x = 0 := h.exact representable_zero
    rw [hzero]
    norm_num
  have hpos : 0 < r := lt_of_lt_of_le (by norm_num) hr
  have hlow : (2 : ℚ) ^ Int.log 2 r ≤ r := Int.zpow_log_le_self (by norm_num) hpos
  have hhigh : r < (2 : ℚ) ^ (Int.log 2 r + 1) := Int.lt_zpow_succ_log_self (by norm_num) r
  have hlog : -64 < Int.log 2 r + 1 :=
    (zpow_lt_zpow_iff_right₀ (by norm_num : (1 : ℚ) < 2)).mp (lt_of_le_of_lt (by norm_num at hr ⊢; exact hr) hhigh)
  have herr := h.error (Int.log 2 r) (by omega) (by rwa [abs_of_pos hpos])
  rw [two_zpow_eq_mul _ 53] at hlow
  push_cast at hlow
  rw [abs_le] at herr
  constructor <;> linarith

/-! ## The pipeline -/

theorem isRounding_square (a : Word) :
    IsRounding ((a.toInt : ℚ) ^ 2 / 2 ^ 32) (b64Mul (toFloatCore a.toInt) (toFloatCore a.toInt)) := by
  have h := isRounding_mul_words a a
  push_cast at h
  rwa [← pow_two] at h

theorem sq_toInt_bounds (a : Word) :
    ((a.toInt : ℚ) ^ 2 = 0 ∨ 1 ≤ (a.toInt : ℚ) ^ 2) ∧ (a.toInt : ℚ) ^ 2 ≤ 2 ^ 62 := by
  constructor
  · have hcases : a.toInt ^ 2 = 0 ∨ 1 ≤ a.toInt ^ 2 := by have := sq_nonneg a.toInt; omega
    exact_mod_cast hcases
  · have h : |(a.toInt : ℚ)| ≤ 2 ^ 31 := by exact_mod_cast abs_toInt_le a
    rw [← sq_abs]
    exact (pow_le_pow_left₀ (abs_nonneg _) h 2).trans (by norm_num)

/-- The relative error of the squares. -/
theorem square_relative_error (a : Word) :
    let x := b64Value (b64Mul (toFloatCore a.toInt) (toFloatCore a.toInt))
    (a.toInt : ℚ) ^ 2 / 2 ^ 32 * (1 - 1 / 2 ^ 53) ≤ x ∧ x ≤ (a.toInt : ℚ) ^ 2 / 2 ^ 32 * (1 + 1 / 2 ^ 53) := by
  refine (isRounding_square a).relative_error ((sq_toInt_bounds a).1.imp (fun h => ?_) fun h => ?_)
  · rw [h, zero_div]
  · linarith

/-- The number `s` differs from `S` by at most the relative error of two roundings. -/
def WithinTwoRoundings (S s : ℚ) : Prop := S * (1 - 1 / 2 ^ 53) ^ 2 ≤ s ∧ s ≤ S * (1 + 1 / 2 ^ 53) ^ 2

/-- HYPOT's binary64 value is the rounded root of a rounded sum of rounded squares. -/
theorem exists_hypotFloat_rounding (a b : Word) : ∃ s : ℚ, s < 2 ^ 32 ∧
    WithinTwoRoundings (((a.toInt : ℚ) ^ 2 + (b.toInt : ℚ) ^ 2) / 2 ^ 32) s ∧
    IsSqrtRounding s (hypotFloat a.toInt b.toInt) := by
  obtain ⟨ha, hale⟩ := sq_toInt_bounds a
  obtain ⟨hb, hble⟩ := sq_toInt_bounds b
  obtain ⟨halo, hahi⟩ := square_relative_error a
  obtain ⟨hblo, hbhi⟩ := square_relative_error b
  obtain ⟨sa, ma, ea, hxa, -⟩ := (isRounding_square a).finite
  obtain ⟨sb, mb, eb, hxb, -⟩ := (isRounding_square b).finite
  rw [hxa] at halo hahi
  rw [hxb] at hblo hbhi
  have hadd := isRounding_add sa sb ma mb ea eb
  generalize b64Value (.fin sa ma ea) = x at *
  generalize b64Value (.fin sb mb eb) = y at *
  generalize (a.toInt : ℚ) ^ 2 = p at *
  generalize (b.toInt : ℚ) ^ 2 = q at *
  have hx0 : 0 ≤ x := by rcases ha with h | h <;> linarith
  have hy0 : 0 ≤ y := by rcases hb with h | h <;> linarith
  have hround := hadd (belowOverflow_of_le (by rw [abs_of_nonneg (by positivity)]; linarith))
  have hsum : x + y = 0 ∨ 1 / 2 ^ 64 ≤ x + y := by
    rcases ha with rfl | ha
    · rcases hb with rfl | hb
      · exact .inl (by linarith)
      · exact .inr (by linarith)
    · exact .inr (by linarith)
  obtain ⟨hlo, hhi⟩ := hround.relative_error hsum
  have hnonneg := hround.ge_of_ge 0 representable_zero (by positivity)
  have hroot := isSqrtRounding_of_nonneg hround.finite hnonneg
  rw [hypotFloat, hxa, hxb]
  exact ⟨_, by linarith, ⟨by linarith, by linarith⟩, hroot⟩

theorem exec_hypot (s : State) : exec .hypot s = answer (fromFloatCore (hypotFloat (operandA s) (operandB s))) s := rfl

theorem fromFloatCore_of_nonneg {x : B64} (hx : IsFinite x) (h0 : 0 ≤ b64Value x) (h1 : b64Value x ≤ 32767) :
    fromFloatCore x = .plain (BitVec.ofInt 32 (b64Trunc (b64Add (b64Mul x scaleFactor) half))) := by
  unfold fromFloatCore convLimit zero
  simp only [hx.not_nan, b64Lt_finite_right hx, b64Neg, b64Lt_finite_left hx]
  simp [not_lt.mpr h1, not_lt.mpr h0, show ¬ (b64Value x < -32767) by linarith]

/-- Settles O53: the pipeline ends in a square root, which is finite and not negative. -/
theorem hypotPipeline : Obligations.HypotPipeline := by
  refine ⟨by decide, fun s => ?_⟩
  obtain ⟨_, -, -, hroot⟩ := exists_hypotFloat_rounding (wordA s) (wordB s)
  have hfin : IsFinite (hypotFloat (operandA s) (operandB s)) := hroot.finite
  have hnonneg : 0 ≤ b64Value (hypotFloat (operandA s) (operandB s)) := hroot.nonneg
  rw [exec_hypot]
  refine ⟨?_, hnonneg, fun h => ?_, fun h => ?_⟩
  · obtain ⟨neg, m, e, heq, -⟩ := hfin
    exact ⟨neg, m, e, heq⟩
  · rw [fromFloatCore_above hfin h, answer_satPos]
  · rw [fromFloatCore_of_nonneg hfin hnonneg h, answer_ofInt]

/-! ## The real hypotenuse -/

theorem sqrt_within_of_withinTwoRoundings {S s : ℚ} (hS : 0 ≤ S) (h : WithinTwoRoundings S s) :
    |√(s : ℝ) - √(S : ℝ)| ≤ √(S : ℝ) / 2 ^ 53 := by
  obtain ⟨hlo, hhi⟩ := h
  have hS' : (0 : ℝ) ≤ S := by exact_mod_cast hS
  have hscale {c : ℝ} (hc : 0 ≤ c) : √((S : ℝ) * c ^ 2) = √(S : ℝ) * c := by
    rw [Real.sqrt_mul hS', Real.sqrt_sq hc]
  have hlo' := Real.sqrt_le_sqrt ((Rat.cast_le (K := ℝ)).mpr hlo)
  have hhi' := Real.sqrt_le_sqrt ((Rat.cast_le (K := ℝ)).mpr hhi)
  push_cast at hlo' hhi'
  rw [hscale (by norm_num)] at hlo' hhi'
  rw [abs_le]
  constructor <;> linarith

/-- HYPOT's binary64 value, in raw units, lies within `3/4 · 2^-20` of the real hypotenuse (R187). -/
theorem hypotFloat_near (a b : Word) :
    |65536 * (b64Value (hypotFloat a.toInt b.toInt) : ℝ) - √((a.toInt : ℝ) ^ 2 + (b.toInt : ℝ) ^ 2)| ≤ 3 / 2 ^ 22 := by
  obtain ⟨s, hlt, hwithin, hroot⟩ := exists_hypotFloat_rounding a b
  have hnear := sqrt_within_of_withinTwoRoundings (by positivity) hwithin
  have hexact : √((((a.toInt : ℚ) ^ 2 + (b.toInt : ℚ) ^ 2) / 2 ^ 32 : ℚ) : ℝ) =
      √((a.toInt : ℝ) ^ 2 + (b.toInt : ℝ) ^ 2) / 65536 := by
    push_cast
    rw [Real.sqrt_div (by positivity), show (2 : ℝ) ^ 32 = 65536 ^ 2 by norm_num, Real.sqrt_sq (by norm_num)]
  have hh : √((a.toInt : ℝ) ^ 2 + (b.toInt : ℝ) ^ 2) ≤ 2 ^ 32 := by
    have ha : (a.toInt : ℝ) ^ 2 ≤ 2 ^ 62 := by exact_mod_cast (sq_toInt_bounds a).2
    have hb : (b.toInt : ℝ) ^ 2 ≤ 2 ^ 62 := by exact_mod_cast (sq_toInt_bounds b).2
    refine Real.sqrt_le_iff.mpr ⟨by norm_num, ?_⟩
    linarith
  have herr := hroot.error 15 (by exact_mod_cast hlt)
  rw [hexact] at hnear
  rw [abs_le] at hnear herr ⊢
  obtain ⟨hlo, hhi⟩ := hnear
  obtain ⟨hlo', hhi'⟩ := herr
  norm_num at hlo hhi hlo' hhi' ⊢
  constructor <;> linarith

/-- Settles O54: where the real hypotenuse is `2^-20` away from the halves and from the limit, the computed one is on the
same side of them. -/
theorem hypotClosedForm : Obligations.HypotClosedForm := by
  intro s h hhalf hlimit
  obtain ⟨_, -, -, hroot⟩ := exists_hypotFloat_rounding (wordA s) (wordB s)
  have hfin : IsFinite (hypotFloat (operandA s) (operandB s)) := hroot.finite
  have hnonneg : 0 ≤ b64Value (hypotFloat (operandA s) (operandB s)) := hroot.nonneg
  have hnear : |65536 * (b64Value (hypotFloat (operandA s) (operandB s)) : ℝ) - h| ≤ 3 / 2 ^ 22 :=
    hypotFloat_near (wordA s) (wordB s)
  rw [exec_hypot]
  generalize hypotFloat (operandA s) (operandB s) = x at hfin hnonneg hnear
  have hnear' := abs_le.mp hnear
  refine ⟨fun habove => ?_, fun hbelow => ?_⟩
  · rw [abs_of_pos (sub_pos.mpr habove)] at hlimit
    have hx : (32767 : ℝ) < b64Value x := by linarith
    rw [fromFloatCore_above hfin (by exact_mod_cast hx), answer_satPos]
  · rw [abs_of_nonpos (sub_nonpos.mpr hbelow)] at hlimit
    have hx : (b64Value x : ℝ) ≤ 32767 := by linarith
    have hlim : |b64Value x| ≤ 32767 := by
      rw [abs_of_nonneg hnonneg]
      exact_mod_cast hx
    rw [fromFloatCore_of_near hfin hlim ?_, answer_ofInt]
    have hlo := Int.floor_le (h + 1 / 2)
    have hhi := Int.lt_floor_add_one (h + 1 / 2)
    have hhalf₁ := hhalf (⌊h + 1 / 2⌋ - 1)
    have hhalf₂ := hhalf ⌊h + 1 / 2⌋
    push_cast at hhalf₁
    rw [abs_of_nonneg (by linarith)] at hhalf₁
    rw [abs_of_neg (by linarith)] at hhalf₂
    rw [abs_le]
    constructor <;> linarith

/-! ## One leg zero -/

/-- An integer is far from every half. -/
theorem far_from_half (n k : ℤ) : (1 : ℝ) / 2 ^ 20 < |(n : ℝ) - (k + 1 / 2)| := by
  have hodd : (1 : ℤ) ≤ |2 * n - (2 * k + 1)| := Int.one_le_abs (by omega)
  have hodd' : (1 : ℝ) ≤ |2 * (n : ℝ) - (2 * k + 1)| := by exact_mod_cast hodd
  rw [show 2 * (n : ℝ) - (2 * k + 1) = 2 * (n - (k + 1 / 2)) by ring, abs_mul] at hodd'
  norm_num at hodd' ⊢
  linarith

/-- At the limit itself, where R187 decides nothing, both signs. -/
theorem fromFloatCore_hypotFloat_limit (neg : Bool) :
    fromFloatCore (hypotFloat (if neg then -0x7FFF0000 else 0x7FFF0000) 0) = .plain (BitVec.ofInt 32 0x7FFF0000) := by
  revert neg
  decide +kernel

/-- Settles O55: R187 for an integer hypotenuse, and R186 evaluated at the limit. -/
theorem hypotOfOneLeg : Obligations.HypotOfOneLeg := by
  intro s hb
  by_cases hlimit : |operandA s| = 0x7FFF0000
  · refine ⟨fun _ => ?_, fun h => absurd hlimit h.ne'⟩
    obtain ⟨neg, hneg⟩ : ∃ neg : Bool, operandA s = if neg then -0x7FFF0000 else 0x7FFF0000 := by
      rcases eq_or_eq_neg_of_abs_eq hlimit with h | h
      · exact ⟨false, h⟩
      · exact ⟨true, h⟩
    rw [exec_hypot, hlimit, hb, hneg, fromFloatCore_hypotFloat_limit, answer_ofInt]
  have hleg : √((operandA s : ℝ) ^ 2 + (operandB s : ℝ) ^ 2) = (|operandA s| : ℤ) := by
    rw [hb, Int.cast_zero, zero_pow (by norm_num), add_zero, Real.sqrt_sq_eq_abs, Int.cast_abs]
  have hfar : (1 : ℝ) ≤ |((|operandA s| : ℤ) : ℝ) - 0x7FFF0000| := by
    exact_mod_cast Int.one_le_abs (sub_ne_zero.mpr hlimit)
  have hclosed := hypotClosedForm s
  simp only [hleg] at hclosed
  obtain ⟨habove, hbelow⟩ := hclosed (far_from_half _) (lt_of_lt_of_le (by norm_num) hfar)
  refine ⟨fun h => ?_, fun h => habove (by exact_mod_cast h)⟩
  rw [hbelow (by exact_mod_cast h), Int.floor_intCast_add]
  norm_num

end Sys2Proof.Machine
end

section
/-! PROOF. The binary64 arctangents beside the real arctangent and argument: how near they are, and their correct rounding
where the enclosure decides (spec/43_computed_functions.md R181). -/

namespace Sys2Proof.Machine

/-! ## Signed magnitudes -/

/-- A magnitude with a sign bit, as a real. -/
noncomputable def withSign (neg : Bool) (x : ℝ) : ℝ := if neg then -x else x

@[simp] theorem withSign_false (x : ℝ) : withSign false x = x := rfl

@[simp] theorem withSign_true (x : ℝ) : withSign true x = -x := rfl

theorem abs_withSign (neg : Bool) (x : ℝ) : |withSign neg x| = |x| := by cases neg <;> simp

theorem withSign_sub (neg : Bool) (x y : ℝ) : withSign neg x - withSign neg y = withSign neg (x - y) := by
  cases neg
  · rfl
  · simp only [withSign_true]
    ring

theorem withSign_mul (neg : Bool) (c x : ℝ) : withSign neg (c * x) = c * withSign neg x := by
  cases neg
  · rfl
  · simp only [withSign_true]
    ring

theorem cast_signed (neg : Bool) (r : ℚ) : (((if neg then -1 else 1) * r : ℚ) : ℝ) = withSign neg r := by
  cases neg <;> simp

theorem cast_b64Value_fin (neg : Bool) (m : Nat) (e : Int) :
    (b64Value (.fin neg m e) : ℝ) = withSign neg (m * 2 ^ e) := by
  rw [b64Value_fin, cast_signed]
  push_cast
  rfl

/-! ## Arctangent and argument -/

theorem arctan_withSign (neg : Bool) (x : ℝ) : Real.arctan (withSign neg x) = withSign neg (Real.arctan x) := by
  cases neg
  · rfl
  · exact Real.arctan_neg x

theorem arg_of_re_pos {x : ℝ} (y : ℝ) (hx : 0 < x) : Complex.arg ⟨x, y⟩ = Real.arctan (y / x) := by
  obtain ⟨hlo, hhi⟩ := abs_lt.mp (Complex.abs_arg_lt_pi_div_two_iff.mpr (.inl hx : 0 < (⟨x, y⟩ : ℂ).re ∨ _))
  rw [← Real.arctan_tan hlo hhi, Complex.tan_arg]

theorem arg_vertical {y : ℝ} (hy : 0 < y) : Complex.arg ⟨0, y⟩ = Real.pi / 2 := Complex.arg_eq_pi_div_two_iff.mpr ⟨rfl, hy⟩

theorem arg_scale {c x y : ℝ} (hc : 0 < c) : Complex.arg ⟨c * x, c * y⟩ = Complex.arg ⟨x, y⟩ := by
  rw [← Complex.arg_real_mul ⟨x, y⟩ hc]
  congr 1
  apply Complex.ext <;> simp

/-- Reflection in the vertical axis. -/
theorem arg_neg_re {x y : ℝ} (hx : 0 ≤ x) (hy : 0 ≤ y) (h : x ≠ 0 ∨ y ≠ 0) :
    Complex.arg ⟨-x, y⟩ = Real.pi - Complex.arg ⟨x, y⟩ := by
  rcases hx.eq_or_lt with rfl | hpos
  · rw [neg_zero, arg_vertical (lt_of_le_of_ne hy (h.resolve_left (absurd rfl)).symm)]
    ring
  · have hnorm : ‖(⟨-x, y⟩ : ℂ)‖ = ‖(⟨x, y⟩ : ℂ)‖ := by simp [Complex.norm_def, Complex.normSq_mk]
    rw [Complex.arg_of_re_neg_of_im_nonneg (by simpa using hpos) hy, Complex.arg_of_re_nonneg hx, hnorm, Complex.neg_im,
      neg_div, Real.arcsin_neg]
    ring

/-- Reflection in the horizontal axis, but for its negative half. -/
theorem arg_withSign_im {neg : Bool} {x y : ℝ} (h : neg = true → y ≠ 0) :
    Complex.arg ⟨x, withSign neg y⟩ = withSign neg (Complex.arg ⟨x, y⟩) := by
  cases neg with
  | false => rfl
  | true =>
    have hconj := Complex.arg_conj ⟨x, y⟩
    rwa [if_neg fun hpi => h rfl (Complex.arg_eq_pi_iff.mp hpi).2] at hconj

/-! ## The enclosed angle -/

theorem encloseQuadrant_contains_arg (p q P : Nat) (h : p ≠ 0 ∨ q ≠ 0) :
    (encloseQuadrant p q P).Contains (2 ^ P * Complex.arg ⟨q, p⟩) := by
  rcases Nat.eq_zero_or_pos q with rfl | hq
  · have hp : 0 < p := Nat.pos_of_ne_zero (h.resolve_right (absurd rfl))
    rw [Nat.cast_zero, arg_vertical (by exact_mod_cast hp)]
    exact encloseQuadrant_vertical p P hp
  · rw [arg_of_re_pos _ (by exact_mod_cast hq)]
    exact encloseQuadrant_contains p q P hq

/-- The enclosure contains the argument of the point it is for. -/
theorem encloseAngle_contains_arg (p q P : Nat) (obtuse : Bool) (h : p ≠ 0 ∨ q ≠ 0) :
    (encloseAngle p q P obtuse).Contains (2 ^ P * Complex.arg ⟨withSign obtuse q, p⟩) := by
  have hquadrant := encloseQuadrant_contains_arg p q P h
  cases obtuse with
  | false => exact hquadrant
  | true =>
    rw [withSign_true, arg_neg_re (by positivity) (by positivity) (h.symm.imp Nat.cast_ne_zero.mpr Nat.cast_ne_zero.mpr)]
    exact encloseAngle_obtuse p q P _ (Complex.arg_le_pi _) hquadrant

theorem encloseAngle_contains_arctan (m : Nat) (e : Int) (P : Nat) :
    (encloseAngle (m * 2 ^ e.toNat) (2 ^ (-e).toNat) P false).Contains (2 ^ P * Real.arctan (m * 2 ^ e)) := by
  have hratio : (m : ℝ) * 2 ^ e = (m * 2 ^ e.toNat : Nat) / (2 ^ (-e).toNat : Nat) := by
    have hpow := congrArg (Rat.cast (K := ℝ)) (two_zpow_eq_div e)
    push_cast at hpow ⊢
    rw [hpow]
    ring
  rw [hratio]
  exact encloseQuadrant_contains _ _ P (by positivity)

/-- The argument of a point given by two binary64 values, from the ratio of naturals that `atan2Cr` forms. -/
theorem arg_b64Value {sy sx : Bool} {m n : Nat} {e f : Int} (h : sy = true → m ≠ 0) :
    Complex.arg ⟨(b64Value (.fin sx n f) : ℝ), (b64Value (.fin sy m e) : ℝ)⟩ =
      withSign sy (Complex.arg ⟨withSign sx (n * 2 ^ (f - e).toNat : Nat), (m * 2 ^ (e - f).toNat : Nat)⟩) := by
  have hscale (k : Nat) (a b : Int) : (k : ℝ) * 2 ^ a = 2 ^ min a b * (k * 2 ^ (a - b).toNat : Nat) := by
    have hpow : (2 : ℝ) ^ a = 2 ^ min a b * 2 ^ (a - b).toNat := by
      rw [← zpow_natCast, ← zpow_add₀ (by norm_num)]
      congr 1
      omega
    rw [hpow]
    push_cast
    ring
  rw [cast_b64Value_fin, cast_b64Value_fin, hscale m e f, hscale n f e, min_comm f e, withSign_mul, withSign_mul,
    arg_scale (by positivity)]
  exact arg_withSign_im fun hneg => Nat.cast_ne_zero.mpr (mul_ne_zero (h hneg) (by positivity))

/-! ## The rounded angle -/

theorem ratio_two_pow_le {n P : Nat} (h : (n : ℝ) / 2 ^ P ≤ 2 ^ 64) : (n : ℚ) / (2 ^ P : Nat) ≤ 2 ^ 64 := by
  rw [← Rat.cast_le (K := ℝ)]
  push_cast
  exact h

theorem isRounding_flRatio_two_pow (neg : Bool) {n P : Nat} (h : (n : ℝ) / 2 ^ P ≤ 2 ^ 64) :
    IsRounding ((if neg then -1 else 1) * ((n : ℚ) / (2 ^ P : Nat))) (flRatio neg n (2 ^ P)) := by
  refine isRounding_flRatio neg n (2 ^ P) (by positivity) (belowOverflow_of_le ?_)
  rw [abs_of_nonneg (by positivity)]
  exact ratio_two_pow_le h

theorem flRatio_two_pow_near (neg : Bool) {n P : Nat} (h : (n : ℝ) / 2 ^ P < 8) :
    |(b64Value (flRatio neg n (2 ^ P)) : ℝ) - withSign neg (n / 2 ^ P)| ≤ 1 / 2 ^ 51 := by
  have hle : |((if neg then -1 else 1) * ((n : ℚ) / (2 ^ P : Nat)) : ℚ)| < 2 ^ ((2 : ℤ) + 1) := by
    rw [← Rat.cast_lt (K := ℝ), Rat.cast_abs, cast_signed, abs_withSign]
    push_cast
    rw [abs_of_nonneg (by positivity)]
    exact h
  have herr := (isRounding_flRatio_two_pow neg (h.le.trans (by norm_num))).error 2 (by norm_num) hle
  rw [← Rat.cast_le (K := ℝ), Rat.cast_abs, Rat.cast_sub, cast_signed] at herr
  push_cast at herr
  norm_num at herr ⊢
  exact herr

/-- No binary64 value is nearer to the signed ratio than its rounding. -/
theorem flRatio_two_pow_nearest (neg : Bool) {n P : Nat} (h : (n : ℝ) / 2 ^ P ≤ 2 ^ 64) {y : B64} (hy : IsFinite y) :
    |(b64Value (flRatio neg n (2 ^ P)) : ℝ) - withSign neg (n / 2 ^ P)| ≤ |(b64Value y : ℝ) - withSign neg (n / 2 ^ P)| := by
  obtain ⟨m, e, hfl, -, hnear⟩ := roundingIsNearestEven neg n (2 ^ P) (by positivity) (ratio_two_pow_le h)
  have hreal {k : Nat} {g : Int} (hk : Canonical k g) :
      |(m : ℝ) * 2 ^ e - n / 2 ^ P| ≤ |(k : ℝ) * 2 ^ g - n / 2 ^ P| := by
    have hrat := (hnear k g hk).1
    rw [← Rat.cast_le (K := ℝ), Rat.cast_abs, Rat.cast_abs] at hrat
    push_cast at hrat
    exact hrat
  obtain ⟨t, k, g, rfl, hcan⟩ := hy
  rw [hfl, cast_b64Value_fin, cast_b64Value_fin, withSign_sub, abs_withSign]
  by_cases hsign : t = neg
  · rw [hsign, withSign_sub, abs_withSign]
    exact hreal hcan
  · have hzero := hreal (k := 0) (g := -1074) (by unfold Canonical; norm_num)
    have hopposite : withSign t ((k : ℝ) * 2 ^ g) = withSign neg (-(k * 2 ^ g)) := by
      cases t <;> cases neg <;> simp at hsign ⊢
    have hr : (0 : ℝ) ≤ n / 2 ^ P := by positivity
    have hk : (0 : ℝ) ≤ k * 2 ^ g := by positivity
    rw [Nat.cast_zero, zero_mul, zero_sub, abs_neg, abs_of_nonneg hr] at hzero
    rw [hopposite, withSign_sub, abs_withSign]
    refine hzero.trans ?_
    rw [abs_of_nonpos (by linarith)]
    linarith

/-- Nearer to both ends of an interval is nearer to every point of it. -/
theorem abs_sub_le_of_between {lo hi θ x y : ℝ} (hlo : lo ≤ θ) (hhi : θ ≤ hi) (h₁ : |x - lo| ≤ |y - lo|)
    (h₂ : |x - hi| ≤ |y - hi|) : |x - θ| ≤ |y - θ| := by
  rw [← sq_le_sq] at h₁ h₂ ⊢
  rcases le_total x y with hxy | hxy
  · linarith [mul_nonneg (sub_nonneg.mpr hhi) (sub_nonneg.mpr hxy)]
  · linarith [mul_nonneg (sub_nonneg.mpr hlo) (sub_nonneg.mpr hxy)]

theorem abs_sub_withSign (neg : Bool) (x t : ℝ) : |x - withSign neg t| = |withSign neg x - t| := by
  cases neg
  · rfl
  · rw [withSign_true, withSign_true, ← abs_neg]
    ring_nf

/-- The upper end of an enclosure is at most 30 above its lower end: far from overflow. -/
theorem encloseAngle_hi_le (p q P : Nat) (obtuse : Bool) (hP : 256 ≤ P) :
    (encloseAngle p q P obtuse).hi ≤ (encloseAngle p q P obtuse).lo + 30 * 2 ^ P := by
  have hwidth := encloseAngle_width p q P obtuse
  have hdiv := Nat.div_le_self (2 ^ P) (4 ^ seriesTerms)
  have hpow : 2 ^ 3 ≤ 2 ^ P := Nat.pow_le_pow_right (by norm_num) (by omega)
  rw [enclosureWidth] at hwidth
  omega

section Angle

variable {neg obtuse : Bool} {p q : Nat} {θ : ℝ}
  (hc : (encloseAngle p q (anglePrecision p q) obtuse).Contains (2 ^ anglePrecision p q * θ)) (hθ : θ ≤ Real.pi)
include hc hθ

/-- The rounded angle is finite and within `2^-50` of the angle, whichever end it rounds. -/
theorem roundAngle_near : IsFinite (roundAngle neg p q obtuse) ∧
    |(b64Value (roundAngle neg p q obtuse) : ℝ) - withSign neg θ| ≤ 1 / 2 ^ 50 := by
  obtain ⟨n, hn, hclose⟩ := roundAngle_close neg p q obtuse θ hc
  generalize anglePrecision p q = P at hn hclose
  have hpi := Real.pi_lt_four
  have hn8 : (n : ℝ) / 2 ^ P < 8 := by
    have hup := (abs_le.mp hclose).2
    norm_num at hup
    linarith
  rw [hn]
  refine ⟨(isRounding_flRatio_two_pow neg (hn8.le.trans (by norm_num))).finite, ?_⟩
  have hnear := flRatio_two_pow_near neg hn8
  rw [← abs_withSign neg, ← withSign_sub] at hclose
  have htri := abs_sub_le (b64Value (flRatio neg n (2 ^ P)) : ℝ) (withSign neg (n / 2 ^ P)) (withSign neg θ)
  norm_num at hnear hclose htri ⊢
  linarith

/-- Where both ends round alike, no binary64 value is nearer to the angle than the rounded one. -/
theorem roundAngle_nearest (hdecides : roundedBelow neg p q obtuse = roundedAbove neg p q obtuse) {y : B64}
    (hy : IsFinite y) :
    |(b64Value (roundAngle neg p q obtuse) : ℝ) - withSign neg θ| ≤ |(b64Value y : ℝ) - withSign neg θ| := by
  have hround : roundAngle neg p q obtuse = roundedBelow neg p q obtuse := if_pos hdecides
  have hwidth := encloseAngle_hi_le p q _ obtuse (anglePrecision_ge p q)
  obtain ⟨hlo, hhi⟩ := hc
  have hpi := Real.pi_lt_four
  rw [hround, roundedBelow]
  rw [roundedBelow, roundedAbove] at hdecides
  generalize encloseAngle p q (anglePrecision p q) obtuse = a at *
  generalize anglePrecision p q = P at *
  have hP : (0 : ℝ) < 2 ^ P := by positivity
  have hwidth' : (a.hi : ℝ) ≤ a.lo + 30 * 2 ^ P := by exact_mod_cast hwidth
  have hlo' : (a.lo : ℝ) / 2 ^ P ≤ θ := by rwa [div_le_iff₀' hP]
  have hhi' : θ ≤ (a.hi : ℝ) / 2 ^ P := by rwa [le_div_iff₀' hP]
  have hhi64 : (a.hi : ℝ) / 2 ^ P ≤ 2 ^ 64 := by
    have hsplit : (a.hi : ℝ) / 2 ^ P ≤ a.lo / 2 ^ P + 30 := by
      rw [div_le_iff₀ hP, add_mul, div_mul_cancel₀ _ hP.ne']
      exact hwidth'
    linarith
  have h₁ := flRatio_two_pow_nearest neg (hlo'.trans (hhi'.trans hhi64)) hy
  have h₂ := flRatio_two_pow_nearest neg hhi64 hy
  rw [← hdecides] at h₂
  rw [abs_sub_withSign, abs_sub_withSign] at h₁ h₂ ⊢
  exact abs_sub_le_of_between hlo' hhi' h₁ h₂

end Angle

/-! ## The rounded functions -/

theorem atanCr_of_ne_zero {neg : Bool} {m : Nat} {e : Int} (hm : m ≠ 0) :
    atanCr (.fin neg m e) = roundAngle neg (m * 2 ^ e.toNat) (2 ^ (-e).toNat) false := by
  rw [atanCr, if_neg hm]

theorem atan2Cr_of_not_axis {sy sx : Bool} {m n : Nat} {e f : Int} (h : ¬ (m = 0 ∧ sx = false)) :
    atan2Cr (.fin sy m e) (.fin sx n f) = roundAngle sy (m * 2 ^ (e - f).toNat) (n * 2 ^ (f - e).toNat) sx := by
  rw [atan2Cr, if_neg h]

theorem arctan_b64Value (neg : Bool) (m : Nat) (e : Int) :
    Real.arctan (b64Value (.fin neg m e)) = withSign neg (Real.arctan (m * 2 ^ e)) := by
  rw [cast_b64Value_fin, arctan_withSign]

theorem arctan_le_pi (x : ℝ) : Real.arctan x ≤ Real.pi := by
  linarith [Real.arctan_lt_pi_div_two x, Real.pi_pos]

theorem atanCr_near {x : B64} (hx : IsFinite x) : IsFinite (atanCr x) ∧
    |(b64Value (atanCr x) : ℝ) - Real.arctan (b64Value x)| ≤ 1 / 2 ^ 50 := by
  obtain ⟨neg, m, e, rfl, hcan⟩ := hx
  by_cases hm : m = 0
  · subst hm
    exact ⟨⟨neg, 0, e, rfl, hcan⟩, by simp [atanCr, b64Value_fin_zero]⟩
  · rw [atanCr_of_ne_zero hm, arctan_b64Value]
    exact roundAngle_near (encloseAngle_contains_arctan m e _) (arctan_le_pi _)

theorem atan2Cr_positive_axis (n : Nat) (e f : Int) (hn : n ≠ 0) :
    atan2Cr (.fin false 0 e) (.fin false n f) = .fin false 0 (-1074) ∧
    Complex.arg ⟨(b64Value (.fin false n f) : ℝ), (b64Value (.fin false 0 e) : ℝ)⟩ = 0 := by
  refine ⟨by rw [atan2Cr, if_pos ⟨rfl, rfl⟩], ?_⟩
  have hx : (0 : ℝ) < n * 2 ^ f := by positivity
  rw [cast_b64Value_fin, cast_b64Value_fin, withSign_false, withSign_false, Nat.cast_zero, zero_mul, arg_of_re_pos _ hx,
    zero_div, Real.arctan_zero]

section Point

variable {sy sx : Bool} {m n : Nat} {e f : Int} (hneg : sy = true → m ≠ 0) (hne : m ≠ 0 ∨ n ≠ 0)
include hne

theorem encloseAngle_contains_point_arg (P : Nat) :
    (encloseAngle (m * 2 ^ (e - f).toNat) (n * 2 ^ (f - e).toNat) P sx).Contains
      (2 ^ P * Complex.arg ⟨withSign sx (n * 2 ^ (f - e).toNat : Nat), (m * 2 ^ (e - f).toNat : Nat)⟩) :=
  encloseAngle_contains_arg _ _ P sx (hne.imp (mul_ne_zero · (by positivity)) (mul_ne_zero · (by positivity)))

include hneg

theorem atan2Cr_near : IsFinite (atan2Cr (.fin sy m e) (.fin sx n f)) ∧
    |(b64Value (atan2Cr (.fin sy m e) (.fin sx n f)) : ℝ) -
      Complex.arg ⟨(b64Value (.fin sx n f) : ℝ), (b64Value (.fin sy m e) : ℝ)⟩| ≤ 1 / 2 ^ 50 := by
  by_cases haxis : m = 0 ∧ sx = false
  · obtain ⟨rfl, rfl⟩ := haxis
    obtain rfl : sy = false := Bool.eq_false_iff.mpr fun h => hneg h rfl
    obtain ⟨hatan, harg⟩ := atan2Cr_positive_axis n e f (hne.resolve_left (absurd rfl))
    rw [hatan, harg]
    exact ⟨(isRounding_zero false).finite, by simp⟩
  · rw [atan2Cr_of_not_axis haxis, arg_b64Value hneg]
    exact roundAngle_near (encloseAngle_contains_point_arg hne _) (Complex.arg_le_pi _)

theorem atan2Cr_nearest (hdecides : roundedBelow sy (m * 2 ^ (e - f).toNat) (n * 2 ^ (f - e).toNat) sx =
      roundedAbove sy (m * 2 ^ (e - f).toNat) (n * 2 ^ (f - e).toNat) sx) {z : B64} (hz : IsFinite z) :
    |(b64Value (atan2Cr (.fin sy m e) (.fin sx n f)) : ℝ) -
      Complex.arg ⟨(b64Value (.fin sx n f) : ℝ), (b64Value (.fin sy m e) : ℝ)⟩| ≤
    |(b64Value z : ℝ) - Complex.arg ⟨(b64Value (.fin sx n f) : ℝ), (b64Value (.fin sy m e) : ℝ)⟩| := by
  by_cases haxis : m = 0 ∧ sx = false
  · obtain ⟨rfl, rfl⟩ := haxis
    obtain rfl : sy = false := Bool.eq_false_iff.mpr fun h => hneg h rfl
    obtain ⟨hatan, harg⟩ := atan2Cr_positive_axis n e f (hne.resolve_left (absurd rfl))
    rw [hatan, harg, b64Value_fin_zero]
    simp
  · rw [atan2Cr_of_not_axis haxis, arg_b64Value hneg]
    exact roundAngle_nearest (encloseAngle_contains_point_arg hne _) (Complex.arg_le_pi _) hdecides hz

end Point

/-- Settles O51: `roundAngle_nearest`, on the enclosures of the arctangent and of the argument. -/
theorem atanCorrectlyRounded : Obligations.AtanCorrectlyRounded := by
  refine ⟨fun neg m e hm _ hdecides sgn n f hcan => ?_, fun sy sx m n e f _ _ hne hdecides sgn k g hcan => ?_⟩
  · rw [atanCr_of_ne_zero hm, arctan_b64Value]
    exact roundAngle_nearest (encloseAngle_contains_arctan m e _) (arctan_le_pi _) hdecides ⟨_, _, _, rfl, hcan⟩
  · refine atan2Cr_nearest (fun hneg => ?_) (hne.imp_right And.right) hdecides ⟨_, _, _, rfl, hcan⟩
    exact hne.resolve_right fun h => absurd (hneg.symm.trans h.1) nofun

end Sys2Proof.Machine
end

section
/-! PROOF. ATAN and ATAN2: the rounded angles converted to binary angle units (spec/43_computed_functions.md R180, R182,
R183). -/

namespace Sys2Proof.Machine

/-! ## Binary angle units -/

theorem angleScale_eq : angleScale = .fin false 0x145F306DC9C883 (-47) := by decide +kernel

/-- R180's constant is `128/π`, rounded. -/
theorem angleScale_near : |(b64Value angleScale : ℝ) - 128 / Real.pi| ≤ 1 / 2 ^ 44 := by
  have hpi := Real.pi_pos
  have hlo := Real.pi_gt_d20
  have hhi := Real.pi_lt_d20
  have hscaled : |(b64Value angleScale : ℝ) * Real.pi - 128| ≤ 1 / 2 ^ 44 := by
    rw [angleScale_eq, cast_b64Value_fin, abs_le]
    norm_num at hlo hhi ⊢
    constructor <;> linarith
  have hdiv : (b64Value angleScale : ℝ) - 128 / Real.pi = (b64Value angleScale * Real.pi - 128) / Real.pi := by
    field_simp
  rw [hdiv, abs_div, abs_of_pos hpi]
  exact (div_le_self (abs_nonneg _) (by linarith)).trans hscaled

theorem abs_angleScale_le : |b64Value angleScale| ≤ 64 := by
  rw [angleScale_eq]
  norm_num [abs_le]

/-- Converting a value near an angle gives the angle in binary angle units, rounded, up to `2^-20` of one. -/
theorem exists_toAngle_near {x : B64} (hx : IsFinite x) {θ : ℝ} (hθ : |θ| ≤ Real.pi)
    (hnear : |(b64Value x : ℝ) - θ| ≤ 1 / 2 ^ 50) :
    ∃ w : Word, toAngle x = .plain w ∧ |(w.toInt : ℝ) - 2 ^ 23 / Real.pi * θ| ≤ 1 / 2 + 1 / 2 ^ 20 := by
  have hpi := Real.pi_pos
  have hx4 : |b64Value x| ≤ 4 := by
    have hreal : |(b64Value x : ℝ)| ≤ 4 := by
      have hpi' := Real.pi_lt_d2
      have htri := abs_sub_abs_le_abs_sub (b64Value x : ℝ) θ
      norm_num at hnear hpi'
      linarith
    exact_mod_cast hreal
  have hprod : |b64Value x * b64Value angleScale| ≤ 4 * 64 := by
    rw [abs_mul]
    exact mul_le_mul hx4 abs_angleScale_le (abs_nonneg _) (by norm_num)
  have hround : IsRounding (b64Value x * b64Value angleScale) (b64Mul x angleScale) := by
    obtain ⟨s, m, e, rfl, -⟩ := hx
    rw [angleScale_eq] at hprod ⊢
    exact isRounding_mul _ _ _ _ _ _ (belowOverflow_of_le (hprod.trans (by norm_num)))
  have hlim := hround.abs_value_le (representable_int 32767 (by norm_num)) (hprod.trans (by norm_num))
  obtain ⟨w, hw, hwnear⟩ := exists_fromFloatCore_near hround.finite hlim
  refine ⟨w, hw, ?_⟩
  have herr := hround.error 8 (by norm_num) (hprod.trans_lt (by norm_num))
  rw [← Rat.cast_le (K := ℝ), Rat.cast_abs] at herr
  push_cast at herr
  have hscale : |(b64Value x : ℝ) * b64Value angleScale - 128 / Real.pi * θ| ≤ 1 / 2 ^ 50 * 64 + 4 * (1 / 2 ^ 44) := by
    have hsplit : (b64Value x : ℝ) * b64Value angleScale - 128 / Real.pi * θ =
        (b64Value x - θ) * b64Value angleScale + θ * (b64Value angleScale - 128 / Real.pi) := by ring
    have hK : |(b64Value angleScale : ℝ)| ≤ 64 := by exact_mod_cast abs_angleScale_le
    rw [hsplit]
    refine (abs_add_le _ _).trans ?_
    rw [abs_mul, abs_mul]
    gcongr
    · exact hθ.trans Real.pi_le_four
    · exact angleScale_near
  rw [show 2 ^ 23 / Real.pi * θ = 65536 * (128 / Real.pi * θ) by ring]
  generalize 128 / Real.pi * θ = t at *
  rw [abs_le] at hwnear herr hscale ⊢
  norm_num at hwnear herr hscale ⊢
  constructor <;> linarith

theorem bounds_of_near {w : Word} {t : ℝ} {n : Int} (h : |(w.toInt : ℝ) - t| ≤ 1 / 2 + 1 / 2 ^ 20)
    (ht : |t| < n + 1 / 2 - 1 / 2 ^ 20) : -n ≤ w.toInt ∧ w.toInt ≤ n := by
  rw [← abs_le, ← Int.lt_add_one_iff]
  have htri := abs_sub_abs_le_abs_sub (w.toInt : ℝ) t
  have hlt : ((|w.toInt| : Int) : ℝ) < (n + 1 : Int) := by
    push_cast
    linarith
  exact_mod_cast hlt

/-! ## ATAN -/

theorem exec_atan (s : State) : exec .atan s = answer (toAngle (atanCr (toFloatCore (operandA s)))) s := rfl

theorem cast_toFloatCore (w : Word) : (b64Value (toFloatCore w.toInt) : ℝ) = w.toInt / 2 ^ 16 := by
  rw [(toFloatCore_word w).2]
  push_cast
  norm_num

/-- The arctangent's series from below. -/
theorem le_arctan {t : ℝ} (h0 : 0 ≤ t) (h1 : t < 1) : t * (1 - t * t / 3) ≤ Real.arctan t := by
  have hu1 : t * t < 1 := mul_lt_one_of_nonneg_of_lt_one_left h0 h1 h1.le
  have htail := (tailSum_bounds (t * t) 1 (mul_self_nonneg t) hu1).2
  rw [arctan_eq_mul_tailSum t h0 h1, tailSum_succ _ 0 (mul_self_nonneg t) hu1]
  norm_num at htail ⊢
  refine mul_le_mul_of_nonneg_left ?_ h0
  linarith [mul_le_mul_of_nonneg_left htail (mul_self_nonneg t)]

/-- The arctangent of a word stays clear of the quarter turn by the angle of the largest one (R182). -/
theorem abs_arctan_word_le (w : Word) : |Real.arctan ((w.toInt : ℝ) / 2 ^ 16)| ≤ Real.pi / 2 - 99 / 100 / 2 ^ 15 := by
  have hw : |(w.toInt : ℝ) / 2 ^ 16| ≤ 2 ^ 15 := by
    have : |(w.toInt : ℝ)| ≤ 2 ^ 31 := by exact_mod_cast abs_toInt_le w
    rw [abs_div, abs_of_pos (by positivity : (0 : ℝ) < 2 ^ 16), div_le_iff₀ (by positivity)]
    norm_num at this ⊢
    exact this
  have hbound : Real.arctan (2 ^ 15) ≤ Real.pi / 2 - 99 / 100 / 2 ^ 15 := by
    have hinv := Real.arctan_inv_of_pos (x := 2 ^ 15) (by positivity)
    have hsmall := le_arctan (t := (2 ^ 15)⁻¹) (by positivity) (by norm_num)
    norm_num at hinv hsmall ⊢
    linarith
  obtain ⟨hlo, hhi⟩ := abs_le.mp hw
  have hhi' := Real.arctan_strictMono.monotone hhi
  have hlo' := Real.arctan_strictMono.monotone hlo
  rw [Real.arctan_neg] at hlo'
  rw [abs_le]
  constructor <;> linarith

theorem abs_units_mul (θ : ℝ) : |2 ^ 23 / Real.pi * θ| = 2 ^ 23 / Real.pi * |θ| := by
  rw [abs_mul, abs_of_pos (div_pos (by norm_num) Real.pi_pos)]

/-- Settles O49: the rounded arctangent, converted; its range is that of `abs_arctan_word_le` in units. -/
theorem atanNearestAngle : Obligations.AtanNearestAngle := by
  refine ⟨by decide, fun s => ?_⟩
  obtain ⟨hfin, hnear⟩ := atanCr_near (toFloatCore_word (wordA s)).1
  rw [cast_toFloatCore] at hnear
  have hrange := abs_arctan_word_le (wordA s)
  have hpi := Real.pi_pos
  obtain ⟨w, hw, hwnear⟩ := exists_toAngle_near hfin (hrange.trans (by norm_num; linarith)) hnear
  refine ⟨w, ?_, hwnear, bounds_of_near hwnear ?_⟩
  · rw [exec_atan, ← answer_plain]
    exact congrArg (answer · s) hw
  · have hpi' := Real.pi_lt_d4
    rw [abs_units_mul, div_mul_eq_mul_div, div_lt_iff₀ hpi]
    norm_num at hrange hpi' ⊢
    linarith

/-! ## ATAN2 -/

theorem exec_atan2_origin {s : State} (h : operandA s = 0 ∧ operandB s = 0) : exec .atan2 s = completed s s.err 0#64 := by
  have hresult : exec .atan2 s = answer (atan2Result (operandA s) (operandB s)) s := rfl
  rw [hresult, atan2Result, if_pos h, answer_plain]
  rfl

theorem exec_atan2_of_ne {s : State} (h : ¬ (operandA s = 0 ∧ operandB s = 0)) :
    exec .atan2 s = answer (toAngle (atan2Cr (toFloatCore (operandA s)) (toFloatCore (operandB s)))) s := by
  have hresult : exec .atan2 s = answer (atan2Result (operandA s) (operandB s)) s := rfl
  rw [hresult, atan2Result, if_neg h]

/-- The rounded argument of a point of words other than the origin. A converted zero is positive. -/
theorem atan2Cr_word_near (a b : Word) (h : ¬ (a.toInt = 0 ∧ b.toInt = 0)) :
    IsFinite (atan2Cr (toFloatCore a.toInt) (toFloatCore b.toInt)) ∧
    |(b64Value (atan2Cr (toFloatCore a.toInt) (toFloatCore b.toInt)) : ℝ) -
      Complex.arg ⟨(b.toInt : ℝ), (a.toInt : ℝ)⟩| ≤ 1 / 2 ^ 50 := by
  have harg : Complex.arg ⟨(b64Value (toFloatCore b.toInt) : ℝ), (b64Value (toFloatCore a.toInt) : ℝ)⟩ =
      Complex.arg ⟨(b.toInt : ℝ), (a.toInt : ℝ)⟩ := by
    rw [cast_toFloatCore, cast_toFloatCore, div_eq_inv_mul, div_eq_inv_mul, arg_scale (by positivity)]
  rw [← harg]
  have hzero : toFloatCore 0 = .fin false 0 (-1074) := by decide
  have hsig {w : Word} {t : Bool} {k : Nat} {g : Int} (hw : toFloatCore w.toInt = .fin t k g) (hk : k = 0) :
      w.toInt = 0 := by
    have hval := (toFloatCore_word w).2
    rw [hw, hk, b64Value_fin_zero] at hval
    exact_mod_cast (div_eq_zero_iff.mp hval.symm).resolve_right (by norm_num)
  obtain ⟨sy, m, e, hy, -⟩ := toFloatCore_fin a
  obtain ⟨sx, n, f, hx, -⟩ := toFloatCore_fin b
  have hne : m ≠ 0 ∨ n ≠ 0 := (not_and_or.mp h).imp (mt (hsig hy)) (mt (hsig hx))
  have hneg : sy = true → m ≠ 0 := by
    rintro rfl hm
    rw [hsig hy hm, hzero] at hy
    cases hy
  rw [hy, hx]
  exact atan2Cr_near hneg hne

/-- Settles O50: the origin, and the rounded argument of every other point, converted. -/
theorem atan2NearestAngle : Obligations.Atan2NearestAngle := by
  refine ⟨by decide, fun s => ⟨exec_atan2_origin, fun h => ?_⟩⟩
  obtain ⟨hfin, hnear⟩ := atan2Cr_word_near (wordA s) (wordB s) h
  have hrange := Complex.abs_arg_le_pi ⟨(operandB s : ℝ), (operandA s : ℝ)⟩
  obtain ⟨w, hw, hwnear⟩ := exists_toAngle_near hfin hrange hnear
  refine ⟨w, ?_, hwnear, bounds_of_near hwnear ?_⟩
  · rw [exec_atan2_of_ne h, ← answer_plain]
    exact congrArg (answer · s) hw
  · have hpi := Real.pi_pos
    rw [abs_units_mul, div_mul_eq_mul_div, div_lt_iff₀ hpi]
    norm_num at hrange ⊢
    linarith

end Sys2Proof.Machine
end

section
/-! PROOF. Access to the Error Signal: ERRGET and ERRSET (spec/44_error_access.md R200, R201). -/

namespace Sys2Proof.Machine

theorem exec_errget (s : State) : exec .errget s = completed s s.err (s.err.setWidth 64) := rfl

theorem exec_errset (s : State) : exec .errset s = completed s (operandCode s) 0#64 := rfl

/-- Settles O23: `exec_errget`, whose completed state carries the ERR it started from. -/
theorem errgetReadsCode : Obligations.ErrgetReadsCode :=
  ⟨by decide, exec_errget⟩

/-- Settles O24: `exec_errset`, whose code is the port's two low bits with no case left out. -/
theorem errsetStoresCode : Obligations.ErrsetStoresCode :=
  ⟨by decide, exec_errset⟩

end Sys2Proof.Machine
end

section
/-! PROOF. Errors are recorded, never fatal: every step and every run goes on, and ERR follows the table of error causes
(spec/60_exceptions.md R220 to R222). -/

namespace Sys2Proof.Machine

/-- Settles O14, by induction on the length: by `step_next` every step answers a state, which the rest of the run starts
from. -/
theorem runsNeverStop : Obligations.RunsNeverStop := by
  intro s n
  induction n generalizing s with
  | zero => exact ⟨s, rfl⟩
  | succ n ih =>
    obtain ⟨u, hu, -⟩ := step_next s
    rw [core_run_succ n hu]
    exact ih u

/-- Settles O16: the ERR part of `step_records`, which goes through the commands and illegal words row by row. -/
theorem errorTableComplete : Obligations.ErrorTableComplete := by
  intro s t rest hr hp
  obtain ⟨u, hu, -, -, herr⟩ := step_records hr hp
  exact ⟨u, hu, herr⟩

end Sys2Proof.Machine
end

section
/-! PROOF. Reset, waiting, and the check protocol for the sticky Error Signal (spec/70_reset_and_hazards.md R240, R241,
R244, R246). -/

namespace Sys2Proof.Machine

/-! ## The check protocol -/

/-- A transaction whose word is ERRGET's is answered with the code ERR holds when its step begins. -/
theorem step_errget_response {s : State} {t : Transaction} {rest : List Transaction} (hr : s.resetLine = false)
    (hp : s.pending = t :: rest) (hcmd : t.cmd = encode .errget) :
    ∃ u, step s = .next u ∧ u.response = some ⟨s.err.setWidth 64, false⟩ := by
  have hd : decode t.cmd = .ok .errget := by rw [hcmd, decode_encode]
  exact ⟨_, (step_of_pending hr hp).trans ((perform_of_decode hd).trans (exec_errget _)), rfl⟩

theorem recordedBy_errclr : recordedBy ⟨0x00000031#32, 0#64, 0#32⟩ = some 0#2 := by decide

/-- Settles O18: by `step_records` the first step leaves 0 in ERR and the second what `c` recorded over that 0, which the
third step reads. -/
theorem checkProtocolReportsCommand : Obligations.CheckProtocolReportsCommand := by
  intro s c rest hr hp
  obtain ⟨u₁, h₁, hr₁, hp₁, herr₁⟩ := step_records hr hp
  obtain ⟨u₂, h₂, hr₂, hp₂, herr₂⟩ := step_records hr₁ hp₁
  obtain ⟨u₃, h₃, hresp⟩ := step_errget_response hr₂ hp₂ (by decide)
  have hcode : u₂.err = (recordedBy c).getD 0#2 := by rw [herr₂, herr₁, recordedBy_errclr, Option.getD_some]
  refine ⟨u₃, ?_, hcode ▸ hresp⟩
  rw [core_run_succ 2 h₁, core_run_succ 1 h₂, core_run_succ 0 h₃]
  rfl

/-! ## Waiting and reset -/

theorem step_of_idle {s : State} (hr : s.resetLine = false) (hp : s.pending = []) : step s = .next (waitIdle s) := by
  simp [step, hr, hp]

theorem step_of_resetLine {s : State} (hr : s.resetLine = true) : step s = .next (holdInReset s) := by
  simp [step, hr]

/-- Settles O8: the step is `waitIdle`, which drops the response and nothing else. -/
theorem idleCoreWaits : Obligations.IdleCoreWaits :=
  fun _ hr hp => step_of_idle hr hp

/-- Settles O9: the step is `holdInReset`, whatever is pending; each part is its law for one field. -/
theorem resetAssertedPerformsNothing : Obligations.ResetAssertedPerformsNothing := by
  intro s hr
  exact ⟨holdInReset s, step_of_resetLine hr, holdInReset_err s, holdInReset_cosRom s, holdInReset_tanRom s,
    holdInReset_acosRom s, holdInReset_cmd s, holdInReset_opa s, holdInReset_opb s,
    (holdInReset_resetLine s).trans hr, holdInReset_pending s⟩

/-- The ROMs hold their images after reset (spec/20_memory.md R45). -/
theorem romsIntact_reset : RomsIntact State.reset := ⟨reset_cosRom, reset_tanRom, reset_acosRom⟩

/-- Settles O10: field by field, the reset values of spec/70_reset_and_hazards.md R240. -/
theorem resetClearsErrorAndKeepsRoms : Obligations.ResetClearsErrorAndKeepsRoms :=
  ⟨reset_err, reset_cosRom, reset_tanRom, reset_acosRom, reset_pending, reset_resetLine⟩

/-- Settles O12: the images are intact, ERR is 0, and no transaction is pending that could set the reserved code. -/
theorem resetMeetsEngineInvariant : Obligations.ResetMeetsEngineInvariant := by
  refine ⟨romsIntact_reset, ?_, ?_⟩
  · rw [reset_err]
    decide
  · simp

end Sys2Proof.Machine
end
